-- ==== Sys2Proof/Word.lean ====
section
/-! DEFINITION. The word types of the MOB unit (spec/00_scope.md R6, spec/10_state.md section 2). -/

namespace Sys2Proof

/-- One 32-bit word: every register, every memory location and every command word is one (R6, R68). -/
abbrev Word := BitVec 32

/-- A 16-bit quantity: the stored width of `GROWSTEP`, `LUTD[t].BASE` and `LUTD[t].LEN` (R29, R40). -/
abbrev Half := BitVec 16

/-- A 16-bit word address of the host port; one address names one 32-bit word (R6, R64). -/
abbrev Addr := BitVec 16

end Sys2Proof
end

