-- ==== Sys2Proof/Config.lean ====
section
/-! DEFINITION. What an implementation fixes (the five parameters of spec/00_scope.md R5) and the free
values: what the spec leaves unspecified and no proof may know. -/

namespace Sys2Proof

/-- The five implementation parameters of R5. They are configuration, not state (R9): a machine carries one
record for ever (`State.params`, read by the host through `PARAM0` and `PARAM1`), and no step changes it. -/
structure Params where
  /-- `W`, the SIMD lane width -/
  w : Nat
  /-- `MAXOSC`, the number of physical oscillator slots -/
  maxOsc : Nat
  /-- `MAXFRAMES`, the words in each of `FBUF` and `OBUF` -/
  maxFrames : Nat
  /-- `LMEM_WORDS`, the words of the sample memory -/
  lmemWords : Nat
  /-- `NLUT`, the number of table descriptors -/
  nLut : Nat
deriving DecidableEq, Repr

/-- The default column of R5: the one concrete instance the spec describes. -/
def Params.default : Params :=
  { w := 4, maxOsc := 256, maxFrames := 1024, lmemWords := 4096, nLut := 8 }

/-- The constraint column of R5. -/
abbrev Params.legal (p : Params) : Prop :=
  (p.w = 4 ∨ p.w = 8) ∧ p.maxOsc % p.w = 0 ∧ p.w ≤ p.maxOsc ∧ p.maxOsc ≤ 1024 ∧
    1 ≤ p.maxFrames ∧ p.maxFrames ≤ 1024 ∧ 1 ≤ p.lmemWords ∧ p.lmemWords ≤ 4096 ∧
    1 ≤ p.nLut ∧ p.nLut ≤ 16

/-- The arithmetic primitives that can generate a NaN (R108). `fsub` is `fadd` with a sign flipped (R106), so
it is no operation of its own here. -/
inductive FloatOp where
  | add | mul | div
deriving DecidableEq, Repr

/-- FREE VALUE (R108, U2; that it depends on nothing but the operation and its operands is DEDUCED, log entry 3, unsafe
for claims that compare two NaNs): the sign (bit 22) and the low 22 fraction bits of the quiet NaN that an
operation generates from its two operand words. Nothing is known of it. -/
opaque Config.nanFreeBits : FloatOp → Word → Word → BitVec 23

/-- FREE VALUE (R222, U3; DESIGN CHOICE of its arguments, log entry 2): what the word at a word address of `LMEM`, `FBUF` or `OBUF` holds
while nothing has written it since hardware reset number `epoch`. Nothing is known of it, but two reads with no
write between them agree (R68). -/
opaque Config.unwrittenWord : Nat → Nat → Word

end Sys2Proof
end

