-- ==== Sys2Proof/Syntax.lean ====
section
/-! DEFINITION. The command set `MOB1`: one constructor per row of spec/opcode_table.json (spec/30_encoding.md
R88). `RENDER` has two rows, without and with the envelope flag `E`. -/

namespace Sys2Proof

/-- The 14 commands (15 rows) of R88. `n` is a count and `t` a table index, both unsigned and used as they are
(R86); `c`, `f`, `a`, `k` are the flags chirp, forcing, additive output and keep-last-sample. -/
inductive Instr where
  /-- `NOP` (R185) -/
  | nop
  /-- `RESET` (R186) -/
  | reset
  /-- `RENDER n [, A] [, F] [, C]`: the row with `E = 0` (R127) -/
  | render (c f a : Bool) (n : Nat)
  /-- `RENDER n [, A] [, F] [, C], E=t`: the row with `E = 1` (R127, R130) -/
  | renderEnv (c f a : Bool) (t n : Nat)
  /-- `ALLOC` (R147) -/
  | alloc
  /-- `SHRM` (R149) -/
  | shrm
  /-- `SHRD` (R151) -/
  | shrd
  /-- `DDEC` (R134) -/
  | ddec
  /-- `CSCL` (R132) -/
  | cscl
  /-- `SSCL` (R133) -/
  | sscl
  /-- `GROW n` (R146) -/
  | grow (n : Nat)
  /-- `LNEAR t` (R167) -/
  | lnear (t : Nat)
  /-- `LLIN t` (R168) -/
  | llin (t : Nat)
  /-- `LCYC t, n [, A] [, K]` (R169) -/
  | lcyc (k a : Bool) (t n : Nat)
  /-- `LCHK t` (R170) -/
  | lchk (t : Nat)
deriving DecidableEq, Repr

end Sys2Proof
end

