-- ==== Sys2Proof/WellFormed.lean ====
section
/-! DEFINITION. Which terms of `Instr` are commands a command word can carry: the field widths of
spec/30_encoding.md R85. -/

namespace Sys2Proof

/-- A table index fits the 4-bit field `t[19:16]` (R85). -/
abbrev TableFits (t : Nat) : Prop := t < 16

/-- A count fits the 16-bit field `n[15:0]` (R85). -/
abbrev CountFits (n : Nat) : Prop := n < 65536

/-- Every operand fits its field of the command word (R85). -/
def WellFormed : Instr → Bool
  | .nop => true
  | .reset => true
  | .render _ _ _ n => decide (CountFits n)
  | .renderEnv _ _ _ t n => decide (TableFits t) && decide (CountFits n)
  | .alloc => true
  | .shrm => true
  | .shrd => true
  | .ddec => true
  | .cscl => true
  | .sscl => true
  | .grow n => decide (CountFits n)
  | .lnear t => decide (TableFits t)
  | .llin t => decide (TableFits t)
  | .lcyc _ _ t n => decide (TableFits t) && decide (CountFits n)
  | .lchk t => decide (TableFits t)

end Sys2Proof
end

