-- ==== Sys2Proof/Decode.lean ====
section
/-! DEFINITION. Bit fields (spec/00_scope.md R6), the decoder and the encoder of the command word
(spec/30_encoding.md R85 to R91). -/

namespace Sys2Proof

/-- `v[hi:lo]`, read as an unsigned integer (R6). -/
def slice (v : Word) (hi lo : Nat) : Nat :=
  v.toNat / 2 ^ lo % 2 ^ (hi + 1 - lo)

/-- Why a command word is reserved: the two items of R89. -/
inductive Reserved where
  /-- item 1: `op` is not one of the 14 values of R88 -/
  | opcode
  /-- item 2: a field that R88 marks "0" for its `op` is not zero -/
  | field
deriving DecidableEq, Repr

/-- Accept `i` if the must-be-zero fields are zero, else reject the word as reserved (R89 item 2). -/
def whenZero (mustBeZero : Bool) (i : Instr) : Except Reserved Instr :=
  if mustBeZero then .ok i else .error .field

/-- One bit of a word. -/
def bitOf (v : Word) (k : Nat) : Bool := slice v k k == 1

/-- The case analysis of R91 on the seven fields of a command word (`fl = 0` in R91 is `plain`: all four flag
bits zero). -/
def decodeFields (op : Nat) (fE fC fF fA : Bool) (t n : Nat) : Except Reserved Instr :=
  let plain := !fE && !fC && !fF && !fA
  if op = 0x00 then whenZero (plain && t == 0 && n == 0) .nop
  else if op = 0x01 then whenZero (plain && t == 0 && n == 0) .reset
  else if op = 0x10 then
    if fE then .ok (.renderEnv fC fF fA t n) else whenZero (t == 0) (.render fC fF fA n)
  else if op = 0x11 then whenZero (plain && t == 0 && n == 0) .alloc
  else if op = 0x12 then whenZero (plain && t == 0 && n == 0) .shrm
  else if op = 0x13 then whenZero (plain && t == 0 && n == 0) .shrd
  else if op = 0x14 then whenZero (plain && t == 0 && n == 0) .ddec
  else if op = 0x15 then whenZero (plain && t == 0 && n == 0) .cscl
  else if op = 0x16 then whenZero (plain && t == 0 && n == 0) .sscl
  else if op = 0x17 then whenZero (plain && t == 0) (.grow n)
  else if op = 0x20 then whenZero (plain && n == 0) (.lnear t)
  else if op = 0x21 then whenZero (plain && n == 0) (.llin t)
  else if op = 0x22 then whenZero (!fE && !fC) (.lcyc fF fA t n)
  else if op = 0x23 then whenZero (plain && n == 0) (.lchk t)
  else .error .opcode

/-- The decoder of R91: total, a function of the word alone (R85, R87). -/
def decode (w : Word) : Except Reserved Instr :=
  decodeFields (slice w 31 24) (bitOf w 23) (bitOf w 22) (bitOf w 21) (bitOf w 20) (slice w 19 16) (slice w 15 0)

/-- A command word from its seven fields (R85). -/
def commandWord (op : Nat) (fE fC fF fA : Bool) (t n : Nat) : Word :=
  BitVec.ofNat 32
    (op * 0x1000000 + fE.toNat * 0x800000 + fC.toNat * 0x400000 + fF.toNat * 0x200000 +
      fA.toNat * 0x100000 + t * 0x10000 + n)

/-- The command word of a command (the encoding column of R88). -/
def encode : Instr → Word
  | .nop => commandWord 0x00 false false false false 0 0
  | .reset => commandWord 0x01 false false false false 0 0
  | .render c f a n => commandWord 0x10 false c f a 0 n
  | .renderEnv c f a t n => commandWord 0x10 true c f a t n
  | .alloc => commandWord 0x11 false false false false 0 0
  | .shrm => commandWord 0x12 false false false false 0 0
  | .shrd => commandWord 0x13 false false false false 0 0
  | .ddec => commandWord 0x14 false false false false 0 0
  | .cscl => commandWord 0x15 false false false false 0 0
  | .sscl => commandWord 0x16 false false false false 0 0
  | .grow n => commandWord 0x17 false false false false 0 n
  | .lnear t => commandWord 0x20 false false false false t 0
  | .llin t => commandWord 0x21 false false false false t 0
  | .lcyc k a t n => commandWord 0x22 false false k a t n
  | .lchk t => commandWord 0x23 false false false false t 0

/-- The word that a table row's `nbits` low bits make: a command is exactly one 32-bit word (R87). -/
def tableWord (nbits w : Nat) : Word :=
  BitVec.ofNat 32 (w % 2 ^ nbits)

/-- What the decoder reads from the instruction whose bits are `w`, numbered as spec/opcode_table.json numbers
them: bit 0 is the least significant bit of the one 32-bit command word. -/
def decodeTableWord (nbits w : Nat) : Option Instr :=
  match decode (tableWord nbits w) with
  | .ok i => some i
  | .error _ => none

end Sys2Proof
end

