-- ==== Sys2Proof/Machine/Numerics.lean ====
section
/-! DEFINITION. The binary32 primitives and integer laws of spec/40_numerics.md. Every finite binary32 value is
an integer multiple of 2^-149, so exact values are held as integers in that unit and rounded once. -/

namespace Sys2Proof.Machine

open Sys2Proof

/-! The parts of a binary32 word (R105). -/

/-- The sign bit `s` (R105). -/
def fSign (a : Word) : Bool := slice a 31 31 == 1

/-- The biased exponent `e` (R105). -/
def fExp (a : Word) : Nat := slice a 30 23

/-- The fraction `m` (R105). -/
def fFrac (a : Word) : Nat := slice a 22 0

/-- `e = 255, m ≠ 0` (R105). -/
def isNaN (a : Word) : Bool := fExp a == 255 && fFrac a != 0

/-- `e = 255, m = 0` (R105). -/
def isInf (a : Word) : Bool := fExp a == 255 && fFrac a == 0

/-- Neither infinite nor a NaN (R112). -/
def isFinite (a : Word) : Bool := fExp a != 255

/-- The magnitude of a finite word in units of 2^-149: subnormals are read exactly (R105, R107). -/
def fMag (a : Word) : Nat :=
  if fExp a = 0 then fFrac a else (2 ^ 23 + fFrac a) * 2 ^ (fExp a - 1)

/-- The value of a finite word in units of 2^-149 (R105). -/
def fVal (a : Word) : Int := if fSign a then -(fMag a : Int) else (fMag a : Int)

/-- The word with this sign and these 31 low bits. -/
def fPack (neg : Bool) (low : Nat) : Word :=
  BitVec.ofNat 32 ((if neg then 2 ^ 31 else 0) + low)

/-- The low 31 bits of an infinity. -/
def infLow : Nat := 0x7F800000

/-- A generated NaN: quiet (bit 22 set), its sign and remaining fraction free (R108, U2; log entry 3). -/
def quietNaN (p : BitVec 23) : Word :=
  BitVec.ofNat 32 (p.toNat / 2 ^ 22 * 2 ^ 31 + 0x7FC00000 + p.toNat % 2 ^ 22)

/-- The NaN that operation `o` generates from `a` and `b` (R108). -/
def freeNaN (o : FloatOp) (a b : Word) : Word := quietNaN (Config.nanFreeBits o a b)

/-! Rounding (R106, R107, R117). -/

/-- `num / den` rounded to the nearest integer, ties to even. -/
def roundEven (num den : Nat) : Nat :=
  let q := num / den
  let r := num % den
  if 2 * r < den then q else if den < 2 * r then q + 1 else q + q % 2

/-- The low 31 bits of the binary32 nearest to `num / den` (in units of 2^-149), ties to even, with gradual
underflow (R107) and overflow to infinity (R117). Below 2^24 the spacing of the format is one unit; each further
binade doubles it, and the low bits of a word count the format's values upwards from zero. -/
def roundMag (num den : Nat) : Nat :=
  let s := Nat.log2 (num / den) - 23
  min (s * 2 ^ 23 + roundEven num (den * 2 ^ s)) infLow

/-! The primitives (R106 to R117). -/

/-- The word with its sign bit flipped and its other bits unchanged. -/
def fneg (a : Word) : Word := fPack (!fSign a) (slice a 30 0)

/-- `fadd` (R106, R108, R115, R117): an exact zero sum is `-0` only if both operands are negative zeros. -/
def fadd (a b : Word) : Word :=
  if isNaN a || isNaN b then freeNaN .add a b
  else if isInf a then (if isInf b && (fSign a != fSign b) then freeNaN .add a b else a)
  else if isInf b then b
  else
    let v := fVal a + fVal b
    if v = 0 then fPack (fSign a && fSign b) 0 else fPack (decide (v < 0)) (roundMag v.natAbs 1)

/-- `fsub(a, b)` is `fadd(a, b with its sign bit flipped)` (R106). -/
def fsub (a b : Word) : Word := fadd a (fneg b)

/-- `fmul` (R106, R108, R115, R117). -/
def fmul (a b : Word) : Word :=
  let neg := fSign a != fSign b
  if isNaN a || isNaN b then freeNaN .mul a b
  else if isInf a || isInf b then
    (if (isFinite a && fMag a == 0) || (isFinite b && fMag b == 0) then freeNaN .mul a b else fPack neg infLow)
  else fPack neg (roundMag (fMag a * fMag b) (2 ^ 149))

/-- `fdiv` (R106, R108, R115, R117). -/
def fdiv (a b : Word) : Word :=
  let neg := fSign a != fSign b
  if isNaN a || isNaN b then freeNaN .div a b
  else if isInf a then (if isInf b then freeNaN .div a b else fPack neg infLow)
  else if isInf b then fPack neg 0
  else if fMag b = 0 then (if fMag a = 0 then freeNaN .div a b else fPack neg infLow)
  else fPack neg (roundMag (fMag a * 2 ^ 149) (fMag b))

/-- `fabs`: bit 31 cleared, all other bits unchanged (R109). -/
def fabs (a : Word) : Word := fPack false (slice a 30 0)

/-- The place of a word that is no NaN in the order of the values: the low bits count the values upwards from
zero, the infinity above every finite value, and both zeros stand at 0 (R105, R110). -/
def fKey (a : Word) : Int := if fSign a then -(slice a 30 0 : Int) else (slice a 30 0 : Int)

/-- `fgt` (R110). -/
def fgt (a b : Word) : Bool := !isNaN a && !isNaN b && decide (fKey b < fKey a)

/-- `fge` (R110). -/
def fge (a b : Word) : Bool := !isNaN a && !isNaN b && decide (fKey b ≤ fKey a)

/-- `feq` (R110). -/
def feq (a b : Word) : Bool := !isNaN a && !isNaN b && decide (fKey a = fKey b)

/-- `fmaxc`, the clamped maximum of the chirp: one of its operand words unchanged (R111). -/
def fmaxc (a b : Word) : Word := if fge a b then a else b

/-- `floorZ` of a finite word: the greatest integer not above the value (R113). -/
def floorZ (a : Word) : Int := fVal a / 2 ^ 149

/-- `i2f`: the binary32 nearest to an integer, ties to even; `i2f 0` is `+0` (R114). -/
def i2f (k : Int) : Word := fPack (decide (k < 0)) (roundMag (k.natAbs * 2 ^ 149) 1)

/-! The integer laws (R118 to R120). -/

/-- `roundup_W` (R118). -/
def roundUp (w n : Nat) : Nat := w * ((n + w - 1) / w)

/-- `rounddown_W` (R118). -/
def roundDown (w n : Nat) : Nat := w * (n / w)

/-- `satadd32` (R119). -/
def satAdd32 (a : Word) (b : Nat) : Word := BitVec.ofNat 32 (min (a.toNat + b) (2 ^ 32 - 1))

/-- `emod`, the Euclidean remainder (R120). -/
def emod (i : Int) (m : Nat) : Nat := (i % (m : Int)).toNat

/-- The binary32 constant 0.5 of R167. -/
def fHalf : Word := 0x3F000000#32

/-- The interpolation form `a + fr·(b − a)` with three roundings (R168, R169). -/
def interpolate (a b fr : Word) : Word := fadd a (fmul fr (fsub b a))

end Sys2Proof.Machine
end

