-- ==== Sys2Proof/Machine/State.lean ====
section
/-! DEFINITION. The state of the MOB unit as plain data (spec/10_state.md), the reasons a step could stop, and
the state right after hardware reset (spec/70_reset_and_hazards.md R220, R221). -/

namespace Sys2Proof.Machine

open Sys2Proof

/-- Why the machine could stop with a fault. There is none: the unit has no trap and no stuck state, and every
command word has a defined outcome (R10, R195). Safe: the spec gives every transaction a next state. -/
inductive Fault where
deriving DecidableEq, Repr

/-- Why a command could have no meaning in the model. -/
inductive Refusal where
  /-- The arm of a command whose meaning is not written yet answers it, with the table's mnemonic. No arm of
  this model does. Safe: it stops where the hardware goes on. -/
  | notModelled (mnemonic : String)
deriving DecidableEq, Repr

/-- The eleven fields of an oscillator slot, in the order of R37. -/
inductive Field where
  | c1 | c2 | y1 | y2 | gain | dur | cmul | clim | radius | freq | decay
deriving DecidableEq, Repr

/-- The words of one lookup-table descriptor `LUTD[t]` (R40). -/
structure Descriptor where
  /-- `BASE`, 16 bits stored: index in `LMEM` of the first sample -/
  base : Half
  /-- `LEN`, 16 bits stored: number of samples -/
  len : Half
  /-- `MINX`, binary32: the abscissa of sample 0 -/
  minX : Word
  /-- `DX`, binary32: the abscissa distance between samples -/
  dx : Word
deriving DecidableEq, Repr

/-- An empty descriptor, the reset value of every one (R40). -/
def Descriptor.empty : Descriptor := { base := 0, len := 0, minX := 0, dx := 0 }

/-- The word memories `LMEM`, `FBUF`, `OBUF`, `OSC` at their host word addresses (R36, R42 to R44, R64), as
(address, word) pairs in one canonical form (`Memory.wf` in Ops): addresses strictly rise and no pair says what an
unlisted address holds anyway. The unit's smallest addressable unit is the 32-bit word (R66, R68; DESIGN CHOICE, log entry 1, safe). -/
structure Memory where
  /-- THE MODEL'S OWN FIELD: how many hardware resets there have been; it picks the free contents of the words
  that nothing has written since the last one (log entry 2) -/
  epoch : Nat
  /-- the listed words -/
  cells : List (Nat × Word)
deriving DecidableEq, Repr

/-- What the outside world does to the unit: the two transactions of the port (R61, R62) and hardware reset
(R220, R223). -/
inductive Transaction where
  /-- `HostWrite(a, v)` -/
  | write (a : Addr) (v : Word)
  /-- `HostRead(a)` -/
  | read (a : Addr)
  /-- `rst_n` goes to 0 and back to 1 -/
  | hardReset
deriving DecidableEq, Repr

/-- The state of one MOB unit: everything spec/10_state.md names, the host's transactions still to come, and
what its reads have returned. `ID`, `ACTIVE`, `CMD` and `STATUS.RUNNING` hold nothing of their own (R17, R20, R21,
R25); `PARAM0` and `PARAM1` are `params` (R18, R19). -/
structure State where
  /-- the parameters of R5, fixed for the machine; `PARAM0` and `PARAM1` read them -/
  params : Params
  /-- `STATUS[12:8]`: `CAPPED`, `E_BADLUT`, `E_BADLEN`, `E_ZEROLEN`, `E_BADOP` from bit 4 down to bit 0 (R21) -/
  sticky : BitVec 5
  /-- `LASTERR[7:0]` (R22) -/
  lastErr : BitVec 8
  /-- `LASTCMD` (R23) -/
  lastCmd : Word
  /-- `ERRCNT` (R24) -/
  errCnt : Word
  /-- `NLIVE`, the exact number of occupied slots (R26; a number, R121: DESIGN CHOICE, log entry 7, safe) -/
  nlive : Nat
  /-- `CAP`, the current capacity in slots (R28) -/
  cap : Nat
  /-- `CAPMAX`, the configured maximum (R27) -/
  capMax : Nat
  /-- `GROWSTEP[15:0]` (R29) -/
  growStep : Half
  /-- `SIDX`, the sample index since strike (R30) -/
  sidx : Word
  /-- `THR`, binary32 (R31) -/
  thr : Word
  /-- `DT`, binary32 (R32) -/
  dt : Word
  /-- `KC1`, binary32 (R33) -/
  kc1 : Word
  /-- `KC2`, binary32 (R33) -/
  kc2 : Word
  /-- `KS`, binary32 (R33) -/
  ks : Word
  /-- `XIN`, binary32 (R34) -/
  xin : Word
  /-- `XINC`, binary32 (R34) -/
  xinc : Word
  /-- `XEND`, binary32 (R34) -/
  xend : Word
  /-- `RES`, the lookup result (R34) -/
  res : Word
  /-- `P[0]` to `P[10]`, the staging registers (R35) -/
  stage : Vector Word 11
  /-- `LUTD[t]`; those with `t < NLUT` exist, the others are never read or written (R40; DESIGN CHOICE, log entry 6,
  safe) -/
  lutd : Vector Descriptor 16
  /-- `OSC`, `LMEM`, `FBUF`, `OBUF` (R36, R42 to R44) -/
  mem : Memory
  /-- THE MODEL'S OWN FIELD: the host's transactions not yet accepted, oldest first (R8, R12, R16; DESIGN CHOICE, log
  entry 5, safe) -/
  pending : List Transaction
  /-- THE MODEL'S OWN FIELD: the values returned by the `HostRead` transactions so far, oldest first: the observable
  result of a run (R12; log entry 5) -/
  reads : List Word
deriving DecidableEq, Repr

/-- The machine right after hardware reset (R45, R220, R221), with the default parameters of R5 (log entry 4):
every register zero, every descriptor empty, every slot word zero, `LMEM`, `FBUF`, `OBUF` unwritten, and no
transaction from the host yet. -/
def State.reset : State where
  params := Params.default
  sticky := 0
  lastErr := 0
  lastCmd := 0
  errCnt := 0
  nlive := 0
  cap := 0
  capMax := 0
  growStep := 0
  sidx := 0
  thr := 0
  dt := 0
  kc1 := 0
  kc2 := 0
  ks := 0
  xin := 0
  xinc := 0
  xend := 0
  res := 0
  stage := Vector.replicate 11 0
  lutd := Vector.replicate 16 Descriptor.empty
  mem := { epoch := 0, cells := [] }
  pending := []
  reads := []

end Sys2Proof.Machine
end

