-- ==== Sys2Proof/Machine/Ops.lean ====
section
/-! DEFINITION. The named operations over memory and registers: the word memories (spec/20_memory.md R64,
spec/10_state.md R36, R42 to R44), slots, the updates a command makes, and the error record `fail(code)`
(spec/60_exceptions.md R196), which is what taking an exception is on this unit, with its acknowledgement
(R203) beside it. -/

namespace Sys2Proof.Machine

open Sys2Proof

/-! The address windows of R64. -/

/-- `LMEM` starts at `0x1000` (R42). -/
def lmemBase : Nat := 0x1000

/-- `FBUF` starts at `0x2000` (R43). -/
def fbufBase : Nat := 0x2000

/-- `OBUF` starts at `0x2400` (R44). -/
def obufBase : Nat := 0x2400

/-- `OBUF`'s window ends before `0x2800` (R64). -/
def obufEnd : Nat := 0x2800

/-- `OSC` starts at `0x4000` (R36). -/
def oscBase : Nat := 0x4000

/-- One field's window of `OSC` holds `0x400` addresses (R36). -/
def oscStride : Nat := 0x400

/-- The number `f` of a field (R37). -/
def Field.index : Field → Nat
  | .c1 => 0 | .c2 => 1 | .y1 => 2 | .y2 => 3 | .gain => 4 | .dur => 5
  | .cmul => 6 | .clim => 7 | .radius => 8 | .freq => 9 | .decay => 10

/-- All eleven fields in order (R37). -/
def Field.all : List Field :=
  [.c1, .c2, .y1, .y2, .gain, .dur, .cmul, .clim, .radius, .freq, .decay]

/-- The address of `OSC[f][i]` (R36). -/
def oscAddr (f : Field) (i : Nat) : Nat := oscBase + f.index * oscStride + i

/-! Memory. -/

/-- What a word holds after hardware reset while nothing has written it: a slot word is zero (R36), a word of
`LMEM`, `FBUF`, `OBUF` has no specified value (R222). -/
def Memory.resetValue (a : Nat) : Option Word :=
  if lmemBase ≤ a ∧ a < obufEnd then none else some 0

/-- What an unlisted address reads as: its reset value, or the free value of the word (R222, U3). -/
def Memory.unlisted (epoch a : Nat) : Word :=
  match Memory.resetValue a with
  | some v => v
  | none => Config.unwrittenWord epoch a

/-- The word at an address. -/
def Memory.read (m : Memory) (a : Nat) : Word :=
  (m.cells.lookup a).getD (Memory.unlisted m.epoch a)

/-- The listed pair for `v` at `a`, or nothing where that is the reset value. -/
def Memory.entry (a : Nat) (v : Word) : List (Nat × Word) :=
  if Memory.resetValue a = some v then [] else [(a, v)]

/-- Insert `v` at `a` into a list of cells in order of address. -/
def Memory.insert (a : Nat) (v : Word) : List (Nat × Word) → List (Nat × Word)
  | [] => Memory.entry a v
  | c :: rest =>
    if c.1 < a then c :: Memory.insert a v rest
    else if c.1 = a then Memory.entry a v ++ rest
    else Memory.entry a v ++ c :: rest

/-- Write a word; the canonical form is kept. -/
def Memory.write (m : Memory) (a : Nat) (v : Word) : Memory :=
  { m with cells := Memory.insert a v m.cells }

/-- The canonical form: addresses strictly rise, and no listed word is what the address holds unlisted. -/
abbrev Memory.wf (m : Memory) : Prop :=
  m.cells.Pairwise (fun x y => x.1 < y.1) ∧ ∀ c ∈ m.cells, Memory.resetValue c.1 ≠ some c.2

/-- `OSC[f][i]` (R36). -/
def Memory.osc (m : Memory) (f : Field) (i : Nat) : Word := m.read (oscAddr f i)

/-- `OSC[f][i] <- v`. -/
def Memory.setOsc (m : Memory) (f : Field) (i : Nat) (v : Word) : Memory := m.write (oscAddr f i) v

/-- `LMEM[j]` (R42). -/
def Memory.lmem (m : Memory) (j : Nat) : Word := m.read (lmemBase + j)

/-- `FBUF[k]` (R43). -/
def Memory.fbuf (m : Memory) (k : Nat) : Word := m.read (fbufBase + k)

/-- `OBUF[k]` (R44). -/
def Memory.obuf (m : Memory) (k : Nat) : Word := m.read (obufBase + k)

/-- `OBUF[k] <- v`. -/
def Memory.setObuf (m : Memory) (k : Nat) (v : Word) : Memory := m.write (obufBase + k) v

/-! Slots. -/

/-- `clear_slot(i)`: every field to zero (R7). -/
def Memory.clearSlot (m : Memory) (i : Nat) : Memory :=
  Field.all.foldl (fun m f => m.setOsc f i 0) m

/-- Copy all eleven fields of slot `j` to slot `i` (R151). -/
def Memory.copySlot (m : Memory) (j i : Nat) : Memory :=
  Field.all.foldl (fun m f => m.setOsc f i (m.osc f j)) m

/-- `for i = 0 to n-1: op i`, over memory (the loop of every whole-bank command). -/
def Memory.forEach (n : Nat) (op : Memory → Nat → Memory) (m : Memory) : Memory :=
  (List.range n).foldl op m

/-! The updates a command makes. -/

/-- The word memories become `m`. -/
def State.setMem (s : State) (m : Memory) : State := { s with mem := m }

/-- `NLIVE <- n`. -/
def State.setNlive (s : State) (n : Nat) : State := { s with nlive := n }

/-- `CAP <- n`. -/
def State.setCap (s : State) (n : Nat) : State := { s with cap := n }

/-- `SIDX <- v`. -/
def State.setSidx (s : State) (v : Word) : State := { s with sidx := v }

/-- `RES <- v`. -/
def State.setRes (s : State) (v : Word) : State := { s with res := v }

/-- The staged word `P[f]` (R35). -/
def State.staged (s : State) (f : Field) : Word := s.stage.getD f.index 0

/-- `P[f] <- v` (R35). -/
def State.setStaged (s : State) (f : Field) (v : Word) : State :=
  { s with stage := s.stage.setIfInBounds f.index v }

/-- The descriptor `LUTD[t]` (R40). -/
def State.lut (s : State) (t : Nat) : Descriptor := s.lutd.getD t Descriptor.empty

/-- `LUTD[t] <- d`. -/
def State.setLut (s : State) (t : Nat) (d : Descriptor) : State :=
  { s with lutd := s.lutd.setIfInBounds t d }

/-! The error record (R196, R197). -/

/-- The four causes of failure (R197). -/
inductive ErrCode where
  | badOp | zeroLen | badLen | badLut
deriving DecidableEq, Repr

/-- The number of a code (R197). -/
def ErrCode.number : ErrCode → Nat
  | .badOp => 1 | .zeroLen => 2 | .badLen => 3 | .badLut => 4

/-- `STATUS[7 + code]` as a mask of `STATUS[12:8]` (R197). -/
def ErrCode.stickyBit (c : ErrCode) : BitVec 5 := 1#5 <<< (c.number - 1)

/-- `fail(code)` by the command whose word is `w` (R196; a meaning knows its word as its encoding: DEDUCED, log entry 8,
safe): the sticky bit, `LASTERR`, `LASTCMD`, `ERRCNT`, and
nothing else. Control goes nowhere: the next transaction is executed normally (R195, R202). -/
def State.fail (s : State) (c : ErrCode) (w : Word) : State :=
  { s with
    sticky := s.sticky ||| c.stickyBit
    lastErr := BitVec.ofNat 8 c.number
    lastCmd := w
    errCnt := satAdd32 s.errCnt 1 }

/-- Clear the log, the effect of a write of any value to `ERRCNT` (R24). With `State.clearSticky` it is the
host's acknowledgement of an error; there is no return from one (R203). -/
def State.clearLog (s : State) : State := { s with errCnt := 0, lastErr := 0, lastCmd := 0 }

/-! Hardware reset (R220 to R223). -/

/-- Hardware reset from any state: every register and every slot word to its reset value; `LMEM`, `FBUF`,
`OBUF` become unspecified anew (R222). The parameters are the machine's; what the host still sends and what it has
already read are the host's (DESIGN CHOICE, log entry 9, safe). -/
def State.hardReset (s : State) : State :=
  { State.reset with
    params := s.params
    mem := { epoch := s.mem.epoch + 1, cells := [] }
    pending := s.pending
    reads := s.reads }

end Sys2Proof.Machine
end

