-- ==== Sys2Proof/Machine/Flags.lean ====
section
/-! DEFINITION. The `STATUS` bits, the only flags of the unit (spec/10_state.md R21, R47). -/

namespace Sys2Proof.Machine

open Sys2Proof

/-- `STATUS.RUNNING`: live, 1 iff `NLIVE > 0` (R21). -/
def State.running (s : State) : Bool := decide (0 < s.nlive)

/-- The word a read of `STATUS` returns: bit 0 live, bits 12:8 sticky, the rest 0 (R21, R62). -/
def State.statusWord (s : State) : Word :=
  BitVec.ofNat 32 (s.sticky.toNat * 2 ^ 8 + s.running.toNat)

/-- `STATUS.CAPPED`, bit 12, as a mask of `STATUS[12:8]` (R21). -/
def cappedBit : BitVec 5 := 0x10#5

/-- `STATUS.CAPPED <- 1` (R147, R200). -/
def State.setCapped (s : State) : State := { s with sticky := s.sticky ||| cappedBit }

/-- A write of `v` to `STATUS`: each of bits 12:8 is cleared where `v` has a 1 (R21, R61). -/
def State.clearSticky (s : State) (v : Word) : State :=
  { s with sticky := s.sticky &&& ~~~(BitVec.ofNat 5 (slice v 12 8)) }

end Sys2Proof.Machine
end

