-- ==== Sys2Proof/Machine/Operands.lean ====
section
/-! DEFINITION. What the commands read besides their fields: descriptor validity (spec/10_state.md R41), the
samples and positions of a table (spec/43_lut.md R165, R166), the derived `ACTIVE` (R25). -/

namespace Sys2Proof.Machine

open Sys2Proof

/-- `ACTIVE = roundup_W(NLIVE)` (R25). -/
def State.active (s : State) : Nat := roundUp s.params.w s.nlive

/-- `storage_ok(t)` (R41). -/
def State.storageOk (s : State) (t : Nat) : Bool :=
  decide (t < s.params.nLut) && decide (1 ≤ (s.lut t).len.toNat) &&
    decide ((s.lut t).base.toNat + (s.lut t).len.toNat ≤ s.params.lmemWords)

/-- `axis_ok(t)` (R41). -/
def State.axisOk (s : State) (t : Nat) : Bool :=
  isFinite (s.lut t).minX && isFinite (s.lut t).dx && fgt (s.lut t).dx 0

/-- `curve_ok(t)` (R41). -/
def State.curveOk (s : State) (t : Nat) : Bool := s.storageOk t && s.axisOk t

/-- Sample `j` of a table: `LMEM[BASE + j]` (R165). -/
def Memory.sample (m : Memory) (d : Descriptor) (j : Nat) : Word := m.lmem (d.base.toNat + j)

/-- The position of an abscissa in a table: a subtraction, then a true division (R166). -/
def Descriptor.pos (d : Descriptor) (x : Word) : Word := fdiv (fsub x d.minX) d.dx

end Sys2Proof.Machine
end

