-- ==== Sys2Proof/Machine/Bank.lean ====
section
/-! DEFINITION. The oscillator-bank commands RENDER, CSCL, SSCL, DDEC (spec/41_oscillator_bank.md). -/

namespace Sys2Proof.Machine

open Sys2Proof

/-- What one `RENDER` works with, fixed at its start (R127): its flags, the envelope's descriptor if `E = 1`, and
the registers it reads. -/
structure RenderJob where
  /-- flag `C` -/
  chirp : Bool
  /-- flag `F` -/
  forcing : Bool
  /-- flag `A` -/
  additive : Bool
  /-- `LUTD[t]` if `E = 1` -/
  envelope : Option Descriptor
  /-- the lane width `W` -/
  width : Nat
  /-- `NLIVE` -/
  nlive : Nat
  /-- `SIDX` as it was before the command -/
  sidx : Nat
deriving DecidableEq, Repr

/-- The output `y0` of slot `i` in a frame: the recursion with three roundings, and with `F` two more for the
forcing term (R128). Without `F`, `GAIN` and the forcing sample are not used. -/
def slotOutput (forcing : Bool) (x : Word) (m : Memory) (i : Nat) : Word :=
  let y0 := fsub (fmul (m.osc .c1 i) (m.osc .y1 i)) (fmul (m.osc .c2 i) (m.osc .y2 i))
  if forcing then fadd y0 (fmul (m.osc .gain i) x) else y0

/-- The chirped coefficient: multiplied by `CMUL`, clamped from below by `CLIM` (R129). -/
def chirpedC1 (m : Memory) (i : Nat) : Word :=
  fmaxc (fmul (m.osc .c1 i) (m.osc .cmul i)) (m.osc .clim i)

/-- Slot `i` moves on by one sample whose output is `y0`: `Y2 <- Y1`, `Y1 <- y0`, and with `C` the coefficient
is chirped after `y0` was computed from the old one (R127, R129). -/
def advanceSlot (chirp : Bool) (y0 : Word) (m : Memory) (i : Nat) : Memory :=
  let m1 := (m.setOsc .y2 i (m.osc .y1 i)).setOsc .y1 i y0
  if chirp then m1.setOsc .c1 i (chirpedC1 m i) else m1

/-- One lane of one group: a live slot advances and its output is added to the lane's accumulator; a padding
lane is skipped (R126, R127). -/
def renderLane (j : RenderJob) (k g : Nat) (st : Memory × List Word) (l : Nat) : Memory × List Word :=
  let i := g * j.width + l
  if i < j.nlive then
    let y0 := slotOutput j.forcing (st.1.fbuf k) st.1 i
    (advanceSlot j.chirp y0 st.1 i, st.2.set l (fadd (st.2.getD l 0) y0))
  else st

/-- All groups of one frame, ascending, and the `W` lanes of each, from zeroed accumulators (R126, R127). -/
def renderGroups (j : RenderJob) (k : Nat) (m : Memory) : Memory × List Word :=
  (List.range (roundUp j.width j.nlive / j.width)).foldl
    (fun st g => (List.range j.width).foldl (renderLane j k g) st) (m, List.replicate j.width 0)

/-- The horizontal sum of the accumulators, lanes ascending (R127). -/
def laneSum : List Word → Word
  | [] => 0
  | a :: rest => rest.foldl fadd a

/-- The envelope: frame `k` is multiplied by sample `SIDX + k` of the table below its length and left as it is
from there on; no interpolation (R130). -/
def shaped (j : RenderJob) (k : Nat) (m : Memory) (sum : Word) : Word :=
  match j.envelope with
  | none => sum
  | some d => if j.sidx + k < d.len.toNat then fmul sum (m.sample d (j.sidx + k)) else sum

/-- Write output word `k`, added to what is there or over it (R131, R169, D21). -/
def Memory.output (additive : Bool) (m : Memory) (k : Nat) (v : Word) : Memory :=
  m.setObuf k (if additive then fadd (m.obuf k) v else v)

/-- One frame (R127). -/
def renderFrame (j : RenderJob) (m : Memory) (k : Nat) : Memory :=
  let st := renderGroups j k m
  st.1.output j.additive k (shaped j k st.1 (laneSum st.2))

/-- The body of `RENDER` after its checks: `n` frames, then `SIDX` advances by `n`, saturating (R127, R131). -/
def State.renderFrames (s : State) (c f a : Bool) (envelope : Option Descriptor) (n : Nat) : State :=
  let j : RenderJob :=
    { chirp := c, forcing := f, additive := a, envelope := envelope, width := s.params.w,
      nlive := s.nlive, sidx := s.sidx.toNat }
  (s.setMem (Memory.forEach n (renderFrame j) s.mem)).setSidx (satAdd32 s.sidx n)

/-- `RENDER` without an envelope, the row `E = 0` (R127): `ZEROLEN` before `BADLEN` (R199). -/
def execRender (c f a : Bool) (n : Nat) (s : State) : Host.Outcome State Fault Refusal :=
  if n = 0 then .next (s.fail .zeroLen (encode (.render c f a n)))
  else if s.params.maxFrames < n then .next (s.fail .badLen (encode (.render c f a n)))
  else .next (s.renderFrames c f a none n)

/-- `RENDER` with envelope table `t`, the row `E = 1` (R127, R130): the envelope needs only `storage_ok(t)`,
and the checks stand in the order `ZEROLEN`, `BADLEN`, `BADLUT` (R199). -/
def execRenderEnv (c f a : Bool) (t n : Nat) (s : State) : Host.Outcome State Fault Refusal :=
  if n = 0 then .next (s.fail .zeroLen (encode (.renderEnv c f a t n)))
  else if s.params.maxFrames < n then .next (s.fail .badLen (encode (.renderEnv c f a t n)))
  else if !s.storageOk t then .next (s.fail .badLut (encode (.renderEnv c f a t n)))
  else .next (s.renderFrames c f a (some (s.lut t)) n)

/-- `CSCL`: `C1·KC1` and `C2·KC2` for every live slot (R132). -/
def execCscl (s : State) : Host.Outcome State Fault Refusal :=
  .next (s.setMem (Memory.forEach s.nlive
    (fun m i => (m.setOsc .c1 i (fmul (m.osc .c1 i) s.kc1)).setOsc .c2 i (fmul (m.osc .c2 i) s.kc2)) s.mem))

/-- `SSCL`: `Y1·KS` and `Y2·KS` for every live slot (R133). -/
def execSscl (s : State) : Host.Outcome State Fault Refusal :=
  .next (s.setMem (Memory.forEach s.nlive
    (fun m i => (m.setOsc .y1 i (fmul (m.osc .y1 i) s.ks)).setOsc .y2 i (fmul (m.osc .y2 i) s.ks)) s.mem))

/-- `DDEC`: `DUR - DT` for every live slot, with no clamp and no removal (R134). -/
def execDdec (s : State) : Host.Outcome State Fault Refusal :=
  .next (s.setMem (Memory.forEach s.nlive
    (fun m i => m.setOsc .dur i (fsub (m.osc .dur i) s.dt)) s.mem))

end Sys2Proof.Machine
end

