-- ==== Sys2Proof/Machine/Control.lean ====
section
/-! DEFINITION. The control commands NOP and RESET (spec/44_control.md). -/

namespace Sys2Proof.Machine

open Sys2Proof

/-- `NOP`: no state change (R185). -/
def execNop (s : State) : Host.Outcome State Fault Refusal := .next s

/-- `RESET`: clear every slot, `NLIVE <- 0`, `SIDX <- 0`; everything else is kept (R186, R187). -/
def execReset (s : State) : Host.Outcome State Fault Refusal :=
  .next (((s.setMem (Memory.forEach s.params.maxOsc Memory.clearSlot s.mem)).setNlive 0).setSidx 0)

end Sys2Proof.Machine
end

