-- ==== Sys2Proof/Machine/Lut.lean ====
section
/-! DEFINITION. The lookup-table commands LNEAR, LLIN, LCYC, LCHK (spec/43_lut.md). -/

namespace Sys2Proof.Machine

open Sys2Proof

/-- The clamps that `LNEAR` and `LLIN` share, around what each does between two samples (R167, R168): a position
that is not above 0 (a NaN too) gives the first sample, one at or beyond the last sample gives the last, and in
between the two neighbours and the fraction are handed on. -/
def Memory.lookup (m : Memory) (d : Descriptor) (x : Word) (between : Word → Word → Word → Word) : Word :=
  let p := d.pos x
  if !fgt p 0 then m.sample d 0
  else if fge p (i2f ((d.len.toNat : Int) - 1)) then m.sample d (d.len.toNat - 1)
  else
    let i := floorZ p
    between (m.sample d i.toNat) (m.sample d (i.toNat + 1)) (fsub p (i2f i))

/-- The nearer of two neighbours; half-way goes to the upper one (R167). -/
def nearer (lower upper fr : Word) : Word := if fge fr fHalf then upper else lower

/-- The value of a table at a position, cyclically with period `M` (R169): the first sample for a position that is
not finite. -/
def Memory.cyclic (m : Memory) (d : Descriptor) (period : Nat) (p : Word) : Word :=
  if !isFinite p then m.sample d 0
  else
    let i := floorZ p
    interpolate (m.sample d (emod i period)) (m.sample d (emod (i + 1) period)) (fsub p (i2f i))

/-- The abscissa of frame `k` of `LCYC`: formed afresh from `k`, not accumulated (R169). -/
def cyclicAbscissa (xin xinc : Word) (k : Nat) : Word := fadd xin (fmul (i2f k) xinc)

/-- The period of `LCYC` in samples: the last sample is removed unless `K` is given (R169). -/
def Descriptor.period (d : Descriptor) (keepLast : Bool) : Nat :=
  d.len.toNat - (if keepLast then 0 else 1)

/-- The end of a table's domain as `LCHK` computes it (R170). -/
def Descriptor.maxX (d : Descriptor) : Word := fadd d.minX (fmul d.dx (i2f ((d.len.toNat : Int) - 1)))

/-- `LNEAR t` (R167). -/
def execLnear (t : Nat) (s : State) : Host.Outcome State Fault Refusal :=
  if !s.curveOk t then .next (s.fail .badLut (encode (.lnear t)))
  else .next (s.setRes (s.mem.lookup (s.lut t) s.xin nearer))

/-- `LLIN t` (R168). -/
def execLlin (t : Nat) (s : State) : Host.Outcome State Fault Refusal :=
  if !s.curveOk t then .next (s.fail .badLut (encode (.llin t)))
  else .next (s.setRes (s.mem.lookup (s.lut t) s.xin interpolate))

/-- `LCYC t, n [, A] [, K]` (R169): the checks stand in the order `ZEROLEN`, `BADLEN`, `BADLUT` (R199). -/
def execLcyc (k a : Bool) (t n : Nat) (s : State) : Host.Outcome State Fault Refusal :=
  if n = 0 then .next (s.fail .zeroLen (encode (.lcyc k a t n)))
  else if s.params.maxFrames < n then .next (s.fail .badLen (encode (.lcyc k a t n)))
  else if !s.curveOk t || decide ((s.lut t).period k < 1) then .next (s.fail .badLut (encode (.lcyc k a t n)))
  else
    .next (s.setMem (Memory.forEach n
      (fun m j => m.output a j
        (m.cyclic (s.lut t) ((s.lut t).period k) ((s.lut t).pos (cyclicAbscissa s.xin s.xinc j)))) s.mem))

/-- `LCHK t` (R170): the result is the integer 1 or 0. -/
def execLchk (t : Nat) (s : State) : Host.Outcome State Fault Refusal :=
  if !s.curveOk t then .next (s.fail .badLut (encode (.lchk t)))
  else .next (s.setRes (if feq s.xin (s.lut t).minX && feq s.xend (s.lut t).maxX then 1 else 0))

end Sys2Proof.Machine
end

