-- ==== Sys2Proof/Machine/Pool.lean ====
section
/-! DEFINITION. The voice-pool commands GROW, ALLOC, SHRM, SHRD (spec/42_voice_pool.md). -/

namespace Sys2Proof.Machine

open Sys2Proof

/-- The capacity `k` more slots would give: rounded up to the lane width, capped (R146, R147, D9). -/
def State.grownCap (s : State) (k : Nat) : Nat := min (roundUp s.params.w (s.cap + k)) s.capMax

/-- Append the staged oscillator as slot `NLIVE` (R147). The staging registers keep their values (R35). -/
def State.appendStaged (s : State) : State :=
  (s.setMem (Field.all.foldl (fun m f => m.setOsc f s.nlive (s.staged f)) s.mem)).setNlive (s.nlive + 1)

/-- The magnitude `|Y1| + |Y2|` of slot `i` exceeds the threshold (R149). -/
def Memory.loud (m : Memory) (thr : Word) (i : Nat) : Bool :=
  fgt (fadd (fabs (m.osc .y1 i)) (fabs (m.osc .y2 i))) thr

/-- The scan of `SHRM` over slots `n-1` down to 0: one above the first loud slot it meets, or 0 (R149). -/
def Memory.loudCount (m : Memory) (thr : Word) : Nat → Nat
  | 0 => 0
  | i + 1 => if m.loud thr i then i + 1 else Memory.loudCount m thr i

/-- A slot lives on under `SHRD` iff its duration is greater than zero; a NaN is dead (R151, R152). -/
def Memory.alive (m : Memory) (i : Nat) : Bool := fgt (m.osc .dur i) 0

/-- The loop of `SHRD` at index `i` with `rest = NLIVE - i`, which every iteration lowers by one: a dead slot is
overwritten by the last live one, which is cleared, and `i` is examined again; the answer is the final `NLIVE` and
the memory (R151). -/
def Memory.dropDead : (rest i : Nat) → Memory → Nat × Memory
  | 0, i, m => (i, m)
  | rest + 1, i, m =>
    if m.alive i then Memory.dropDead rest (i + 1) m
    else
      let last := i + rest
      let m1 := if i ≠ last then m.copySlot last i else m
      Memory.dropDead rest i (m1.clearSlot last)

/-- `GROW n` (R146). -/
def execGrow (n : Nat) (s : State) : Host.Outcome State Fault Refusal := .next (s.setCap (s.grownCap n))

/-- `ALLOC` (R147): append if the rounded count fits; else grow by `GROWSTEP` and try again; else only `CAPPED`
is set (and `CAP` may have grown). -/
def execAlloc (s : State) : Host.Outcome State Fault Refusal :=
  let need := roundUp s.params.w (s.nlive + 1)
  if need ≤ s.cap then .next s.appendStaged
  else
    let s1 := s.setCap (s.grownCap s.growStep.toNat)
    if need ≤ s1.cap then .next s1.appendStaged else .next s1.setCapped

/-- `SHRM` (R149): the slots from the kept count up to the old `NLIVE` are cleared. -/
def execShrm (s : State) : Host.Outcome State Fault Refusal :=
  let kept := s.mem.loudCount s.thr s.nlive
  .next ((s.setMem (Memory.forEach (s.nlive - kept) (fun m j => m.clearSlot (kept + j)) s.mem)).setNlive kept)

/-- `SHRD` (R151). -/
def execShrd (s : State) : Host.Outcome State Fault Refusal :=
  let r := Memory.dropDead s.nlive 0 s.mem
  .next ((s.setMem r.2).setNlive r.1)

end Sys2Proof.Machine
end

