-- ==== Sys2Proof/Machine/Dispatch.lean ====
section
/-! DEFINITION. The effect of each command: one arm per constructor, one meaning per arm. -/

namespace Sys2Proof.Machine

open Sys2Proof

def exec (i : Instr) (s : State) : Host.Outcome State Fault Refusal :=
  match i with
  | .nop => Sys2Proof.Machine.execNop s
  | .reset => Sys2Proof.Machine.execReset s
  | .render c f a n => Sys2Proof.Machine.execRender c f a n s
  | .renderEnv c f a t n => Sys2Proof.Machine.execRenderEnv c f a t n s
  | .alloc => Sys2Proof.Machine.execAlloc s
  | .shrm => Sys2Proof.Machine.execShrm s
  | .shrd => Sys2Proof.Machine.execShrd s
  | .ddec => Sys2Proof.Machine.execDdec s
  | .cscl => Sys2Proof.Machine.execCscl s
  | .sscl => Sys2Proof.Machine.execSscl s
  | .grow n => Sys2Proof.Machine.execGrow n s
  | .lnear t => Sys2Proof.Machine.execLnear t s
  | .llin t => Sys2Proof.Machine.execLlin t s
  | .lcyc k a t n => Sys2Proof.Machine.execLcyc k a t n s
  | .lchk t => Sys2Proof.Machine.execLchk t s

end Sys2Proof.Machine
end

