-- ==== Sys2Proof/Machine/HostPort.lean ====
section
/-! DEFINITION. The host port: the address map (spec/20_memory.md R64, R65, spec/10_state.md R45), `HostRead`
(R62), `HostWrite` (R61), the execution of a command word (R20), and the acceptance of one transaction (R63). -/

namespace Sys2Proof.Machine

open Sys2Proof

/-- What a word address names (R45, R64). -/
inductive Location where
  | id | param0 | param1 | cmd | status | lastErr | lastCmd | errCnt | nlive | active | cap | capMax | growStep
  | sidx | thr | dt | kc1 | kc2 | ks | xin | xinc | xend | res
  /-- `P[f]` -/
  | staged (f : Field)
  | lutBase (t : Nat)
  | lutLen (t : Nat)
  | lutMinX (t : Nat)
  | lutDx (t : Nat)
  | lmem (j : Nat)
  | fbuf (k : Nat)
  | obuf (k : Nat)
  | osc (f : Field) (i : Nat)
  /-- an address that reads 0 and ignores writes (R65) -/
  | unmapped
deriving DecidableEq, Repr

/-- The control and status registers at `0x0000` to `0x0017`, in order (R45). -/
def controlMap : List Location :=
  [.id, .param0, .param1, .unmapped, .cmd, .status, .lastErr, .lastCmd, .errCnt, .nlive, .active, .cap,
    .capMax, .growStep, .sidx, .thr, .dt, .kc1, .kc2, .ks, .xin, .xinc, .xend, .res]

/-- The field with number `f`, if there is one (R37). -/
def Field.ofIndex (f : Nat) : Option Field := Field.all[f]?

/-- The location of an offset in the descriptor window: word `k` of descriptor `t` at `4t + k` (R40). -/
def descriptorAt (p : Params) (o : Nat) : Location :=
  if o / 4 < p.nLut then
    (if o % 4 = 0 then .lutBase (o / 4) else if o % 4 = 1 then .lutLen (o / 4)
     else if o % 4 = 2 then .lutMinX (o / 4) else .lutDx (o / 4))
  else .unmapped

/-- The location of an offset in the slot window: slot `i` of field `f` at `f·0x400 + i` (R36). -/
def slotAt (p : Params) (o : Nat) : Location :=
  match Field.ofIndex (o / oscStride) with
  | some f => if o % oscStride < p.maxOsc then .osc f (o % oscStride) else .unmapped
  | none => .unmapped

/-- The address map (R45, R64, R65). -/
def locate (p : Params) (addr : Addr) : Location :=
  let a := addr.toNat
  if a < 0x18 then controlMap.getD a .unmapped
  else if 0x20 ≤ a ∧ a < 0x2B then
    match Field.ofIndex (a - 0x20) with
    | some f => .staged f
    | none => .unmapped
  else if 0x100 ≤ a ∧ a < 0x140 then descriptorAt p (a - 0x100)
  else if lmemBase ≤ a ∧ a < lmemBase + p.lmemWords then .lmem (a - lmemBase)
  else if fbufBase ≤ a ∧ a < fbufBase + p.maxFrames then .fbuf (a - fbufBase)
  else if obufBase ≤ a ∧ a < obufBase + p.maxFrames then .obuf (a - obufBase)
  else if oscBase ≤ a ∧ a < 0x8000 then slotAt p (a - oscBase)
  else .unmapped

/-- `PARAM0 = MAXOSC ++ NLUT ++ W` (R18). -/
def Params.param0 (p : Params) : Word := BitVec.ofNat 32 (p.maxOsc * 2 ^ 16 + p.nLut * 2 ^ 8 + p.w)

/-- `PARAM1 = LMEM_WORDS ++ MAXFRAMES` (R19). -/
def Params.param1 (p : Params) : Word := BitVec.ofNat 32 (p.lmemWords * 2 ^ 16 + p.maxFrames)

/-- The word a location reads as (R62). -/
def State.peek (s : State) : Location → Word
  | .id => 0x4D4F4231
  | .param0 => Params.param0 s.params
  | .param1 => Params.param1 s.params
  | .cmd => 0
  | .status => s.statusWord
  | .lastErr => s.lastErr.setWidth 32
  | .lastCmd => s.lastCmd
  | .errCnt => s.errCnt
  | .nlive => BitVec.ofNat 32 s.nlive
  | .active => BitVec.ofNat 32 s.active
  | .cap => BitVec.ofNat 32 s.cap
  | .capMax => BitVec.ofNat 32 s.capMax
  | .growStep => s.growStep.setWidth 32
  | .sidx => s.sidx
  | .thr => s.thr
  | .dt => s.dt
  | .kc1 => s.kc1
  | .kc2 => s.kc2
  | .ks => s.ks
  | .xin => s.xin
  | .xinc => s.xinc
  | .xend => s.xend
  | .res => s.res
  | .staged f => s.staged f
  | .lutBase t => (s.lut t).base.setWidth 32
  | .lutLen t => (s.lut t).len.setWidth 32
  | .lutMinX t => (s.lut t).minX
  | .lutDx t => (s.lut t).dx
  | .lmem j => s.mem.lmem j
  | .fbuf k => s.mem.fbuf k
  | .obuf k => s.mem.obuf k
  | .osc f i => s.mem.osc f i
  | .unmapped => 0

/-- `HostRead(a)`: the value it returns; it changes no state (R62, R68). -/
def State.hostRead (s : State) (a : Addr) : Word := s.peek (locate s.params a)

/-- The value `CAPMAX` takes for a written `v` (R27). -/
def State.legalCapMax (s : State) (v : Word) : Nat :=
  max s.cap (roundDown s.params.w (min v.toNat s.params.maxOsc))

/-- The effect of a host write of `v` at a location, but for `CMD` (R61). Read-only registers, slots at or above
`NLIVE` (R69) and unmapped addresses ignore it (R65). -/
def State.poke (s : State) (v : Word) : Location → State
  | .status => s.clearSticky v
  | .errCnt => s.clearLog
  | .capMax => { s with capMax := s.legalCapMax v }
  | .growStep => { s with growStep := v.setWidth 16 }
  | .sidx => { s with sidx := v }
  | .thr => { s with thr := v }
  | .dt => { s with dt := v }
  | .kc1 => { s with kc1 := v }
  | .kc2 => { s with kc2 := v }
  | .ks => { s with ks := v }
  | .xin => { s with xin := v }
  | .xinc => { s with xinc := v }
  | .xend => { s with xend := v }
  | .staged f => s.setStaged f v
  | .lutBase t => s.setLut t { s.lut t with base := v.setWidth 16 }
  | .lutLen t => s.setLut t { s.lut t with len := v.setWidth 16 }
  | .lutMinX t => s.setLut t { s.lut t with minX := v }
  | .lutDx t => s.setLut t { s.lut t with dx := v }
  | .lmem j => s.setMem (s.mem.write (lmemBase + j) v)
  | .fbuf k => s.setMem (s.mem.write (fbufBase + k) v)
  | .obuf k => s.setMem (s.mem.write (obufBase + k) v)
  | .osc f i => if i < s.nlive then s.setMem (s.mem.setOsc f i v) else s
  | .id | .param0 | .param1 | .cmd | .lastErr | .lastCmd | .nlive | .active | .cap | .res | .unmapped => s

/-- Execute a command word: the command it decodes to, or `fail(1)` for a reserved word (R20, R89). -/
def State.runWord (s : State) (w : Word) : Host.Outcome State Fault Refusal :=
  match decode w with
  | .ok i => exec i s
  | .error _ => .next (s.fail .badOp w)

/-- `HostWrite(a, v)` (R61). -/
def State.hostWrite (s : State) (a : Addr) (v : Word) : Host.Outcome State Fault Refusal :=
  match locate s.params a with
  | .cmd => s.runWord v
  | l => .next (s.poke v l)

/-- Accept one transaction and complete it (R63). -/
def State.accept (s : State) : Transaction → Host.Outcome State Fault Refusal
  | .write a v => s.hostWrite a v
  | .read a => .next { s with reads := s.reads ++ [s.hostRead a] }
  | .hardReset => .next s.hardReset

/-- The next transaction of the host's sequence is accepted and complete before any later one (R63, R71); with
none the unit is idle and keeps all its state (R12, R210). -/
def State.stepPending (s : State) : Host.Outcome State Fault Refusal :=
  match s.pending with
  | [] => .next s
  | tx :: rest => State.accept { s with pending := rest } tx

/-- The address of `CMD` (R20). -/
def cmdAddr : Addr := 0x0004

/-- Put a write of `w` to `CMD` in front of the host's sequence. -/
def State.queueCommand (s : State) (w : Word) : State :=
  { s with pending := .write cmdAddr w :: s.pending }

end Sys2Proof.Machine
end

