-- ==== Sys2Proof/Machine/Step.lean ====
section
/-! DEFINITION. One step of the machine, one transaction of the host (spec/00_scope.md R8), and where a command
word stands so that the next step runs it. -/

namespace Sys2Proof.Machine

open Sys2Proof

/-- One step: the unit accepts and completes the host's next transaction (R8, R63, R233). -/
def step (s : State) : Host.Outcome State Fault Refusal := s.stepPending

/-- The state in which the command with these bits is the host's next write to `CMD`: the unit has no program
counter and no instruction memory (R16; log entry 5). -/
def State.withFetchWord (s : State) (nbits w : Nat) : State := s.queueCommand (tableWord nbits w)

end Sys2Proof.Machine
end

