-- ==== Sys2Proof/Safety.lean ====
section
/-! DEFINITION. The terms the statements use: the invariants of the state (spec/10_state.md R38, R39), what a
frame says, slots as lists, and the per-slot reading of `RENDER` (spec/41_oscillator_bank.md R125 to R131). -/

namespace Sys2Proof.Machine

open Sys2Proof

/-! ## Invariants -/

/-- The address belongs to a word memory of the map of R64: `LMEM`, `FBUF`, `OBUF` or a slot word. -/
def MappedWord (p : Params) (a : Nat) : Bool :=
  (decide (lmemBase ≤ a) && decide (a < lmemBase + p.lmemWords)) ||
  (decide (fbufBase ≤ a) && decide (a < fbufBase + p.maxFrames)) ||
  (decide (obufBase ≤ a) && decide (a < obufBase + p.maxFrames)) ||
  (decide (oscBase ≤ a) && decide (a < oscBase + 11 * oscStride) && decide ((a - oscBase) % oscStride < p.maxOsc))

/-- Nothing is stored at an unmapped address (R65). -/
abbrev State.InMap (s : State) : Prop := ∀ c ∈ s.mem.cells, MappedWord s.params c.1 = true

/-- The size invariant (R39). -/
abbrev State.Sized (s : State) : Prop :=
  s.nlive ≤ s.active ∧ s.active ≤ s.cap ∧ s.cap ≤ s.capMax ∧ s.capMax ≤ s.params.maxOsc ∧
    s.active % s.params.w = 0 ∧ s.cap % s.params.w = 0 ∧ s.capMax % s.params.w = 0 ∧
    s.params.maxOsc % s.params.w = 0

/-- The padding invariant (R38). -/
def State.Padded (s : State) : Prop :=
  ∀ (f : Field) (i : Nat), s.nlive ≤ i → i < s.params.maxOsc → s.mem.osc f i = 0

/-- The invariant of the machine: legal parameters (R5), memory in its canonical form and only at mapped
addresses, the size invariant (R39) and the padding invariant (R38). -/
structure State.Inv (s : State) : Prop where
  legal : s.params.legal
  canonical : s.mem.wf
  inMap : s.InMap
  sized : s.Sized
  padded : s.Padded

/-! ## Frames -/

/-- `m'` reads as `m` at every address outside `written`. -/
def Memory.SameOutside (m' m : Memory) (written : Nat → Prop) : Prop :=
  m'.epoch = m.epoch ∧ ∀ a, ¬ written a → m'.read a = m.read a

/-- The address is a word of one of the fields `fs` of a slot below `n`. -/
def SlotWord (fs : List Field) (n a : Nat) : Prop := ∃ f ∈ fs, ∃ i, i < n ∧ a = oscAddr f i

/-- The address is `OBUF[k]` for some `k < n`. -/
def OutputWord (n a : Nat) : Prop := ∃ k, k < n ∧ a = obufBase + k

/-! ## Slots as lists -/

/-- The eleven words of slot `i`. -/
def Memory.slot (m : Memory) (i : Nat) : List Word := Field.all.map (fun f => m.osc f i)

/-- How command `i` may change `NLIVE` from `s` to `t`: `ALLOC` raises it by one, `SHRM` and `SHRD` lower it, `RESET`
makes it 0 (R26). -/
def State.LiveCountChange (s t : State) (i : Instr) : Prop :=
  (i = .alloc ∧ t.nlive = s.nlive + 1) ∨ ((i = .shrm ∨ i = .shrd) ∧ t.nlive < s.nlive) ∨ (i = .reset ∧ t.nlive = 0)

/-- The live slots in order. -/
def State.slots (s : State) : List (List Word) := (List.range s.nlive).map s.mem.slot

/-! ## RENDER slot by slot

R125: each slot is one independent recursion, and the only coupling is the sum of outputs and the shared forcing
sample. So a slot's course can be followed by itself, from the state before the command. -/

/-- `(C1, Y1, Y2)` of one slot. -/
structure Course where
  c1 : Word
  y1 : Word
  y2 : Word
deriving DecidableEq, Repr

/-- The output of slot `i` in frame `k` when it stands at `x` (R128). -/
def State.outputFrom (s : State) (forcing : Bool) (i k : Nat) (x : Course) : Word :=
  let y0 := fsub (fmul x.c1 x.y1) (fmul (s.mem.osc .c2 i) x.y2)
  if forcing then fadd y0 (fmul (s.mem.osc .gain i) (s.mem.fbuf k)) else y0

/-- Where slot `i` stands before frame `k` (R127 to R129). -/
def State.course (s : State) (chirp forcing : Bool) (i : Nat) : Nat → Course
  | 0 => { c1 := s.mem.osc .c1 i, y1 := s.mem.osc .y1 i, y2 := s.mem.osc .y2 i }
  | k + 1 =>
    let x := State.course s chirp forcing i k
    { c1 := if chirp then fmaxc (fmul x.c1 (s.mem.osc .cmul i)) (s.mem.osc .clim i) else x.c1
      y1 := s.outputFrom forcing i k x
      y2 := x.y1 }

/-- The output of slot `i` in frame `k`. -/
def State.slotSample (s : State) (chirp forcing : Bool) (k i : Nat) : Word :=
  s.outputFrom forcing i k (s.course chirp forcing i k)

/-- The accumulator of lane `l` after frame `k`: from `+0.0`, the outputs of the live slots of the lane in
ascending order (R126, R127). -/
def State.laneTotal (s : State) (chirp forcing : Bool) (k l : Nat) : Word :=
  ((List.range s.nlive).filter (fun i => i % s.params.w = l)).foldl
    (fun acc i => fadd acc (s.slotSample chirp forcing k i)) 0

/-- The horizontal sum of frame `k`, lanes 0 to `W-1` from the left (R127). -/
def State.frameSum (s : State) (chirp forcing : Bool) (k : Nat) : Word :=
  ((List.range (s.params.w - 1)).map (· + 1)).foldl
    (fun acc l => fadd acc (s.laneTotal chirp forcing k l)) (s.laneTotal chirp forcing k 0)

/-- The output word of frame `k` before it is written: shaped by table `t` if there is an envelope (R130). -/
def State.frameOutput (s : State) (chirp forcing : Bool) (envelope : Option Nat) (k : Nat) : Word :=
  match envelope with
  | none => s.frameSum chirp forcing k
  | some t =>
    if s.sidx.toNat + k < (s.lut t).len.toNat then
      fmul (s.frameSum chirp forcing k) (s.mem.lmem ((s.lut t).base.toNat + s.sidx.toNat + k))
    else s.frameSum chirp forcing k

/-- What a successful `RENDER` of `n` frames leaves (R127 to R131): every live slot has run its own course, `OBUF[k]`
holds the frame's output (added to what was there with `A`), `SIDX` has advanced by `n`, saturating, and nothing
else has changed. -/
def State.Rendered (s t : State) (chirp forcing additive : Bool) (envelope : Option Nat) (n : Nat) : Prop :=
  (∀ i, i < s.nlive →
    t.mem.osc .c1 i = (s.course chirp forcing i n).c1 ∧
    t.mem.osc .y1 i = (s.course chirp forcing i n).y1 ∧
    t.mem.osc .y2 i = (s.course chirp forcing i n).y2) ∧
  (∀ k, k < n → t.mem.obuf k =
    if additive then fadd (s.mem.obuf k) (s.frameOutput chirp forcing envelope k)
    else s.frameOutput chirp forcing envelope k) ∧
  t = { s with mem := t.mem, sidx := BitVec.ofNat 32 (min (s.sidx.toNat + n) (2 ^ 32 - 1)) } ∧
  t.mem.SameOutside s.mem (fun a =>
    SlotWord (if chirp then [.c1, .y1, .y2] else [.y1, .y2]) s.nlive a ∨ OutputWord n a)

/-! ## Values and words -/

/-- The value of a word that is no NaN in units of 2^-149, with `2^277`, above every finite magnitude, for the
infinity (R105). -/
def fExt (a : Word) : Int := if isInf a then (if fSign a then -(2 ^ 277) else 2 ^ 277) else fVal a

/-- `r` is the binary32 rounding of the exact quotient `num / den` (in units of 2^-149, `den > 0`) to nearest, ties
to even (R106): finite below the overflow bound, and then no finite word is closer and an equally close one of
another value means that `r` is even; else the infinity with the sign of `num` (R117). -/
def RoundsTo (r : Word) (num : Int) (den : Nat) : Prop :=
  if num.natAbs < (2 ^ 25 - 1) * 2 ^ 252 * den then
    isFinite r = true ∧
    ∀ c, isFinite c = true →
      (fVal r * den - num).natAbs ≤ (fVal c * den - num).natAbs ∧
      ((fVal r * den - num).natAbs = (fVal c * den - num).natAbs → fVal c ≠ fVal r → r.toNat % 2 = 0)
  else r = fPack (decide (num < 0)) infLow

/-- A quiet NaN: bit 22 set (R108). -/
def isQuietNaN (a : Word) : Bool := isNaN a && slice a 22 22 == 1

/-- Two words that are both zeros of the value 0. -/
def isZero (a : Word) : Bool := isFinite a && fMag a == 0

/-- The infinity of this sign (R105). -/
def signedInf (neg : Bool) : Word := if neg then 0xFF800000 else 0x7F800000

/-- The zero of this sign (R105). -/
def signedZero (neg : Bool) : Word := if neg then 0x80000000 else 0x00000000

/-- The rows of spec/opcode_table.json: the fixed fields (hi, lo, value) of each. -/
def opcodeRows : List (List (Nat × Nat × Nat)) :=
  [[(31, 0, 0x0)],
    [(31, 0, 0x1000000)],
    [(19, 16, 0x0), (31, 23, 0x20)],
    [(31, 23, 0x21)],
    [(31, 0, 0x11000000)],
    [(31, 0, 0x12000000)],
    [(31, 0, 0x13000000)],
    [(31, 0, 0x14000000)],
    [(31, 0, 0x15000000)],
    [(31, 0, 0x16000000)],
    [(31, 16, 0x1700)],
    [(15, 0, 0x0), (31, 20, 0x200)],
    [(15, 0, 0x0), (31, 20, 0x210)],
    [(31, 22, 0x88)],
    [(15, 0, 0x0), (31, 20, 0x230)]]

/-- The word has every fixed field of the row. -/
def MatchesRow (w : Word) (row : List (Nat × Nat × Nat)) : Prop := ∀ x ∈ row, slice w x.1 x.2.1 = x.2.2

/-- The row of spec/opcode_table.json a command comes from, counted from 0. -/
def Instr.row : Instr → Nat
  | .nop => 0 | .reset => 1 | .render .. => 2 | .renderEnv .. => 3 | .alloc => 4 | .shrm => 5 | .shrd => 6
  | .ddec => 7 | .cscl => 8 | .sscl => 9 | .grow _ => 10 | .lnear _ => 11 | .llin _ => 12 | .lcyc .. => 13
  | .lchk _ => 14

/-! ## Port values -/

/-- The word that reads back at an address after a host write of `v` to it: the access kinds of R21 to R44 with the
WARL functions (R61). -/
def State.writtenWord (s : State) (a : Addr) (v : Word) : Word :=
  let n := a.toNat
  if n = 0x05 then s.hostRead a &&& ~~~(v &&& 0x00001F00#32)
  else if n = 0x08 then 0
  else if n = 0x0C then BitVec.ofNat 32 (max s.cap (roundDown s.params.w (min v.toNat s.params.maxOsc)))
  else if n = 0x0D then v &&& 0x0000FFFF#32
  else if 0x0E ≤ n ∧ n ≤ 0x16 then v
  else if 0x20 ≤ n ∧ n ≤ 0x2A then v
  else if 0x100 ≤ n ∧ n < 0x100 + 4 * s.params.nLut then
    (if n % 4 < 2 then v &&& 0x0000FFFF#32 else v)
  else if 0x1000 ≤ n ∧ n < 0x1000 + s.params.lmemWords then v
  else if 0x2000 ≤ n ∧ n < 0x2000 + s.params.maxFrames then v
  else if 0x2400 ≤ n ∧ n < 0x2400 + s.params.maxFrames then v
  else if 0x4000 ≤ n ∧ n < 0x6C00 ∧ n % 0x400 < s.params.maxOsc ∧ n % 0x400 < s.nlive then v
  else s.hostRead a

/-! ## What two states share -/

/-- The state with another error record (R21 to R24: the sticky bits, `LASTERR`, `LASTCMD`, `ERRCNT`). -/
def State.withRecord (s : State) (sticky : BitVec 5) (lastErr : BitVec 8) (lastCmd errCnt : Word) : State :=
  { s with sticky := sticky, lastErr := lastErr, lastCmd := lastCmd, errCnt := errCnt }

/-- The address is a word of one of the opaque fields `RADIUS`, `FREQ`, `DECAY` (R37). -/
def OpaqueWord (a : Nat) : Prop := SlotWord [.radius, .freq, .decay] oscStride a

/-- The two states differ at most in the opaque words of their slots. -/
def State.SameButOpaque (s t : State) : Prop :=
  t = { s with mem := t.mem } ∧ t.mem.SameOutside s.mem OpaqueWord

end Sys2Proof.Machine
end

