-- ==== Sys2Proof/Certificates/Slice0/Obligations.lean ====
section
/-! DEFINITION. The statements for the provers. Each is about the machine in every state that meets its premises;
the rule of spec/ it formalises is in its docstring. -/

open Sys2Proof Sys2Proof.Machine

/-! ## Reset and whole-machine rules -/

/-- R45, R220, R221, with the default parameters (log entry 4): right after hardware reset `ID`, `PARAM0` and
`PARAM1` read their constants and every other address outside `LMEM`, `FBUF` and `OBUF` reads 0. -/
def Obligations.ResetPortReadsSpecValues : Prop :=
  ∀ a : Addr, (a.toNat < 0x1000 ∨ 0x2800 ≤ a.toNat) →
    State.reset.hostRead a =
      if a = 0x0000 then 0x4D4F4231 else if a = 0x0001 then 0x01000804 else if a = 0x0002 then 0x10000400 else 0

/-- R221: the padding invariant and the size invariant hold after reset, and with them the model's own parts of
the invariant (canonical memory, log entry 1). -/
def Obligations.ResetSatisfiesInvariant : Prop := State.reset.Inv

/-- R38, R39, R65: every transaction and every command keeps the size invariant, the padding invariant, and the
memory in its canonical form and at mapped addresses only (log entry 1). -/
def Obligations.StepKeepsInvariant : Prop :=
  ∀ s t : State, s.Inv → Machine.step s = .next t → t.Inv

/-- R10, R195, R210: the unit has no trap and no stuck state, so every step of every state has a next state; with no
transaction from the host it is idle and keeps all its state; and the parameters of R5 are fixed for the machine (R9). -/
def Obligations.EveryStepHasANextState : Prop :=
  ∀ s : State, ∃ t, Machine.step s = .next t ∧ t.params = s.params ∧ (s.pending = [] → t = s)

/-- R20, R63: when the host's next transaction is a write to `CMD` of a word that decodes to `i`, the step is `exec`
of `i` in the state with that transaction taken from the host's sequence, and `i` is well-formed. -/
def Obligations.StepRunsDecodedCommand : Prop :=
  ∀ (s : State) (w : Word) (i : Instr) (rest : List Transaction),
    s.pending = .write cmdAddr w :: rest → decode w = .ok i →
      WellFormed i = true ∧ Machine.step s = Machine.exec i { s with pending := rest }

/-- R89, R196, R202: a reserved word makes the error record of `BADOP` (sticky bit 8, code 1, the word itself, the
saturating count) and changes nothing else. -/
def Obligations.ReservedWordOnlyRecordsBadop : Prop :=
  ∀ (s : State) (w : Word) (r : Reserved) (rest : List Transaction),
    s.pending = .write cmdAddr w :: rest → decode w = .error r →
      Machine.step s = .next
        { s with
          pending := rest
          sticky := s.sticky ||| 0x01#5
          lastErr := 1
          lastCmd := w
          errCnt := if s.errCnt = 0xFFFFFFFF then 0xFFFFFFFF else s.errCnt + 1 }

/-- R62, R68: a host read returns its value to the host and changes no state of the unit. -/
def Obligations.HostReadChangesNoState : Prop :=
  ∀ (s : State) (a : Addr) (rest : List Transaction),
    s.pending = .read a :: rest →
      Machine.step s = .next { s with pending := rest, reads := s.reads ++ [s.hostRead a] }

/-- R220, R222, R223: hardware reset, whenever it comes, puts every register, descriptor and slot word at its
reset value and leaves no word of `LMEM`, `FBUF`, `OBUF` specified: none is listed, and the free contents are those of a
new epoch (log entry 2). -/
def Obligations.HardResetGivesResetState : Prop :=
  ∀ (s : State) (rest : List Transaction),
    s.pending = .hardReset :: rest →
      Machine.step s = .next
        { State.reset with
          params := s.params
          mem := { epoch := s.mem.epoch + 1, cells := [] }
          pending := rest
          reads := s.reads }

/-! ## Host port -/

/-- R62: the whole read table, clause by clause (the parameters legal, so that the windows of R64 do not overlap). -/
def Obligations.HostReadFollowsTheMap : Prop :=
  ∀ (s : State) (a : Addr), s.params.legal →
    (a.toNat = 0x00 → s.hostRead a = 0x4D4F4231) ∧
    (a.toNat = 0x01 →
      (slice (s.hostRead a) 7 0 = s.params.w ∧ slice (s.hostRead a) 15 8 = s.params.nLut ∧
        slice (s.hostRead a) 31 16 = s.params.maxOsc)) ∧
    (a.toNat = 0x02 →
      (slice (s.hostRead a) 15 0 = s.params.maxFrames ∧ slice (s.hostRead a) 31 16 = s.params.lmemWords)) ∧
    (a.toNat = 0x04 → s.hostRead a = 0) ∧
    (a.toNat = 0x05 →
      (slice (s.hostRead a) 0 0 = (if 0 < s.nlive then 1 else 0) ∧ slice (s.hostRead a) 7 1 = 0 ∧
        slice (s.hostRead a) 12 8 = s.sticky.toNat ∧ slice (s.hostRead a) 31 13 = 0)) ∧
    (a.toNat = 0x06 → (s.hostRead a).toNat = s.lastErr.toNat) ∧
    (a.toNat = 0x07 → s.hostRead a = s.lastCmd) ∧
    (a.toNat = 0x08 → s.hostRead a = s.errCnt) ∧
    (a.toNat = 0x09 → s.hostRead a = BitVec.ofNat 32 s.nlive) ∧
    (a.toNat = 0x0A → s.hostRead a = BitVec.ofNat 32 (roundUp s.params.w s.nlive)) ∧
    (a.toNat = 0x0B → s.hostRead a = BitVec.ofNat 32 s.cap) ∧
    (a.toNat = 0x0C → s.hostRead a = BitVec.ofNat 32 s.capMax) ∧
    (a.toNat = 0x0D → (s.hostRead a).toNat = s.growStep.toNat) ∧
    (a.toNat = 0x0E → s.hostRead a = s.sidx) ∧
    (a.toNat = 0x0F → s.hostRead a = s.thr) ∧
    (a.toNat = 0x10 → s.hostRead a = s.dt) ∧
    (a.toNat = 0x11 → s.hostRead a = s.kc1) ∧
    (a.toNat = 0x12 → s.hostRead a = s.kc2) ∧
    (a.toNat = 0x13 → s.hostRead a = s.ks) ∧
    (a.toNat = 0x14 → s.hostRead a = s.xin) ∧
    (a.toNat = 0x15 → s.hostRead a = s.xinc) ∧
    (a.toNat = 0x16 → s.hostRead a = s.xend) ∧
    (a.toNat = 0x17 → s.hostRead a = s.res) ∧
    (∀ f : Field, a.toNat = 0x20 + f.index → s.hostRead a = s.staged f) ∧
    (∀ t, t < s.params.nLut →
      (a.toNat = 0x100 + 4 * t → (s.hostRead a).toNat = (s.lut t).base.toNat) ∧
      (a.toNat = 0x100 + 4 * t + 1 → (s.hostRead a).toNat = (s.lut t).len.toNat) ∧
      (a.toNat = 0x100 + 4 * t + 2 → s.hostRead a = (s.lut t).minX) ∧
      (a.toNat = 0x100 + 4 * t + 3 → s.hostRead a = (s.lut t).dx)) ∧
    (∀ j, j < s.params.lmemWords → a.toNat = 0x1000 + j → s.hostRead a = s.mem.lmem j) ∧
    (∀ k, k < s.params.maxFrames → a.toNat = 0x2000 + k → s.hostRead a = s.mem.fbuf k) ∧
    (∀ k, k < s.params.maxFrames → a.toNat = 0x2400 + k → s.hostRead a = s.mem.obuf k) ∧
    (∀ (f : Field) (i : Nat), i < s.params.maxOsc → a.toNat = 0x4000 + f.index * 0x400 + i →
      s.hostRead a = s.mem.osc f i)

/-- R65: the holes of R64, the unused tails of its regions and the reserved slot fields read 0, and a write to one
changes nothing. -/
def Obligations.UnmappedAddressesAreInert : Prop :=
  ∀ (s : State) (a : Addr) (v : Word),
    let n := a.toNat
    (n = 0x03 ∨ (0x18 ≤ n ∧ n < 0x20) ∨ (0x2B ≤ n ∧ n < 0x100) ∨ (0x100 + 4 * s.params.nLut ≤ n ∧ n < 0x1000) ∨
      (0x1000 + s.params.lmemWords ≤ n ∧ n < 0x2000) ∨ (0x2000 + s.params.maxFrames ≤ n ∧ n < 0x2400) ∨
      (0x2400 + s.params.maxFrames ≤ n ∧ n < 0x4000) ∨ 0x6C00 ≤ n ∨
      (0x4000 ≤ n ∧ n < 0x6C00 ∧ s.params.maxOsc ≤ n % 0x400)) →
    s.params.legal → s.hostRead a = 0 ∧ s.hostWrite a v = .next s

/-- R61, R62, R21, R24, R27, R29, R40, R69: what a host write other than to `CMD` does, read back through the port: the
written address takes the value its access kind says, a write to `ERRCNT` also clears `LASTERR` and `LASTCMD`, and
EVERY OTHER ADDRESS reads as before. -/
def Obligations.HostWriteReadsBackAndFrames : Prop :=
  ∀ (s : State) (a : Addr) (v : Word), s.Inv → a ≠ cmdAddr →
    ∃ t, s.hostWrite a v = .next t ∧
      (∀ b : Addr, t.hostRead b =
        if b = a then s.writtenWord a v
        else if a = 0x0008 ∧ (b = 0x0006 ∨ b = 0x0007) then 0
        else s.hostRead b) ∧
      t.params = s.params ∧ t.pending = s.pending ∧ t.reads = s.reads ∧ t.mem.epoch = s.mem.epoch

/-! ## Encoding -/

/-- R88, R91: decoding the encoding of a well-formed command gives the command, with every operand. -/
def Obligations.DecodeOfEncodeIsTheCommand : Prop :=
  ∀ i : Instr, WellFormed i = true → decode (encode i) = .ok i

/-- R87, R88: each word has one meaning: a word that decodes to a command is that command's encoding, and the command
is well-formed. -/
def Obligations.EncodeOfDecodeIsTheWord : Prop :=
  ∀ (w : Word) (i : Instr), decode w = .ok i → WellFormed i = true ∧ encode i = w

/-- R88, R89: a word is accepted if and only if it has the fixed fields of a row of the opcode table, and it then
decodes to that row's command. -/
def Obligations.DecoderAcceptsExactlyTheTable : Prop :=
  ∀ w : Word,
    (∀ i, decode w = .ok i → ∃ row, opcodeRows[(Instr.row i)]? = some row ∧ MatchesRow w row) ∧
    (∀ k row, opcodeRows[k]? = some row → MatchesRow w row → ∃ i, decode w = .ok i ∧ Instr.row i = k)

/-- The words of R92's examples decode to the commands they stand for. -/
def Obligations.ExampleWordsDecode : Prop :=
  decode 0x00000000 = .ok .nop ∧ decode 0x10000008 = .ok (.render false false false 8) ∧
  decode 0x103001E0 = .ok (.render false true true 480) ∧
  decode 0x10820040 = .ok (.renderEnv false false false 2 64) ∧
  decode 0x22010004 = .ok (.lcyc false false 1 4) ∧ decode 0x22200004 = .ok (.lcyc true false 0 4) ∧
  decode 0x21030000 = .ok (.llin 3) ∧ decode 0x17000010 = .ok (.grow 16)

/-! ## Control -/

/-- R185: `NOP` changes no state. -/
def Obligations.NopChangesNothing : Prop :=
  ∀ s : State, Machine.exec .nop s = .next s

/-- R186, R187: `RESET` leaves every word of every slot zero, `NLIVE = 0` and `SIDX = 0`, and keeps everything
else: every other register, the tables, the buffers and the error record. -/
def Obligations.ResetCommandSilencesTheBank : Prop :=
  ∀ s : State, s.Inv →
    ∃ t, Machine.exec .reset s = .next t ∧
      t = { s with nlive := 0, sidx := 0, mem := t.mem } ∧
      (∀ (f : Field) (i : Nat), i < s.params.maxOsc → t.mem.osc f i = 0) ∧
      t.mem.SameOutside s.mem (SlotWord Field.all s.params.maxOsc)

/-! ## Oscillator bank -/

/-- R127 to R131 and R125, the row `E = 0`: for `1 ≤ n ≤ MAXFRAMES`, `RENDER` runs every live slot on its own course,
writes the frames' sums in the order of R127, and advances `SIDX`; nothing else changes. -/
def Obligations.RenderRunsEverySlotOnItsOwnCourse : Prop :=
  ∀ (s : State) (c f a : Bool) (n : Nat), s.Inv → 1 ≤ n → n ≤ s.params.maxFrames →
    ∃ t, Machine.exec (.render c f a n) s = .next t ∧ s.Rendered t c f a none n

/-- R127 to R131, the row `E = 1`: the same with each frame's sum shaped by table `t`, which needs only
`storage_ok(t)` (R41, R130). -/
def Obligations.RenderWithEnvelopeShapesTheSum : Prop :=
  ∀ (s : State) (c f a : Bool) (t n : Nat), s.Inv → 1 ≤ n → n ≤ s.params.maxFrames → s.storageOk t = true →
    ∃ r, Machine.exec (.renderEnv c f a t n) s = .next r ∧ s.Rendered r c f a (some t) n

/-- R128 case (a): an empty bank renders exact `+0.0`, and with `A` adds `+0.0`; only `OBUF[0..n-1]` and `SIDX`
change. -/
def Obligations.EmptyBankRendersZero : Prop :=
  ∀ (s : State) (c f a : Bool) (n : Nat), s.Inv → s.nlive = 0 → 1 ≤ n → n ≤ s.params.maxFrames →
    ∃ t, Machine.exec (.render c f a n) s = .next t ∧
      t = { s with mem := t.mem, sidx := t.sidx } ∧
      (∀ k, k < n → t.mem.obuf k = if a then fadd (s.mem.obuf k) 0 else 0) ∧
      t.mem.SameOutside s.mem (OutputWord n)

/-- R127, R94: without forcing, rendering a block in two parts leaves the bank and `SIDX` as rendering it in one. (That a
NaN generated twice from the same operands is the same word is the model's reading, log entry 3.) -/
def Obligations.SplitRenderReachesTheSameBank : Prop :=
  ∀ (s : State) (c : Bool) (n m : Nat), s.Inv → 1 ≤ n → 1 ≤ m → n + m ≤ s.params.maxFrames →
    ∃ t1 t2 t, Machine.exec (.render c false false n) s = .next t1 ∧
      Machine.exec (.render c false false m) t1 = .next t2 ∧
      Machine.exec (.render c false false (n + m)) s = .next t ∧
      t2.slots = t.slots ∧ t2.sidx = t.sidx

/-- R132: `CSCL` multiplies `C1` by `KC1` and `C2` by `KC2` in every live slot, each rounded once, and changes nothing
else. -/
def Obligations.CsclScalesEveryLiveCoefficient : Prop :=
  ∀ s : State, s.Inv →
    ∃ t, Machine.exec .cscl s = .next t ∧ t = { s with mem := t.mem } ∧
      (∀ i, i < s.nlive →
        t.mem.osc .c1 i = fmul (s.mem.osc .c1 i) s.kc1 ∧ t.mem.osc .c2 i = fmul (s.mem.osc .c2 i) s.kc2) ∧
      t.mem.SameOutside s.mem (SlotWord [.c1, .c2] s.nlive)

/-- R133: `SSCL` multiplies `Y1` and `Y2` by `KS` in every live slot and changes nothing else. -/
def Obligations.SsclScalesEveryLiveState : Prop :=
  ∀ s : State, s.Inv →
    ∃ t, Machine.exec .sscl s = .next t ∧ t = { s with mem := t.mem } ∧
      (∀ i, i < s.nlive →
        t.mem.osc .y1 i = fmul (s.mem.osc .y1 i) s.ks ∧ t.mem.osc .y2 i = fmul (s.mem.osc .y2 i) s.ks) ∧
      t.mem.SameOutside s.mem (SlotWord [.y1, .y2] s.nlive)

/-- R134: `DDEC` subtracts `DT` from `DUR` in every live slot and changes nothing else. -/
def Obligations.DdecAgesEveryLiveSlot : Prop :=
  ∀ s : State, s.Inv →
    ∃ t, Machine.exec .ddec s = .next t ∧ t = { s with mem := t.mem } ∧
      (∀ i, i < s.nlive → t.mem.osc .dur i = fsub (s.mem.osc .dur i) s.dt) ∧
      t.mem.SameOutside s.mem (SlotWord [.dur] s.nlive)

/-! ## Voice pool -/

/-- R146: `GROW n` sets `CAP` to `min(roundup_W(CAP + n), CAPMAX)`, which never lowers it, and changes nothing else;
reaching the cap is silent. -/
def Obligations.GrowRaisesCapacityToTheCap : Prop :=
  ∀ (s : State) (n : Nat), s.Inv →
    Machine.exec (.grow n) s = .next { s with cap := min (roundUp s.params.w (s.cap + n)) s.capMax } ∧
      s.cap ≤ min (roundUp s.params.w (s.cap + n)) s.capMax ∧
      (n = 0 → min (roundUp s.params.w (s.cap + n)) s.capMax = s.cap)

/-- R147, R200: `ALLOC` appends the staged oscillator as slot `NLIVE` where the rounded count fits `CAP`, as it is or
grown once by `GROWSTEP`; else only `CAPPED` is set (and `CAP` keeps its growth). -/
def Obligations.AllocAppendsOrSetsCapped : Prop :=
  ∀ s : State, s.Inv →
    let need := roundUp s.params.w (s.nlive + 1)
    let cap' := if need ≤ s.cap then s.cap else min (roundUp s.params.w (s.cap + s.growStep.toNat)) s.capMax
    ∃ t, Machine.exec .alloc s = .next t ∧
      (need ≤ cap' →
        t = { s with cap := cap', nlive := s.nlive + 1, mem := t.mem } ∧
        (∀ f : Field, t.mem.osc f s.nlive = s.staged f) ∧
        t.mem.SameOutside s.mem (fun a => ∃ f : Field, a = oscAddr f s.nlive)) ∧
      (¬ need ≤ cap' → t = { s with cap := cap', sticky := s.sticky ||| 0x10#5 })

/-- R147 case (a): with `GROWSTEP ≥ 1` one growth step always suffices unless `CAPMAX` stops it, so `ALLOC` then appends
and does not touch `STATUS`. -/
def Obligations.OneGrowthStepSufficesForAlloc : Prop :=
  ∀ s : State, s.Inv → 1 ≤ s.growStep.toNat → roundUp s.params.w (s.nlive + 1) ≤ s.capMax →
    ∃ t, Machine.exec .alloc s = .next t ∧ t.nlive = s.nlive + 1 ∧ t.sticky = s.sticky

/-- R149: `SHRM` keeps the slots up to the highest-indexed one whose `|Y1| + |Y2|` is strictly greater than `THR` (none
if there is none), clears the live slots above it, and changes nothing else. -/
def Obligations.ShrmTrimsExactlyTheQuietTail : Prop :=
  ∀ s : State, s.Inv →
    ∃ t, Machine.exec .shrm s = .next t ∧ t = { s with nlive := t.nlive, mem := t.mem } ∧
      t.nlive ≤ s.nlive ∧
      (t.nlive ≠ 0 →
        fgt (fadd (fabs (s.mem.osc .y1 (t.nlive - 1))) (fabs (s.mem.osc .y2 (t.nlive - 1)))) s.thr = true) ∧
      (∀ i, t.nlive ≤ i → i < s.nlive →
        fgt (fadd (fabs (s.mem.osc .y1 i)) (fabs (s.mem.osc .y2 i))) s.thr = false ∧
        ∀ f : Field, t.mem.osc f i = 0) ∧
      t.mem.SameOutside s.mem (fun a => ∃ (f : Field) (i : Nat), t.nlive ≤ i ∧ i < s.nlive ∧ a = oscAddr f i)

/-- R151, R152 (a), (b), (h): `SHRD` keeps exactly the slots whose duration is greater than zero, every survivor with
all eleven fields bit for bit. Those below the new `NLIVE` stay at their index, and the holes among these, in ascending
order, take the survivors from above it in descending order: the order the pseudocode's moves give (D8, U4). The slots
above them are zero; every other register, and every word outside the live slots, is unchanged. -/
def Obligations.ShrdKeepsExactlyTheLiving : Prop :=
  ∀ s : State, s.Inv →
    ∃ t, Machine.exec .shrd s = .next t ∧ t = { s with nlive := t.nlive, mem := t.mem } ∧
      t.slots.Perm (((List.range s.nlive).filter (fun i => fgt (s.mem.osc .dur i) 0)).map s.mem.slot) ∧
      (∀ i, i < t.nlive → fgt (s.mem.osc .dur i) 0 = true → t.mem.slot i = s.mem.slot i) ∧
      ((List.range t.nlive).filter (fun i => !fgt (s.mem.osc .dur i) 0)).map t.mem.slot =
        ((List.range s.nlive).filter
          (fun i => decide (t.nlive ≤ i) && fgt (s.mem.osc .dur i) 0)).reverse.map s.mem.slot ∧
      (∀ (f : Field) (i : Nat), t.nlive ≤ i → i < s.nlive → t.mem.osc f i = 0) ∧
      t.mem.SameOutside s.mem (SlotWord Field.all s.nlive)

/-! ## Lookup tables -/

/-- R167 and R166: with `curve_ok(t)`, `LNEAR` copies to `RES` the first sample, the last one, or the nearer neighbour
of the position, half-way going up; without it, it is `fail(4)`. -/
def Obligations.LnearCopiesTheNearestSample : Prop :=
  ∀ (s : State) (t : Nat),
    let d := s.lut t
    let p := fdiv (fsub s.xin d.minX) d.dx
    let fr := fsub p (i2f (floorZ p))
    let smp := fun j => s.mem.lmem (d.base.toNat + j)
    let v :=
      if fgt p 0 = false then smp 0
      else if fge p (i2f ((d.len.toNat : Int) - 1)) = true then smp (d.len.toNat - 1)
      else if fge fr 0x3F000000 = true then smp ((floorZ p).toNat + 1)
      else smp (floorZ p).toNat
    (s.curveOk t = true → Machine.exec (.lnear t) s = .next { s with res := v }) ∧
    (s.curveOk t = false → Machine.exec (.lnear t) s = .next (s.fail .badLut (encode (.lnear t))))

/-- R167: the result of `LNEAR` is always a stored sample of its own table (`0 ≤ i ≤ N-2` in its last branch). -/
def Obligations.LnearStaysInsideItsTable : Prop :=
  ∀ (s : State) (t : Nat), s.curveOk t = true →
    ∃ r, Machine.exec (.lnear t) s = .next r ∧
      ∃ j, j < (s.lut t).len.toNat ∧ r.res = s.mem.lmem ((s.lut t).base.toNat + j)

/-- R168 and R166: with `curve_ok(t)`, `LLIN` gives the clamped first or last sample or `a + fr·(b − a)` with three
roundings; without it, it is `fail(4)`. -/
def Obligations.LlinInterpolatesBetweenNeighbours : Prop :=
  ∀ (s : State) (t : Nat),
    let d := s.lut t
    let p := fdiv (fsub s.xin d.minX) d.dx
    let fr := fsub p (i2f (floorZ p))
    let smp := fun j => s.mem.lmem (d.base.toNat + j)
    let i := (floorZ p).toNat
    let v :=
      if fgt p 0 = false then smp 0
      else if fge p (i2f ((d.len.toNat : Int) - 1)) = true then smp (d.len.toNat - 1)
      else fadd (smp i) (fmul fr (fsub (smp (i + 1)) (smp i)))
    (s.curveOk t = true → Machine.exec (.llin t) s = .next { s with res := v }) ∧
    (s.curveOk t = false → Machine.exec (.llin t) s = .next (s.fail .badLut (encode (.llin t))))

/-- R171 (a), (b): a table of one sample gives that sample whatever the abscissa. -/
def Obligations.SingleSampleTableIsConstant : Prop :=
  ∀ (s : State) (t : Nat), s.curveOk t = true → (s.lut t).len = 1 →
    Machine.exec (.lnear t) s = .next { s with res := s.mem.lmem (s.lut t).base.toNat } ∧
    Machine.exec (.llin t) s = .next { s with res := s.mem.lmem (s.lut t).base.toNat }

/-- R169: with `1 ≤ n ≤ MAXFRAMES`, `curve_ok(t)` and a period `M ≥ 1`, `LCYC` writes to `OBUF[0..n-1]` the table
sampled cyclically at `XIN + k·XINC` and changes nothing else. -/
def Obligations.LcycFillsTheOutputBuffer : Prop :=
  ∀ (s : State) (k a : Bool) (t n : Nat), s.Inv → 1 ≤ n → n ≤ s.params.maxFrames → s.curveOk t = true →
    let d := s.lut t
    let period := if k then d.len.toNat else d.len.toNat - 1
    let smp := fun j => s.mem.lmem (d.base.toNat + j)
    let p := fun j : Nat => fdiv (fsub (fadd s.xin (fmul (i2f j) s.xinc)) d.minX) d.dx
    let fr := fun j => fsub (p j) (i2f (floorZ (p j)))
    let i0 := fun j => (floorZ (p j) % (period : Int)).toNat
    let i1 := fun j => ((floorZ (p j) + 1) % (period : Int)).toNat
    let v := fun j => if isFinite (p j) = true then
        fadd (smp (i0 j)) (fmul (fr j) (fsub (smp (i1 j)) (smp (i0 j)))) else smp 0
    1 ≤ period →
    ∃ r, Machine.exec (.lcyc k a t n) s = .next r ∧ r = { s with mem := r.mem } ∧
      (∀ j, j < n → r.mem.obuf j = if a then fadd (s.mem.obuf j) (v j) else v j) ∧
      r.mem.SameOutside s.mem (OutputWord n)

/-- R169, R172 (g): without `K` the last sample of the table is never read: changing it changes no output word. (Two runs
are compared; that the same operands generate the same NaN is the model's reading, log entry 3.) -/
def Obligations.LcycWithoutKNeverReadsTheLastSample : Prop :=
  ∀ (s : State) (a : Bool) (t n : Nat) (v : Word), s.Inv → 1 ≤ n → n ≤ s.params.maxFrames → s.curveOk t = true →
    2 ≤ (s.lut t).len.toNat →
    let last := lmemBase + (s.lut t).base.toNat + (s.lut t).len.toNat - 1
    ∃ r1 r2, Machine.exec (.lcyc false a t n) s = .next r1 ∧
      Machine.exec (.lcyc false a t n) (s.setMem (s.mem.write last v)) = .next r2 ∧
      ∀ j, j < n → r1.mem.obuf j = r2.mem.obuf j

/-- R170: with `curve_ok(t)`, `LCHK` gives the integer 1 or 0 for equality with the table's domain; without it, it is
`fail(4)`. -/
def Obligations.LchkTestsTheDomain : Prop :=
  ∀ (s : State) (t : Nat),
    let d := s.lut t
    let maxx := fadd d.minX (fmul d.dx (i2f ((d.len.toNat : Int) - 1)))
    let v : Word := if feq s.xin d.minX = true ∧ feq s.xend maxx = true then 0x00000001 else 0x00000000
    (s.curveOk t = true → Machine.exec (.lchk t) s = .next { s with res := v }) ∧
    (s.curveOk t = false → Machine.exec (.lchk t) s = .next (s.fail .badLut (encode (.lchk t))))

/-- R166: with `curve_ok(t)` the position is a NaN exactly when the abscissa is a NaN. -/
def Obligations.PositionIsNaNOnlyForNaN : Prop :=
  ∀ (s : State) (t : Nat) (x : Word), s.curveOk t = true →
    isNaN (fdiv (fsub x (s.lut t).minX) (s.lut t).dx) = isNaN x

/-! ## Errors -/

/-- R196, R197: `fail(code)` sets the code's sticky bit (bit `7 + code` of `STATUS`, keeping the others), records the
code and the word, counts up to saturation, and changes nothing else. -/
def Obligations.FailChangesOnlyTheErrorRecord : Prop :=
  ∀ (s : State) (c : ErrCode) (w : Word),
    let t := s.fail c w
    t = { s with sticky := t.sticky, lastErr := t.lastErr, lastCmd := w, errCnt := t.errCnt } ∧
    (∀ b, b < 5 → t.sticky.getLsbD b = (s.sticky.getLsbD b || decide (b + 1 = c.number))) ∧
    t.lastErr.toNat = c.number ∧ t.errCnt.toNat = min (s.errCnt.toNat + 1) (2 ^ 32 - 1)

/-- R198, R199, for `RENDER` and `LCYC`: `ZEROLEN` before `BADLEN` before `BADLUT`, each with no effect but the error
record. -/
def Obligations.CountErrorsOutrankTableErrors : Prop :=
  ∀ (s : State) (c f a : Bool) (t n : Nat),
    (n = 0 →
      Machine.exec (.render c f a n) s = .next (s.fail .zeroLen (encode (.render c f a n))) ∧
      Machine.exec (.renderEnv c f a t n) s = .next (s.fail .zeroLen (encode (.renderEnv c f a t n))) ∧
      Machine.exec (.lcyc f a t n) s = .next (s.fail .zeroLen (encode (.lcyc f a t n)))) ∧
    (n ≠ 0 → s.params.maxFrames < n →
      Machine.exec (.render c f a n) s = .next (s.fail .badLen (encode (.render c f a n))) ∧
      Machine.exec (.renderEnv c f a t n) s = .next (s.fail .badLen (encode (.renderEnv c f a t n))) ∧
      Machine.exec (.lcyc f a t n) s = .next (s.fail .badLen (encode (.lcyc f a t n)))) ∧
    (n ≠ 0 → n ≤ s.params.maxFrames →
      (s.storageOk t = false →
        Machine.exec (.renderEnv c f a t n) s = .next (s.fail .badLut (encode (.renderEnv c f a t n)))) ∧
      ((s.curveOk t = false ∨ ((s.lut t).len.toNat = 1 ∧ f = false)) →
        Machine.exec (.lcyc f a t n) s = .next (s.fail .badLut (encode (.lcyc f a t n)))))

/-- R41: the three predicates on a descriptor. -/
def Obligations.DescriptorValidity : Prop :=
  ∀ (s : State) (t : Nat),
    (s.storageOk t = true ↔
      t < s.params.nLut ∧ 1 ≤ (s.lut t).len.toNat ∧
        (s.lut t).base.toNat + (s.lut t).len.toNat ≤ s.params.lmemWords) ∧
    (s.axisOk t = true ↔
      isFinite (s.lut t).minX = true ∧ isFinite (s.lut t).dx = true ∧ 0 < fVal (s.lut t).dx) ∧
    (s.curveOk t = true ↔ s.storageOk t = true ∧ s.axisOk t = true)

/-- R198, second row: these commands always succeed; none of them touches `LASTERR`, `LASTCMD`, `ERRCNT` or an error
bit of `STATUS`. -/
def Obligations.PoolAndBankCommandsNeverFail : Prop :=
  ∀ (s : State) (i : Instr),
    (i = .nop ∨ i = .reset ∨ i = .alloc ∨ i = .shrm ∨ i = .shrd ∨ i = .ddec ∨ i = .cscl ∨ i = .sscl ∨
      ∃ n, i = .grow n) →
    ∃ t, Machine.exec i s = .next t ∧ t.lastErr = s.lastErr ∧ t.lastCmd = s.lastCmd ∧ t.errCnt = s.errCnt ∧
      ∀ b, b < 4 → t.sticky.getLsbD b = s.sticky.getLsbD b

/-- R203: no command reads the error record: with another record in the same state, everything else ends the same.
(Two runs are compared; that the same operands generate the same NaN is the model's reading, log entry 3.) -/
def Obligations.CommandsNeverReadTheErrorRecord : Prop :=
  ∀ (s : State) (i : Instr) (b : BitVec 5) (e : BitVec 8) (w n : Word),
    ∃ t1 t2, Machine.exec i s = .next t1 ∧ Machine.exec i (s.withRecord b e w n) = .next t2 ∧
      t1.withRecord 0 0 0 0 = t2.withRecord 0 0 0 0

/-! ## Whole-machine rules -/

/-- R26, R153: `NLIVE` is raised only by `ALLOC`, by one, and lowered only by `SHRM`, `SHRD` and `RESET` (to 0). So a
command does, and so does a step: unless its transaction is the write to `CMD` of such a command, `NLIVE` stays (a read,
any other write, a reserved word, no transaction); the exception is hardware reset, which leaves it 0 (R221). -/
def Obligations.OnlyPoolCommandsChangeTheLiveCount : Prop :=
  (∀ (s t : State) (i : Instr), Machine.exec i s = .next t → t.nlive = s.nlive ∨ s.LiveCountChange t i) ∧
  (∀ s t : State, Machine.step s = .next t → s.pending.head? ≠ some .hardReset →
    t.nlive = s.nlive ∨
      ∃ (w : Word) (i : Instr), s.pending.head? = some (.write cmdAddr w) ∧ decode w = .ok i ∧
        s.LiveCountChange t i) ∧
  (∀ s t : State, Machine.step s = .next t → s.pending.head? = some .hardReset → t.nlive = 0)

/-- R28: `CAP` only grows, by `GROW` and `ALLOC`: no transaction but hardware reset lowers it, and one that changes it
is the write to `CMD` of a `GROW` or an `ALLOC`. -/
def Obligations.CapacityOnlyGrows : Prop :=
  ∀ s t : State, s.Inv → s.pending.head? ≠ some .hardReset → Machine.step s = .next t →
    s.cap ≤ t.cap ∧
    (t.cap ≠ s.cap →
      ∃ (w : Word) (i : Instr), s.pending.head? = some (.write cmdAddr w) ∧ decode w = .ok i ∧
        (i = .alloc ∨ ∃ n, i = .grow n))

/-- R70, R75, R228: no command writes a table descriptor, a word of `LMEM` or `FBUF`, a staging register or an argument
register. -/
def Obligations.CommandsNeverWriteTablesOrArguments : Prop :=
  ∀ (s t : State) (i : Instr), Machine.exec i s = .next t →
    t.lutd = s.lutd ∧ t.stage = s.stage ∧ t.thr = s.thr ∧ t.dt = s.dt ∧ t.kc1 = s.kc1 ∧ t.kc2 = s.kc2 ∧
    t.ks = s.ks ∧ t.xin = s.xin ∧ t.xinc = s.xinc ∧ t.xend = s.xend ∧ t.capMax = s.capMax ∧
    t.growStep = s.growStep ∧
    (∀ j, j < 0x1000 → t.mem.lmem j = s.mem.lmem j) ∧ (∀ k, k < 0x400 → t.mem.fbuf k = s.mem.fbuf k)

/-- R37: `RADIUS`, `FREQ`, `DECAY` are opaque: two states that differ only in them end, after any command, in states that
differ only in them; no command interprets them. (Two runs are compared; that the same operands generate the same NaN
is the model's reading, log entry 3.) -/
def Obligations.OpaqueFieldsAreNeverInterpreted : Prop :=
  ∀ (s1 s2 : State) (i : Instr), s1.Inv → s2.Inv → s1.SameButOpaque s2 →
    ∃ t1 t2, Machine.exec i s1 = .next t1 ∧ Machine.exec i s2 = .next t2 ∧ t1.SameButOpaque t2

/-! ## Numerics -/

/-- R106, R107, R117: on finite operands `fadd` is the exact sum and `fsub` the exact difference, rounded once to
nearest, ties to even; on all operands `fsub` is `fadd` with the sign bit of the second operand flipped. -/
def Obligations.FaddRoundsTheExactSumOnce : Prop :=
  (∀ a b : Word, isFinite a = true → isFinite b = true →
    RoundsTo (fadd a b) (fVal a + fVal b) 1 ∧ RoundsTo (fsub a b) (fVal a - fVal b) 1) ∧
  (∀ a b : Word, fsub a b = fadd a (b ^^^ 0x80000000))

/-- R106, R107, R117: on finite operands `fmul` is the exact product, rounded once to nearest, ties to even. -/
def Obligations.FmulRoundsTheExactProductOnce : Prop :=
  ∀ a b : Word, isFinite a = true → isFinite b = true → RoundsTo (fmul a b) (fVal a * fVal b) (2 ^ 149)

/-- R106, R107, R117: on finite operands with a non-zero divisor `fdiv` is the exact quotient, rounded once to nearest,
ties to even. -/
def Obligations.FdivRoundsTheExactQuotientOnce : Prop :=
  ∀ a b : Word, isFinite a = true → isFinite b = true → fVal b ≠ 0 →
    RoundsTo (fdiv a b) (fVal a * (fVal b).sign * 2 ^ 149) (fVal b).natAbs

/-- R108: exactly which operands of `fadd`, `fsub`, `fmul`, `fdiv` give a NaN, and that it is then a quiet one. (That
`∞ / 0` is none is read from R108's list: log entry 14.) -/
def Obligations.NaNArisesExactlyFromInvalidOperations : Prop :=
  ∀ a b : Word,
    ((isNaN a = true ∨ isNaN b = true ∨ (isInf a = true ∧ isInf b = true ∧ fSign a ≠ fSign b)) ↔
      isNaN (fadd a b) = true) ∧
    ((isNaN a = true ∨ isNaN b = true ∨ (isInf a = true ∧ isInf b = true ∧ fSign a = fSign b)) ↔
      isNaN (fsub a b) = true) ∧
    ((isNaN a = true ∨ isNaN b = true ∨ (isInf a = true ∧ isZero b = true) ∨ (isZero a = true ∧ isInf b = true)) ↔
      isNaN (fmul a b) = true) ∧
    ((isNaN a = true ∨ isNaN b = true ∨ (isInf a = true ∧ isInf b = true) ∨ (isZero a = true ∧ isZero b = true)) ↔
      isNaN (fdiv a b) = true) ∧
    (∀ r ∈ [fadd a b, fsub a b, fmul a b, fdiv a b], isNaN r = true → isQuietNaN r = true)

/-- R115: signed zeros; an accumulator that starts at `+0` can never become `-0` by `fadd`; the sign of a product or
quotient that is no NaN is the exclusive-or of the operand signs. -/
def Obligations.SignedZerosFollowTheRules : Prop :=
  fadd 0x00000000 0x80000000 = 0x00000000 ∧ fadd 0x80000000 0x80000000 = 0x80000000 ∧
  fmul 0x00000000 0xBF800000 = 0x80000000 ∧
  (∀ x : Word, isFinite x = true → fsub x x = 0x00000000) ∧
  (∀ x y : Word, isFinite x = true → isFinite y = true → fVal x + fVal y = 0 → fVal x ≠ 0 →
    fadd x y = 0x00000000) ∧
  (∀ x y : Word, x ≠ 0x80000000 → fadd x y ≠ 0x80000000) ∧
  (∀ x y : Word, isNaN (fmul x y) = false → fSign (fmul x y) = (fSign x ^^ fSign y)) ∧
  (∀ x y : Word, isNaN (fdiv x y) = false → fSign (fdiv x y) = (fSign x ^^ fSign y))

/-- R110: the comparisons compare the values, with the infinities beyond every finite value, both zeros equal, and
every comparison with a NaN false. -/
def Obligations.ComparisonsCompareValues : Prop :=
  ∀ a b : Word,
    (fgt a b = true ↔ isNaN a = false ∧ isNaN b = false ∧ fExt b < fExt a) ∧
    (fge a b = true ↔ isNaN a = false ∧ isNaN b = false ∧ fExt b ≤ fExt a) ∧
    (feq a b = true ↔ isNaN a = false ∧ isNaN b = false ∧ fExt a = fExt b)

/-- R111: `fmaxc` returns `a` where `a ≥ b` and else `b`, one of its operand words unchanged, with the four stated
consequences. -/
def Obligations.FmaxcReturnsAnOperandUnchanged : Prop :=
  (∀ a b : Word, fmaxc a b = if fge a b then a else b) ∧
  (∀ a b : Word, isNaN a = true → fmaxc a b = b) ∧ (∀ a b : Word, isNaN b = true → fmaxc a b = b) ∧
  fmaxc 0x00000000 0x80000000 = 0x00000000 ∧ fmaxc 0x80000000 0x00000000 = 0x80000000

/-- R109: `fabs` clears bit 31 and leaves all other bits; it maps a NaN to a NaN with the same fraction. -/
def Obligations.FabsClearsTheSignBitOnly : Prop :=
  ∀ a : Word, fSign (fabs a) = false ∧ slice (fabs a) 30 0 = slice a 30 0 ∧
    (isNaN a = true → isNaN (fabs a) = true ∧ fFrac (fabs a) = fFrac a)

/-- R113: `floorZ` of a finite word is the greatest integer not above its value. -/
def Obligations.FloorIsTheGreatestIntegerBelow : Prop :=
  (∀ (a : Word) (k : Int), isFinite a = true → (k ≤ floorZ a ↔ k * 2 ^ 149 ≤ fVal a)) ∧
  floorZ 0x80000000 = 0 ∧ floorZ 0x00000000 = 0 ∧ floorZ 0xBE800000 = -1

/-- R114: `i2f` is exact on every integer the spec calls it on, and `i2f(0)` is `+0`. -/
def Obligations.IntegerConversionsAreExact : Prop :=
  (∀ k : Int, k.natAbs < 65536 → isFinite (i2f k) = true ∧ fVal (i2f k) = k * 2 ^ 149) ∧
  (∀ a : Word, isFinite a = true → isFinite (i2f (floorZ a)) = true ∧ fVal (i2f (floorZ a)) = floorZ a * 2 ^ 149) ∧
  i2f 0 = 0x00000000

/-- R167: at a finite position that is not negative the fraction `fsub(p, i2f(floorZ(p)))` is exact and lies in
`[0, 1)`. -/
def Obligations.FractionOfAPositionIsExact : Prop :=
  ∀ p : Word, isFinite p = true → 0 ≤ fVal p →
    let fr := fsub p (i2f (floorZ p))
    isFinite fr = true ∧ fVal fr = fVal p - floorZ p * 2 ^ 149 ∧ 0 ≤ fVal fr ∧ fVal fr < 2 ^ 149

/-- R118, R120 and the formula of R119: `roundup_W` and `rounddown_W` are the nearest multiples of `W` at or above and at or below;
`satadd32` is the sum, limited to `2^32 - 1`; `emod(i, m)` is the unique `r` with `0 ≤ r < m` and `m` dividing `i − r`. -/
def Obligations.IntegerLaws : Prop :=
  (∀ w n : Nat, 0 < w →
    w ∣ roundUp w n ∧ n ≤ roundUp w n ∧ roundUp w n < n + w ∧
    w ∣ roundDown w n ∧ roundDown w n ≤ n ∧ n < roundDown w n + w) ∧
  roundUp 4 0 = 0 ∧ roundUp 4 1 = 4 ∧ roundUp 4 4 = 4 ∧ roundUp 4 5 = 8 ∧ roundDown 4 7 = 4 ∧
  (∀ a b : Word, (satAdd32 a b.toNat).toNat = min (a.toNat + b.toNat) (2 ^ 32 - 1)) ∧
  (∀ (i : Int) (m : Nat), 1 ≤ m →
    emod i m < m ∧ (m : Int) ∣ i - emod i m ∧
    ∀ r : Nat, r < m → (m : Int) ∣ i - r → r = emod i m) ∧
  emod (-1) 4 = 3 ∧ emod 4 4 = 0 ∧ ∀ i : Int, emod i 1 = 0

/-- R106, R115, R117: the operands that the statements of the rounded sum, product and quotient shut out and that give no
NaN. An infinity outweighs every finite word in a sum and a difference; an infinity times a word that is no zero is
an infinity; a finite word over an infinity is a zero, an infinity over a finite word an infinity, and a finite word
that is no zero over a zero an infinity (R117), each with the exclusive-or of the signs. (That `∞ / 0` is an infinity
is the model's reading, log entry 14.) -/
def Obligations.InfinitiesAndZeroDivisors : Prop :=
  ∀ a b : Word,
    (isInf a = true → (isFinite b = true ∨ isInf b = true ∧ fSign b = fSign a) → fadd a b = signedInf (fSign a)) ∧
    (isFinite a = true → isInf b = true → fadd a b = signedInf (fSign b)) ∧
    (isInf a = true → (isFinite b = true ∨ isInf b = true ∧ fSign b ≠ fSign a) → fsub a b = signedInf (fSign a)) ∧
    (isFinite a = true → isInf b = true → fsub a b = signedInf (!fSign b)) ∧
    (isInf a = true → isNaN b = false → isZero b = false → fmul a b = signedInf (fSign a ^^ fSign b)) ∧
    (isNaN a = false → isZero a = false → isInf b = true → fmul a b = signedInf (fSign a ^^ fSign b)) ∧
    (isInf a = true → isFinite b = true → fdiv a b = signedInf (fSign a ^^ fSign b)) ∧
    (isFinite a = true → isInf b = true → fdiv a b = signedZero (fSign a ^^ fSign b)) ∧
    (isFinite a = true → isZero a = false → isZero b = true → fdiv a b = signedInf (fSign a ^^ fSign b))
end

