-- ==== Sys2Proof/Laws/Memory.lean ====
section
/-! SUPPORT. The laws of the word memories: read after write, the canonical form, slots, and loops over memory. -/

namespace Sys2Proof.Machine

open Sys2Proof

/-! ## Cells -/

theorem Memory.lookup_entry (a b : Nat) (v : Word) :
    (Memory.entry a v).lookup b = if b = a ∧ Memory.resetValue a ≠ some v then some v else none := by
  unfold Memory.entry
  by_cases hb : b = a
  · subst hb
    by_cases h : Memory.resetValue b = some v <;> simp [h]
  · have : (b == a) = false := by simpa using hb
    by_cases h : Memory.resetValue a = some v <;> simp [h, hb, List.lookup, this]

theorem Memory.lookup_none_of_lt (cells : List (Nat × Word)) (a : Nat) (h : ∀ c ∈ cells, a < c.1) :
    cells.lookup a = none := by
  induction cells with
  | nil => rfl
  | cons c rest ih =>
    have hc := h c (by simp)
    have : (a == c.1) = false := by simp; omega
    obtain ⟨x, y⟩ := c
    simp only [List.lookup, this]
    exact ih (fun c' hc' => h c' (by simp [hc']))

/-- Inserting at one address leaves the lookup at every other alone. -/
theorem Memory.lookup_insert_other (cells : List (Nat × Word)) (a b : Nat) (v : Word) (h : b ≠ a) :
    (Memory.insert a v cells).lookup b = cells.lookup b := by
  have he : (Memory.entry a v).lookup b = none := by simp [Memory.lookup_entry, h]
  induction cells with
  | nil => simpa [Memory.insert] using he
  | cons c rest ih =>
    obtain ⟨x, y⟩ := c
    unfold Memory.insert
    split
    · simp only [List.lookup]
      cases hbx : (b == x) <;> simp [ih]
    · split
      · rename_i h1 h2
        simp only at h2
        subst h2
        have : (b == x) = false := by simpa using h
        rw [List.lookup_append, he]
        simp [List.lookup, this]
      · rw [List.lookup_append, he]
        simp

/-- After inserting into a canonical list, the address holds what was written. -/
theorem Memory.lookup_insert_same (cells : List (Nat × Word)) (a : Nat) (v : Word)
    (h : cells.Pairwise (fun x y => x.1 < y.1)) :
    ((Memory.insert a v cells).lookup a).or (Memory.resetValue a) = some v := by
  induction cells with
  | nil =>
    simp only [Memory.insert, Memory.lookup_entry]
    by_cases hv : Memory.resetValue a = some v <;> simp [hv]
  | cons c rest ih =>
    rw [List.pairwise_cons] at h
    unfold Memory.insert
    split
    · obtain ⟨x, y⟩ := c
      have : (a == x) = false := by rename_i h1; simp at h1 ⊢; omega
      simp only [List.lookup, this]
      exact ih h.2
    · have key : ∀ tail : List (Nat × Word), (∀ c ∈ tail, a < c.1) →
          ((Memory.entry a v ++ tail).lookup a).or (Memory.resetValue a) = some v := by
        intro tail ht
        rw [List.lookup_append, Memory.lookup_entry, Memory.lookup_none_of_lt tail a ht]
        by_cases hv : Memory.resetValue a = some v <;> simp [hv]
      split
      · rename_i h1 h2
        exact key rest (fun c' hc' => by have := h.1 c' hc'; omega)
      · rename_i h1 h2
        refine key (c :: rest) (fun c' hc' => ?_)
        rcases List.mem_cons.1 hc' with rfl | h3
        · omega
        · have := h.1 c' h3; omega

/-- Every cell after an insertion is an old one or the written pair. -/
theorem Memory.mem_insert (cells : List (Nat × Word)) (a : Nat) (v : Word) (c : Nat × Word)
    (h : c ∈ Memory.insert a v cells) : c ∈ cells ∨ (c = (a, v) ∧ Memory.resetValue a ≠ some v) := by
  have he : c ∈ Memory.entry a v → c = (a, v) ∧ Memory.resetValue a ≠ some v := by
    unfold Memory.entry
    split
    · simp
    · intro hc; simp at hc; exact ⟨hc, ‹_›⟩
  induction cells with
  | nil => exact .inr (he h)
  | cons d rest ih =>
    unfold Memory.insert at h
    split at h
    · rcases List.mem_cons.1 h with rfl | h
      · simp
      · rcases ih h with h | h
        · simp [h]
        · exact .inr h
    · split at h
      · rcases List.mem_append.1 h with h | h
        · exact .inr (he h)
        · simp [h]
      · rcases List.mem_append.1 h with h | h
        · exact .inr (he h)
        · exact .inl h

/-! ## The canonical form -/

/-- A write keeps the canonical form. -/
theorem Memory.write_wf {m : Memory} (h : m.wf) (a : Nat) (v : Word) : (m.write a v).wf := by
  obtain ⟨hs, hd⟩ := h
  constructor
  · show (Memory.insert a v m.cells).Pairwise _
    clear hd
    generalize m.cells = cells at hs
    induction cells with
    | nil => unfold Memory.insert Memory.entry; split <;> simp
    | cons c rest ih =>
      rw [List.pairwise_cons] at hs
      unfold Memory.insert
      split
      · rw [List.pairwise_cons]
        refine ⟨fun c' hc' => ?_, ih hs.2⟩
        rcases Memory.mem_insert rest a v c' hc' with h | ⟨rfl, -⟩
        · exact hs.1 c' h
        · assumption
      · split
        · rename_i h1 h2
          unfold Memory.entry
          split
          · simpa using hs.2
          · simp only [List.singleton_append, List.pairwise_cons]
            exact ⟨fun c' hc' => by have := hs.1 c' hc'; omega, hs.2⟩
        · rename_i h1 h2
          have hlt : ∀ c' ∈ c :: rest, a < c'.1 := by
            intro c' hc'
            rcases List.mem_cons.1 hc' with rfl | h3
            · omega
            · have := hs.1 c' h3; omega
          unfold Memory.entry
          split
          · simpa using hs
          · simp only [List.singleton_append, List.pairwise_cons]
            exact ⟨hlt, hs⟩
  · intro c hc
    rcases Memory.mem_insert m.cells a v c hc with h | ⟨rfl, h⟩
    · exact hd c h
    · exact h

@[simp] theorem Memory.write_epoch (m : Memory) (a : Nat) (v : Word) : (m.write a v).epoch = m.epoch := rfl

/-- A memory with nothing listed is canonical. -/
theorem Memory.wf_nil (e : Nat) : Memory.wf { epoch := e, cells := [] } := by simp [Memory.wf]

/-! ## Reading after writing -/

theorem Memory.read_write_same {m : Memory} (h : m.wf) (a : Nat) (v : Word) : (m.write a v).read a = v := by
  have key := Memory.lookup_insert_same m.cells a v h.1
  unfold Memory.read Memory.write Memory.unlisted
  simp only
  cases hl : (Memory.insert a v m.cells).lookup a with
  | some u => simpa [hl] using key
  | none =>
    simp only [hl, Option.none_or] at key
    simp [key]

theorem Memory.read_write_other (m : Memory) (a b : Nat) (v : Word) (h : b ≠ a) :
    (m.write a v).read b = m.read b := by
  simp only [Memory.read, Memory.write, Memory.lookup_insert_other m.cells a b v h]

/-- Everything a write does to reads. -/
theorem Memory.read_write {m : Memory} (h : m.wf) (a b : Nat) (v : Word) :
    (m.write a v).read b = if b = a then v else m.read b := by
  split
  · subst_vars; exact Memory.read_write_same h _ v
  · exact Memory.read_write_other m a b v ‹_›

/-- A memory with nothing listed reads as its unlisted words. -/
theorem Memory.read_nil (e a : Nat) : Memory.read { epoch := e, cells := [] } a = Memory.unlisted e a := rfl

/-! ## Slot words -/

theorem Field.index_lt (f : Field) : f.index < 11 := by cases f <;> decide

theorem Field.index_inj {f g : Field} (h : f.index = g.index) : f = g := by
  cases f <;> cases g <;> simp_all [Field.index]

theorem Field.mem_all (f : Field) : f ∈ Field.all := by cases f <;> decide

/-- Two slot words inside the window are the same word only if field and slot agree. -/
theorem oscAddr_inj {f g : Field} {i j : Nat} (hi : i < oscStride) (hj : j < oscStride)
    (h : oscAddr f i = oscAddr g j) : f = g ∧ i = j := by
  unfold oscAddr oscBase at h
  unfold oscStride at *
  have : f.index = g.index := by omega
  exact ⟨Field.index_inj this, by omega⟩

/-- A slot word lies above every other word memory. -/
theorem oscBase_le_oscAddr (f : Field) (i : Nat) : oscBase ≤ oscAddr f i := by unfold oscAddr; omega

@[simp] theorem Memory.setOsc_epoch (m : Memory) (f : Field) (i : Nat) (v : Word) :
    (m.setOsc f i v).epoch = m.epoch := rfl

@[simp] theorem Memory.setObuf_epoch (m : Memory) (k : Nat) (v : Word) : (m.setObuf k v).epoch = m.epoch := rfl

theorem Memory.setOsc_wf {m : Memory} (h : m.wf) (f : Field) (i : Nat) (v : Word) : (m.setOsc f i v).wf :=
  Memory.write_wf h _ v

theorem Memory.setObuf_wf {m : Memory} (h : m.wf) (k : Nat) (v : Word) : (m.setObuf k v).wf :=
  Memory.write_wf h _ v

/-- A slot word after a write to a slot word. -/
theorem Memory.osc_setOsc {m : Memory} (h : m.wf) (f g : Field) {i j : Nat} (v : Word)
    (hi : i < oscStride) (hj : j < oscStride) :
    (m.setOsc g j v).osc f i = if f = g ∧ i = j then v else m.osc f i := by
  unfold Memory.osc Memory.setOsc
  rw [Memory.read_write h]
  by_cases hfi : f = g ∧ i = j
  · obtain ⟨rfl, rfl⟩ := hfi; simp
  · rw [if_neg hfi, if_neg]
    intro he
    exact hfi (oscAddr_inj hi hj he)

/-- A word below the slot window after a write to a slot word. -/
theorem Memory.read_setOsc_of_lt (m : Memory) (f : Field) (i a : Nat) (v : Word) (h : a < oscBase) :
    (m.setOsc f i v).read a = m.read a := by
  apply Memory.read_write_other
  have := oscBase_le_oscAddr f i
  omega

/-- A word outside `OBUF` after a write to `OBUF`. -/
theorem Memory.read_setObuf_of_ne (m : Memory) (k a : Nat) (v : Word) (h : a ≠ obufBase + k) :
    (m.setObuf k v).read a = m.read a := Memory.read_write_other m _ a v h

/-- A slot word after a write to `OBUF`. -/
theorem Memory.osc_setObuf (m : Memory) (f : Field) (i k : Nat) (v : Word) (h : k < oscStride) :
    (m.setObuf k v).osc f i = m.osc f i := by
  apply Memory.read_setObuf_of_ne
  have := oscBase_le_oscAddr f i
  unfold oscBase oscStride at *
  unfold obufBase
  omega

/-- An output word after a write to `OBUF`. -/
theorem Memory.obuf_setObuf {m : Memory} (h : m.wf) (j k : Nat) (v : Word) :
    (m.setObuf k v).obuf j = if j = k then v else m.obuf j := by
  unfold Memory.obuf Memory.setObuf
  rw [Memory.read_write h]
  simp

/-! ## Loops -/

/-- What holds before a loop and is carried from each turn to the next holds after it. -/
theorem Memory.forEach_induct {n : Nat} {op : Memory → Nat → Memory} {m : Memory} (P : Nat → Memory → Prop)
    (h0 : P 0 m) (hs : ∀ i m', i < n → P i m' → P (i + 1) (op m' i)) : P n (Memory.forEach n op m) := by
  have key : ∀ k, k ≤ n → P k ((List.range k).foldl op m) := by
    intro k
    induction k with
    | zero => intro _; exact h0
    | succ k ih =>
      intro hk
      rw [List.range_succ, List.foldl_append]
      exact hs k _ (by omega) (ih (by omega))
  exact key n (Nat.le_refl n)

theorem Memory.forEach_succ (n : Nat) (op : Memory → Nat → Memory) (m : Memory) :
    Memory.forEach (n + 1) op m = op (Memory.forEach n op m) n := by
  simp [Memory.forEach, List.range_succ]

@[simp] theorem Memory.forEach_zero (op : Memory → Nat → Memory) (m : Memory) : Memory.forEach 0 op m = m := rfl

/-- What holds before a fold over fields and is kept by each write holds after it. -/
theorem Memory.foldl_induct {α : Type} {op : Memory → α → Memory} (P : Memory → Prop)
    (hs : ∀ m' x, P m' → P (op m' x)) : ∀ (l : List α) (m : Memory), P m → P (l.foldl op m)
  | [], _, h => h
  | x :: l, _, h => Memory.foldl_induct P hs l _ (hs _ x h)

/-- A fold that writes one slot word for each field of a list leaves the words of other slots alone and gives each
field of the list its value, if that value does not depend on the words already written. -/
theorem Memory.foldl_setOsc {v : Field → Word} (i : Nat) (hi : i < oscStride) :
    ∀ (l : List Field) (m : Memory), m.wf →
      (l.foldl (fun m f => m.setOsc f i (v f)) m).wf ∧
      (l.foldl (fun m f => m.setOsc f i (v f)) m).epoch = m.epoch ∧
      (∀ a, (∀ f ∈ l, a ≠ oscAddr f i) →
        (l.foldl (fun m f => m.setOsc f i (v f)) m).read a = m.read a) ∧
      (∀ f ∈ l, (l.foldl (fun m f => m.setOsc f i (v f)) m).osc f i = v f)
  | [], m, h => ⟨h, rfl, fun _ _ => rfl, by simp⟩
  | g :: l, m, h => by
    obtain ⟨h1, h2, h3, h4⟩ := Memory.foldl_setOsc (v := v) i hi l (m.setOsc g i (v g)) (Memory.setOsc_wf h _ _ _)
    simp only [List.foldl_cons]
    refine ⟨h1, h2, fun a ha => ?_, fun f hf => ?_⟩
    · rw [h3 a (fun f hf => ha f (by simp [hf]))]
      exact Memory.read_write_other _ _ _ _ (ha g (by simp))
    · by_cases hfl : f ∈ l
      · exact h4 f hfl
      · have hfg : f = g := by simpa [hfl] using hf
        subst hfg
        show Memory.read _ (oscAddr f i) = v f
        rw [h3 (oscAddr f i) (fun f' hf' he => hfl (by rw [(oscAddr_inj hi hi he).1]; exact hf'))]
        exact Memory.read_write_same h _ _

/-- Everything `clear_slot` does (R7). -/
theorem Memory.clearSlot_spec {m : Memory} (h : m.wf) {i : Nat} (hi : i < oscStride) :
    (m.clearSlot i).wf ∧ (m.clearSlot i).epoch = m.epoch ∧
      (∀ a, (∀ f : Field, a ≠ oscAddr f i) → (m.clearSlot i).read a = m.read a) ∧
      (∀ f : Field, (m.clearSlot i).osc f i = 0) := by
  obtain ⟨h1, h2, h3, h4⟩ := Memory.foldl_setOsc (v := fun _ => 0) i hi Field.all m h
  exact ⟨h1, h2, fun a ha => h3 a (fun f _ => ha f), fun f => h4 f (Field.mem_all f)⟩

/-- A copy of a slot onto another is the same as writing the eleven words read before the copy (R151). -/
theorem Memory.foldl_copy {m0 : Memory} {j i : Nat} (hj : j < oscStride) (hi : i < oscStride) (hne : j ≠ i) :
    ∀ (l : List Field) (m : Memory), m.wf → (∀ f : Field, m.osc f j = m0.osc f j) →
      l.foldl (fun m f => m.setOsc f i (m.osc f j)) m = l.foldl (fun m f => m.setOsc f i (m0.osc f j)) m
  | [], _, _, _ => rfl
  | g :: l, m, h, hm => by
    simp only [List.foldl_cons]
    rw [hm g]
    refine Memory.foldl_copy hj hi hne l _ (Memory.setOsc_wf h _ _ _) (fun f => ?_)
    rw [Memory.osc_setOsc h f g _ hj hi, if_neg (fun hc => hne hc.2)]
    exact hm f

/-- Everything a slot copy does (R151). -/
theorem Memory.copySlot_spec {m : Memory} (h : m.wf) {j i : Nat} (hj : j < oscStride) (hi : i < oscStride)
    (hne : j ≠ i) :
    (m.copySlot j i).wf ∧ (m.copySlot j i).epoch = m.epoch ∧
      (∀ a, (∀ f : Field, a ≠ oscAddr f i) → (m.copySlot j i).read a = m.read a) ∧
      (∀ f : Field, (m.copySlot j i).osc f i = m.osc f j) := by
  unfold Memory.copySlot
  rw [Memory.foldl_copy (m0 := m) hj hi hne Field.all m h (fun _ => rfl)]
  obtain ⟨h1, h2, h3, h4⟩ := Memory.foldl_setOsc (v := fun f => m.osc f j) i hi Field.all m h
  exact ⟨h1, h2, fun a ha => h3 a (fun f _ => ha f), fun f => h4 f (Field.mem_all f)⟩

/-- A slot word whose address is not listed is zero (R36). -/
theorem Memory.osc_unlisted (m : Memory) (f : Field) (i : Nat) (h : m.cells.lookup (oscAddr f i) = none) :
    m.osc f i = 0 := by
  have hb := oscBase_le_oscAddr f i
  have : Memory.resetValue (oscAddr f i) = some 0 := by
    unfold Memory.resetValue
    rw [if_neg]
    unfold oscBase at hb
    unfold obufEnd
    omega
  simp [Memory.osc, Memory.read, h, Memory.unlisted, this]

end Sys2Proof.Machine
end

