-- ==== Sys2Proof/Laws/Frame.lean ====
section
/-! SUPPORT. Where the commands write: `Memory.Wrote S m m'` says that `m'` comes from `m` by writes at addresses
in `S` alone. From it follow the canonical form, the frame of the reads and the places of the listed words, each
once for every command (spec/20_memory.md R70). -/

namespace Sys2Proof.Machine

open Sys2Proof

/-- `m'` comes from `m` by writes at addresses in `S`. -/
inductive Memory.Wrote (S : Nat → Prop) (m : Memory) : Memory → Prop where
  | refl : Memory.Wrote S m m
  | write {m' : Memory} (h : Memory.Wrote S m m') (a : Nat) (v : Word) (ha : S a) : Memory.Wrote S m (m'.write a v)

theorem Memory.Wrote.mono {S T : Nat → Prop} {m m' : Memory} (h : Memory.Wrote S m m') (hST : ∀ a, S a → T a) :
    Memory.Wrote T m m' := by
  induction h with
  | refl => exact .refl
  | write _ a v ha ih => exact ih.write a v (hST a ha)

theorem Memory.Wrote.trans {S : Nat → Prop} {m m' m'' : Memory} (h : Memory.Wrote S m m')
    (h' : Memory.Wrote S m' m'') : Memory.Wrote S m m'' := by
  induction h' with
  | refl => exact h
  | write _ a v ha ih => exact ih.write a v ha

/-- Writes keep the canonical form. -/
theorem Memory.Wrote.wf {S : Nat → Prop} {m m' : Memory} (h : Memory.Wrote S m m') (hm : m.wf) : m'.wf := by
  induction h with
  | refl => exact hm
  | write _ a v _ ih => exact Memory.write_wf ih a v

theorem Memory.Wrote.epoch_eq {S : Nat → Prop} {m m' : Memory} (h : Memory.Wrote S m m') : m'.epoch = m.epoch := by
  induction h with
  | refl => rfl
  | write _ a v _ ih => exact ih

/-- What is not written reads as before. -/
theorem Memory.Wrote.read_eq {S : Nat → Prop} {m m' : Memory} (h : Memory.Wrote S m m') {a : Nat} (ha : ¬ S a) :
    m'.read a = m.read a := by
  induction h with
  | refl => rfl
  | write _ b v hb ih =>
    have hne : a ≠ b := fun hab => ha (by rw [hab]; exact hb)
    rw [Memory.read_write_other _ _ _ _ hne]
    exact ih

/-- The frame as the statements say it. -/
theorem Memory.Wrote.sameOutside {S : Nat → Prop} {m m' : Memory} (h : Memory.Wrote S m m') : m'.SameOutside m S :=
  ⟨h.epoch_eq, fun _ ha => h.read_eq ha⟩

/-- A listed word was listed before or stands where something was written. -/
theorem Memory.Wrote.mem_cells {S : Nat → Prop} {m m' : Memory} (h : Memory.Wrote S m m') {c : Nat × Word}
    (hc : c ∈ m'.cells) : c ∈ m.cells ∨ S c.1 := by
  induction h with
  | refl => exact .inl hc
  | write _ a v ha ih =>
    rcases Memory.mem_insert _ _ _ _ hc with h | h
    · exact ih h
    · exact .inr (h.1 ▸ ha)

theorem Memory.wrote_write {S : Nat → Prop} (m : Memory) (a : Nat) (v : Word) (ha : S a) :
    Memory.Wrote S m (m.write a v) := .write .refl a v ha

theorem Memory.wrote_setOsc {S : Nat → Prop} (m : Memory) (f : Field) (i : Nat) (v : Word) (h : S (oscAddr f i)) :
    Memory.Wrote S m (m.setOsc f i v) := Memory.wrote_write m _ v h

theorem Memory.wrote_output {S : Nat → Prop} (add : Bool) (m : Memory) (k : Nat) (v : Word) (h : S (obufBase + k)) :
    Memory.Wrote S m (m.output add k v) := Memory.wrote_write m _ _ h

/-- A fold whose turns write in `S` writes in `S`. -/
theorem Memory.wrote_foldl {S : Nat → Prop} {α : Type} {op : Memory → α → Memory} :
    ∀ (l : List α) (m : Memory), (∀ x ∈ l, ∀ m', Memory.Wrote S m' (op m' x)) → Memory.Wrote S m (l.foldl op m)
  | [], _, _ => .refl
  | x :: l, m, h =>
    (h x (by simp) m).trans (Memory.wrote_foldl l (op m x) (fun y hy => h y (by simp [hy])))

theorem Memory.wrote_forEach {S : Nat → Prop} {n : Nat} {op : Memory → Nat → Memory} (m : Memory)
    (h : ∀ i, i < n → ∀ m', Memory.Wrote S m' (op m' i)) : Memory.Wrote S m (Memory.forEach n op m) :=
  Memory.wrote_foldl _ m (fun i hi => h i (List.mem_range.mp hi))

theorem Memory.wrote_clearSlot {S : Nat → Prop} (m : Memory) (i : Nat) (h : ∀ f : Field, S (oscAddr f i)) :
    Memory.Wrote S m (m.clearSlot i) :=
  Memory.wrote_foldl _ m (fun f _ m' => Memory.wrote_setOsc m' f i _ (h f))

theorem Memory.wrote_copySlot {S : Nat → Prop} (m : Memory) (j i : Nat) (h : ∀ f : Field, S (oscAddr f i)) :
    Memory.Wrote S m (m.copySlot j i) :=
  Memory.wrote_foldl _ m (fun f _ m' => Memory.wrote_setOsc m' f i _ (h f))

/-! ## Frames of the commands' loops -/

/-- The slot words a frame of `RENDER` may write (R70). -/
abbrev renderFields (chirp : Bool) : List Field := if chirp then [.c1, .y1, .y2] else [.y1, .y2]

theorem wrote_advanceSlot {S : Nat → Prop} (c : Bool) (y0 : Word) (m : Memory) (i : Nat)
    (h : ∀ f ∈ renderFields c, S (oscAddr f i)) : Memory.Wrote S m (advanceSlot c y0 m i) := by
  have h1 : S (oscAddr .y1 i) := h _ (by cases c <;> simp [renderFields])
  have h2 : S (oscAddr .y2 i) := h _ (by cases c <;> simp [renderFields])
  have h12 := (Memory.wrote_setOsc (S := S) m .y2 i (m.osc .y1 i) h2).trans (Memory.wrote_setOsc _ .y1 i y0 h1)
  unfold advanceSlot
  cases c with
  | false => exact h12
  | true => exact h12.trans (Memory.wrote_setOsc _ .c1 i _ (h _ (by simp [renderFields])))

theorem wrote_renderLane {S : Nat → Prop} (j : RenderJob) (k g l : Nat) (st : Memory × List Word)
    (h : ∀ f ∈ renderFields j.chirp, ∀ i, i < j.nlive → S (oscAddr f i)) :
    Memory.Wrote S st.1 (renderLane j k g st l).1 := by
  unfold renderLane
  simp only
  split
  · exact wrote_advanceSlot _ _ _ _ (fun f hf => h f hf _ ‹_›)
  · exact .refl

theorem wrote_foldl_fst {S : Nat → Prop} {β : Type} {op : Memory × β → Nat → Memory × β} :
    ∀ (l : List Nat) (st : Memory × β), (∀ x st', Memory.Wrote S st'.1 (op st' x).1) →
      Memory.Wrote S st.1 (l.foldl op st).1
  | [], _, _ => .refl
  | x :: l, st, h => (h x st).trans (wrote_foldl_fst l (op st x) h)

theorem wrote_renderGroups {S : Nat → Prop} (j : RenderJob) (k : Nat) (m : Memory)
    (h : ∀ f ∈ renderFields j.chirp, ∀ i, i < j.nlive → S (oscAddr f i)) :
    Memory.Wrote S m (renderGroups j k m).1 :=
  wrote_foldl_fst _ (m, List.replicate j.width 0)
    (fun g st => wrote_foldl_fst _ st (fun l st' => wrote_renderLane j k g l st' h))

/-- All of `RENDER`'s writes (R70, R131). -/
theorem wrote_renderFrames (j : RenderJob) (n : Nat) (m : Memory) :
    Memory.Wrote (fun a => SlotWord (renderFields j.chirp) j.nlive a ∨ OutputWord n a) m
      (Memory.forEach n (renderFrame j) m) := by
  refine Memory.wrote_forEach m (fun k hk m' => ?_)
  exact (wrote_renderGroups j k m' (fun f hf i hi => .inl ⟨f, hf, i, hi, rfl⟩)).trans
    (Memory.wrote_output _ _ k _ (.inr ⟨k, hk, rfl⟩))

/-- All of `SHRD`'s writes (R70): only slots from `i` up to `i + rest`. -/
theorem wrote_dropDead : ∀ (rest i : Nat) (m : Memory),
    Memory.Wrote (fun a => ∃ f : Field, ∃ j, i ≤ j ∧ j < i + rest ∧ a = oscAddr f j) m
      (Memory.dropDead rest i m).2
  | 0, _, _ => .refl
  | rest + 1, i, m => by
    unfold Memory.dropDead
    split
    · exact (wrote_dropDead rest (i + 1) m).mono
        (fun a ⟨f, j, h1, h2, h3⟩ => ⟨f, j, by omega, by omega, h3⟩)
    · have hl : ∀ (m' : Memory), Memory.Wrote (fun a => ∃ f : Field, ∃ j, i ≤ j ∧ j < i + (rest + 1) ∧ a = oscAddr f j)
          m' (m'.clearSlot (i + rest)) :=
        fun m' => Memory.wrote_clearSlot m' _ (fun f => ⟨f, i + rest, by omega, by omega, rfl⟩)
      have hr := fun m' => (wrote_dropDead rest i m').mono
        (T := fun a => ∃ f : Field, ∃ j, i ≤ j ∧ j < i + (rest + 1) ∧ a = oscAddr f j)
        (fun a ⟨f, j, h1, h2, h3⟩ => ⟨f, j, h1, by omega, h3⟩)
      simp only
      split
      · exact ((Memory.wrote_copySlot m (i + rest) i (fun f => ⟨f, i, by omega, by omega, rfl⟩)).trans
          (hl _)).trans (hr _)
      · exact (hl _).trans (hr _)

/-! ## Loops over slots -/

/-- A loop whose turn `i` writes exactly the fields `fs` of slot `i`, with values that depend only on slot `i` as it
was before the loop, leaves those values in every slot it visits. -/
theorem Memory.forEach_slots {m : Memory} (hm : m.wf) {n : Nat} (hn : n ≤ oscStride) (fs : List Field)
    (v : Field → Nat → Word) {op : Memory → Nat → Memory}
    (hw : ∀ i, i < n → ∀ m', Memory.Wrote (fun a => ∃ f ∈ fs, a = oscAddr f i) m' (op m' i))
    (hv : ∀ i, i < n → ∀ m' : Memory, m'.wf → (∀ f : Field, m'.osc f i = m.osc f i) →
      ∀ f ∈ fs, (op m' i).osc f i = v f i) :
    Memory.Wrote (SlotWord fs n) m (Memory.forEach n op m) ∧
      ∀ i, i < n → ∀ f ∈ fs, (Memory.forEach n op m).osc f i = v f i := by
  have key := Memory.forEach_induct (n := n) (op := op) (m := m)
    (fun c m' => c ≤ n → Memory.Wrote (SlotWord fs c) m m' ∧ ∀ i, i < c → ∀ f ∈ fs, m'.osc f i = v f i)
    (fun _ => ⟨.refl, fun _ h => absurd h (Nat.not_lt_zero _)⟩) (by
      intro i m' hi ih _
      obtain ⟨h1, h2⟩ := ih (by omega)
      have hother : ∀ (f : Field) (j : Nat), j < oscStride → j ≠ i → (op m' i).osc f j = m'.osc f j := by
        intro f j hj hne
        refine (hw i hi m').read_eq ?_
        rintro ⟨g, _, hg⟩
        exact hne (oscAddr_inj hj (by omega) hg).2
      refine ⟨(h1.mono ?_).trans ((hw i hi m').mono ?_), fun j hj f hf => ?_⟩
      · rintro a ⟨f, hf, j, hj, rfl⟩; exact ⟨f, hf, j, by omega, rfl⟩
      · rintro a ⟨f, hf, rfl⟩; exact ⟨f, hf, i, by omega, rfl⟩
      · by_cases hji : j = i
        · subst hji
          refine hv j hi m' (h1.wf hm) (fun g => ?_) f hf
          refine h1.read_eq ?_
          rintro ⟨g', _, j', hj', hg'⟩
          have := (oscAddr_inj (by omega) (by omega) hg').2
          omega
        · rw [hother f j (by omega) hji]
          exact h2 j (by omega) f hf)
  exact key (Nat.le_refl n)

end Sys2Proof.Machine
end

