-- ==== Sys2Proof/Laws/Bank.lean ====
section
/-! SUPPORT. What one slot, one frame and one output word of `RENDER` do (spec/41_oscillator_bank.md R125 to R131). -/

namespace Sys2Proof.Machine

open Sys2Proof

/-- What stands before a loop over `0 .. n-1` and is carried from turn to turn stands after it. -/
theorem foldl_range_induct {α : Type} {op : α → Nat → α} {x : α} (P : Nat → α → Prop) (n : Nat) (h0 : P 0 x)
    (hs : ∀ i y, i < n → P i y → P (i + 1) (op y i)) : P n ((List.range n).foldl op x) := by
  have key : ∀ k, k ≤ n → P k ((List.range k).foldl op x) := by
    intro k
    induction k with
    | zero => intro _; exact h0
    | succ k ih =>
      intro hk
      rw [List.range_succ, List.foldl_append]
      exact hs k _ (by omega) (ih (by omega))
  exact key n (Nat.le_refl n)

/-- Everything one slot's advance does to slot words (R127, R129). -/
theorem osc_advanceSlot {m : Memory} (h : m.wf) (c : Bool) (y0 : Word) {i j : Nat} (f : Field) (hi : i < oscStride)
    (hj : j < oscStride) :
    (advanceSlot c y0 m i).osc f j =
      if j = i then
        (match f with
          | .c1 => if c then chirpedC1 m i else m.osc .c1 i
          | .y1 => y0
          | .y2 => m.osc .y1 i
          | g => m.osc g i)
      else m.osc f j := by
  have h2 := Memory.setOsc_wf h .y2 i (m.osc .y1 i)
  have h1 := Memory.setOsc_wf h2 .y1 i y0
  unfold advanceSlot
  by_cases hji : j = i
  · subst hji
    cases c <;> cases f <;>
      simp [Memory.osc_setOsc h1, Memory.osc_setOsc h2, Memory.osc_setOsc h, hj]
  · cases c <;> simp [Memory.osc_setOsc h1, Memory.osc_setOsc h2, Memory.osc_setOsc h, hi, hj, hji]

/-- A slot's output reads only its own five words and the forcing sample (R125, R128). -/
theorem slotOutput_congr {m m' : Memory} (forcing : Bool) (x : Word) (i : Nat)
    (h : ∀ f : Field, m'.osc f i = m.osc f i) : slotOutput forcing x m' i = slotOutput forcing x m i := by
  simp [slotOutput, h]

/-- A slot's new coefficient reads only its own words (R125, R129). -/
theorem chirpedC1_congr {m m' : Memory} (i : Nat) (h : ∀ f : Field, m'.osc f i = m.osc f i) :
    chirpedC1 m' i = chirpedC1 m i := by
  simp [chirpedC1, h]

/-- A slot's words after one frame in which it was advanced (R127 to R129). -/
def frameWord (j : RenderJob) (k : Nat) (m : Memory) (i : Nat) : Field → Word
  | .c1 => if j.chirp then chirpedC1 m i else m.osc .c1 i
  | .y1 => slotOutput j.forcing (m.fbuf k) m i
  | .y2 => m.osc .y1 i
  | g => m.osc g i

/-- The accumulator of lane `l` after the live slots below `c` (R126, R127). -/
def laneAcc (j : RenderJob) (k : Nat) (m : Memory) (c l : Nat) : Word :=
  ((List.range (min c j.nlive)).filter (fun i => i % j.width = l)).foldl
    (fun acc i => fadd acc (slotOutput j.forcing (m.fbuf k) m i)) 0

theorem laneAcc_succ (j : RenderJob) (k : Nat) (m : Memory) {c : Nat} (h : c < j.nlive) (l : Nat) :
    laneAcc j k m (c + 1) l =
      if c % j.width = l then fadd (laneAcc j k m c l) (slotOutput j.forcing (m.fbuf k) m c)
      else laneAcc j k m c l := by
  unfold laneAcc
  rw [show min (c + 1) j.nlive = c + 1 by omega, show min c j.nlive = c by omega, List.range_succ,
    List.filter_append, List.foldl_append]
  by_cases hl : c % j.width = l <;> simp [hl]

theorem laneAcc_of_le (j : RenderJob) (k : Nat) (m : Memory) {c : Nat} (h : j.nlive ≤ c) (l : Nat) :
    laneAcc j k m c l = laneAcc j k m j.nlive l := by
  unfold laneAcc
  rw [show min c j.nlive = j.nlive by omega, Nat.min_self]

/-- What holds after the lanes below position `c` (slots below `c` of the group order) have been visited. -/
structure LanesDone (j : RenderJob) (k : Nat) (m : Memory) (c : Nat) (st : Memory × List Word) : Prop where
  wf : st.1.wf
  wrote : Memory.Wrote (SlotWord (renderFields j.chirp) (min c j.nlive)) m st.1
  len : st.2.length = j.width
  acc : ∀ l, l < j.width → st.2.getD l 0 = laneAcc j k m c l
  slot : ∀ i, i < min c j.nlive → ∀ f : Field, st.1.osc f i = frameWord j k m i f

/-- One lane of the group order keeps the account, a live slot or a padding lane (R126, R127). -/
theorem LanesDone.step {j : RenderJob} {k : Nat} {m : Memory} {g l : Nat} {st : Memory × List Word}
    (hn : j.nlive ≤ oscStride) (hk : k < oscStride) (hl : l < j.width)
    (h : LanesDone j k m (g * j.width + l) st) :
    LanesDone j k m (g * j.width + (l + 1)) (renderLane j k g st l) := by
  have hmod : (g * j.width + l) % j.width = l := by rw [Nat.mul_add_mod', Nat.mod_eq_of_lt hl]
  have hc : g * j.width + (l + 1) = g * j.width + l + 1 := by omega
  rw [hc]
  generalize hi0 : g * j.width + l = i at *
  unfold renderLane
  simp only [hi0]
  split
  · rename_i hi
    have hin : i < oscStride := by omega
    have hself : ∀ f : Field, st.1.osc f i = m.osc f i := by
      intro f
      refine h.wrote.read_eq ?_
      rintro ⟨f', _, i', hi', he⟩
      have := (oscAddr_inj hin (by omega) he).2
      omega
    have hfb : st.1.fbuf k = m.fbuf k := by
      refine h.wrote.read_eq ?_
      rintro ⟨f', _, i', _, he⟩
      have := oscBase_le_oscAddr f' i'
      unfold oscBase at this
      unfold fbufBase at he
      unfold oscStride at hk
      omega
    rw [hfb, slotOutput_congr j.forcing (m.fbuf k) i hself]
    have hadv := wrote_advanceSlot (S := SlotWord (renderFields j.chirp) (min (i + 1) j.nlive)) j.chirp
      (slotOutput j.forcing (m.fbuf k) m i) st.1 i (fun f hf => ⟨f, hf, i, by omega, rfl⟩)
    refine ⟨hadv.wf h.wf, (h.wrote.mono ?_).trans hadv, by simp [h.len], fun l' hl' => ?_, fun i' hi' f => ?_⟩
    · rintro a ⟨f, hf, i', hi', rfl⟩
      exact ⟨f, hf, i', by omega, rfl⟩
    · rw [laneAcc_succ j k m hi l', hmod]
      by_cases hll : l = l'
      · subst hll
        rw [if_pos rfl, ← h.acc l hl]
        simp [List.getD_eq_getElem?_getD, h.len, hl]
      · rw [if_neg hll, ← h.acc l' hl']
        simp [List.getD_eq_getElem?_getD, hll]
    · rw [osc_advanceSlot h.wf j.chirp _ f hin (by omega)]
      by_cases hii : i' = i
      · subst hii
        simp only [if_true]
        cases f <;> simp [frameWord, hself, chirpedC1_congr i' hself]
      · rw [if_neg hii]
        exact h.slot i' (by omega) f
  · rename_i hi
    have hmin : min (i + 1) j.nlive = min i j.nlive := by omega
    refine ⟨h.wf, hmin ▸ h.wrote, h.len, fun l' hl' => ?_, fun i' hi' f => h.slot i' (by omega) f⟩
    rw [h.acc l' hl', laneAcc_of_le j k m (c := i) (by omega), laneAcc_of_le j k m (c := i + 1) (by omega)]

/-- Everything one frame's pass over the groups does: every live slot has advanced once from where it stood, the
accumulators hold the lanes' sums, and nothing else has changed (R125 to R129). -/
theorem renderGroups_spec {j : RenderJob} {k : Nat} {m : Memory} (hm : m.wf) (hw : 0 < j.width)
    (hn : j.nlive ≤ oscStride) (hk : k < oscStride) : LanesDone j k m j.nlive (renderGroups j k m) := by
  have h0 : LanesDone j k m (0 * j.width) (m, List.replicate j.width 0) := by
    refine ⟨hm, .refl, by simp, fun l hl => ?_, fun i hi f => absurd hi (by simp)⟩
    simp [laneAcc, List.getD_eq_getElem?_getD, hl]
  have key := foldl_range_induct (x := (m, List.replicate j.width (0 : Word)))
    (op := fun st g => (List.range j.width).foldl (renderLane j k g) st)
    (fun g st => LanesDone j k m (g * j.width) st) (roundUp j.width j.nlive / j.width) h0 (by
      intro g st _ hst
      have := foldl_range_induct (x := st) (op := renderLane j k g)
        (fun l st' => LanesDone j k m (g * j.width + l) st') j.width hst
        (fun l st' hl hst' => LanesDone.step hn hk hl hst')
      rw [Nat.succ_mul]
      exact this)
  have hge : j.nlive ≤ roundUp j.width j.nlive / j.width * j.width := by
    unfold roundUp
    rw [Nat.mul_div_cancel_left _ hw]
    have h1 := Nat.div_add_mod (j.nlive + j.width - 1) j.width
    have h2 := Nat.mod_lt (j.nlive + j.width - 1) hw
    rw [Nat.mul_comm] at h1
    omega
  have hmin : min (roundUp j.width j.nlive / j.width * j.width) j.nlive = min j.nlive j.nlive := by omega
  refine ⟨key.wf, hmin ▸ key.wrote, key.len, fun l hl => ?_, fun i hi f => key.slot i (by omega) f⟩
  rw [← laneAcc_of_le j k m hge]
  exact key.acc l hl

/-- Everything one output word's write does (R131). -/
theorem obuf_output {m : Memory} (h : m.wf) (add : Bool) (k k' : Nat) (v : Word) :
    (m.output add k v).obuf k' = if k' = k then (if add then fadd (m.obuf k) v else v) else m.obuf k' :=
  Memory.obuf_setObuf h k' k _

/-- A write to `OBUF` leaves the slots alone (R131). -/
theorem osc_output (m : Memory) (add : Bool) (f : Field) (i k : Nat) (v : Word) (hk : k < oscStride) :
    (m.output add k v).osc f i = m.osc f i := Memory.osc_setObuf m f i k _ hk

end Sys2Proof.Machine
end

