-- ==== Sys2Proof/Laws/Encoding.lean ====
section
/-! SUPPORT. The command word and its seven fields (spec/30_encoding.md R85): packing and reading agree. -/

namespace Sys2Proof

theorem bitOf_toNat (w : Word) (k : Nat) : (bitOf w k).toNat = w.toNat / 2 ^ k % 2 := by
  unfold bitOf slice
  rw [show k + 1 - k = 1 by omega]
  rcases Nat.mod_two_eq_zero_or_one (w.toNat / 2 ^ k) with h | h <;> simp [h]

/-- A packed word's number is the sum of its fields at their places (R85). -/
theorem commandWord_toNat (op : Nat) (fE fC fF fA : Bool) (t n : Nat) (ho : op < 256) (ht : TableFits t)
    (hn : CountFits n) :
    (commandWord op fE fC fF fA t n).toNat =
      op * 0x1000000 + fE.toNat * 0x800000 + fC.toNat * 0x400000 + fF.toNat * 0x200000 +
        fA.toNat * 0x100000 + t * 0x10000 + n := by
  have h1 := Bool.toNat_lt fE
  have h2 := Bool.toNat_lt fC
  have h3 := Bool.toNat_lt fF
  have h4 := Bool.toNat_lt fA
  unfold commandWord
  rw [BitVec.toNat_ofNat]
  apply Nat.mod_eq_of_lt
  omega

/-- The opcode field of a packed word (R85). -/
theorem slice_commandWord_op (op : Nat) (fE fC fF fA : Bool) (t n : Nat) (ho : op < 256) (ht : TableFits t)
    (hn : CountFits n) : slice (commandWord op fE fC fF fA t n) 31 24 = op := by
  have h1 := Bool.toNat_lt fE
  have h2 := Bool.toNat_lt fC
  have h3 := Bool.toNat_lt fF
  have h4 := Bool.toNat_lt fA
  simp only [slice, commandWord_toNat op fE fC fF fA t n ho ht hn]
  omega

/-- Decoding a packed word is the case analysis of R91 on its fields. -/
theorem decode_commandWord (op : Nat) (fE fC fF fA : Bool) (t n : Nat) (ho : op < 256) (ht : TableFits t)
    (hn : CountFits n) : decode (commandWord op fE fC fF fA t n) = decodeFields op fE fC fF fA t n := by
  have hw := commandWord_toNat op fE fC fF fA t n ho ht hn
  have h1 := Bool.toNat_lt fE
  have h2 := Bool.toNat_lt fC
  have h3 := Bool.toNat_lt fF
  have h4 := Bool.toNat_lt fA
  have hb : ∀ (x : Nat) (b : Bool), x = b.toNat → (x == 1) = b := by intro x b h; cases b <;> simp [h]
  unfold decode bitOf
  simp only [slice, hw]
  congr 1
  · omega
  · apply hb; omega
  · apply hb; omega
  · apply hb; omega
  · apply hb; omega
  · omega
  · omega

/-- Every word is packed from its own fields (R85). -/
theorem commandWord_of_fields (w : Word) :
    w = commandWord (slice w 31 24) (bitOf w 23) (bitOf w 22) (bitOf w 21) (bitOf w 20) (slice w 19 16)
      (slice w 15 0) := by
  have hlt := w.isLt
  apply BitVec.eq_of_toNat_eq
  rw [commandWord_toNat _ _ _ _ _ _ _ (by simp only [slice]; omega) (by simp only [TableFits, slice]; omega)
    (by simp only [CountFits, slice]; omega)]
  simp only [bitOf_toNat, slice]
  omega

/-- A checked acceptance succeeds only as the command itself and only with the reserved fields zero (R89). -/
theorem whenZero_eq_ok {b : Bool} {i j : Instr} : whenZero b i = .ok j ↔ b = true ∧ i = j := by
  unfold whenZero
  cases b <;> simp

end Sys2Proof
end

