-- ==== Sys2Proof/Laws/HostPort.lean ====
section
/-! SUPPORT. Where the locations of the address map stand (spec/20_memory.md R64, spec/10_state.md R45). -/

namespace Sys2Proof.Machine

open Sys2Proof

/-- What an address and the parameters satisfy where the map names a location there (R36, R40, R42 to R44, R45). -/
def Location.Stands (p : Params) (a : Nat) : Location → Prop
  | .id => a = 0x00
  | .param0 => a = 0x01
  | .param1 => a = 0x02
  | .cmd => a = 0x04
  | .status => a = 0x05
  | .lastErr => a = 0x06
  | .lastCmd => a = 0x07
  | .errCnt => a = 0x08
  | .nlive => a = 0x09
  | .active => a = 0x0A
  | .cap => a = 0x0B
  | .capMax => a = 0x0C
  | .growStep => a = 0x0D
  | .sidx => a = 0x0E
  | .thr => a = 0x0F
  | .dt => a = 0x10
  | .kc1 => a = 0x11
  | .kc2 => a = 0x12
  | .ks => a = 0x13
  | .xin => a = 0x14
  | .xinc => a = 0x15
  | .xend => a = 0x16
  | .res => a = 0x17
  | .staged f => a = 0x20 + f.index
  | .lutBase t => t < p.nLut ∧ t < 16 ∧ a = 0x100 + 4 * t
  | .lutLen t => t < p.nLut ∧ t < 16 ∧ a = 0x100 + 4 * t + 1
  | .lutMinX t => t < p.nLut ∧ t < 16 ∧ a = 0x100 + 4 * t + 2
  | .lutDx t => t < p.nLut ∧ t < 16 ∧ a = 0x100 + 4 * t + 3
  | .lmem j => j < p.lmemWords ∧ a = lmemBase + j
  | .fbuf k => k < p.maxFrames ∧ a = fbufBase + k
  | .obuf k => k < p.maxFrames ∧ a = obufBase + k
  | .osc f i => i < p.maxOsc ∧ i < oscStride ∧ a = oscAddr f i
  | .unmapped => True

theorem Field.ofIndex_eq_some {n : Nat} {f : Field} (h : Field.ofIndex n = some f) : n = f.index := by
  unfold Field.ofIndex Field.all at h
  rcases n with _ | _ | _ | _ | _ | _ | _ | _ | _ | _ | _ | n <;>
    simp only [List.getElem?_cons_zero, List.getElem?_cons_succ, List.getElem?_nil, Option.some.injEq,
      reduceCtorEq] at h <;>
    subst h <;> rfl

theorem Field.ofIndex_index (f : Field) : Field.ofIndex f.index = some f := by cases f <;> rfl

theorem controlMap_stands (p : Params) : ∀ n, n < 0x18 → (controlMap.getD n .unmapped).Stands p n := by
  intro n hn
  interval_cases n <;> first | exact rfl | exact trivial

theorem descriptorAt_stands (p : Params) {o a : Nat} (ho : o < 0x40) (ha : a = 0x100 + o) :
    (descriptorAt p o).Stands p a := by
  have h0 : o / 4 < 16 := by omega
  have hk := Nat.mod_lt o (show 4 > 0 by decide)
  have hd := Nat.div_add_mod o 4
  unfold descriptorAt
  by_cases hlt : o / 4 < p.nLut
  · rw [if_pos hlt]
    by_cases h1 : o % 4 = 0
    · rw [if_pos h1]; exact ⟨hlt, h0, by omega⟩
    rw [if_neg h1]
    by_cases h2 : o % 4 = 1
    · rw [if_pos h2]; exact ⟨hlt, h0, by omega⟩
    rw [if_neg h2]
    by_cases h3 : o % 4 = 2
    · rw [if_pos h3]; exact ⟨hlt, h0, by omega⟩
    · rw [if_neg h3]; exact ⟨hlt, h0, by omega⟩
  · rw [if_neg hlt]; trivial

theorem slotAt_stands (p : Params) {o a : Nat} (ha : a = oscBase + o) : (slotAt p o).Stands p a := by
  unfold slotAt
  split
  · rename_i f hf
    have hi := Field.ofIndex_eq_some hf
    by_cases hlt : o % oscStride < p.maxOsc
    · rw [if_pos hlt]
      refine ⟨hlt, Nat.mod_lt _ (by decide), ?_⟩
      have hd := Nat.div_add_mod o oscStride
      unfold oscAddr
      rw [← hi, ha, Nat.mul_comm]
      omega
    · rw [if_neg hlt]; trivial
  · trivial

/-- The map is true to the addresses of the registers and memories. -/
theorem locate_stands (p : Params) (a : Addr) : (locate p a).Stands p a.toNat := by
  unfold locate
  generalize a.toNat = n
  simp only
  by_cases h1 : n < 0x18
  · rw [if_pos h1]; exact controlMap_stands p _ h1
  rw [if_neg h1]
  by_cases h2 : 0x20 ≤ n ∧ n < 0x2B
  · rw [if_pos h2]
    split
    · rename_i f hf
      have hi := Field.ofIndex_eq_some hf
      exact (show n = 0x20 + f.index by omega)
    · trivial
  rw [if_neg h2]
  by_cases h3 : 0x100 ≤ n ∧ n < 0x140
  · rw [if_pos h3]; exact descriptorAt_stands p (by omega) (by omega)
  rw [if_neg h3]
  by_cases h4 : lmemBase ≤ n ∧ n < lmemBase + p.lmemWords
  · rw [if_pos h4]; exact ⟨by omega, by omega⟩
  rw [if_neg h4]
  by_cases h5 : fbufBase ≤ n ∧ n < fbufBase + p.maxFrames
  · rw [if_pos h5]; exact ⟨by omega, by omega⟩
  rw [if_neg h5]
  by_cases h6 : obufBase ≤ n ∧ n < obufBase + p.maxFrames
  · rw [if_pos h6]; exact ⟨by omega, by omega⟩
  rw [if_neg h6]
  by_cases h7 : oscBase ≤ n ∧ n < 0x8000
  · rw [if_pos h7]; exact slotAt_stands p (by omega)
  · rw [if_neg h7]; trivial

end Sys2Proof.Machine
end

