-- ==== Sys2Proof/Laws/Invariant.lean ====
section
/-! SUPPORT. The machine's invariant (spec/10_state.md R38, R39): a check on the listed words that implies it, and
where the commands' writes stand with respect to it. -/

namespace Sys2Proof.Machine

open Sys2Proof

/-- No word is listed at an address of a slot at or above `NLIVE`. -/
abbrev State.PaddedCells (s : State) : Prop :=
  ∀ c ∈ s.mem.cells, oscBase ≤ c.1 → (c.1 - oscBase) % oscStride < s.nlive

/-- With no word listed for them, the slots at or above `NLIVE` are zero (R38). -/
theorem State.PaddedCells.padded {s : State} (h : s.PaddedCells) (hm : s.params.maxOsc ≤ oscStride) : s.Padded := by
  intro f i hi hi'
  refine Memory.osc_unlisted _ _ _ (List.lookup_eq_none_iff.mpr (fun c hc => ?_))
  have hb := oscBase_le_oscAddr f i
  have hmod : (oscAddr f i - oscBase) % oscStride = i := by
    unfold oscAddr
    rw [show oscBase + f.index * oscStride + i - oscBase = i + oscStride * f.index by rw [Nat.mul_comm]; omega,
      Nat.add_mul_mod_self_left, Nat.mod_eq_of_lt (by omega)]
  rw [bne_iff_ne]
  intro hca
  have := h c hc (by omega)
  rw [← hca, hmod] at this
  omega

/-- A decidable form of the invariant, stronger in its last part. -/
def State.invCheck (s : State) : Bool :=
  decide s.params.legal && decide s.mem.wf && decide s.InMap && decide s.Sized && decide s.PaddedCells

theorem State.inv_of_check {s : State} (h : s.invCheck = true) : s.Inv := by
  simp only [State.invCheck, Bool.and_eq_true, decide_eq_true_eq] at h
  obtain ⟨⟨⟨⟨h1, h2⟩, h3⟩, h4⟩, h5⟩ := h
  refine ⟨h1, h2, h3, h4, h5.padded ?_⟩
  unfold Params.legal at h1
  unfold oscStride
  omega

/-- The bounds every state with the invariant has (R5, R39). -/
theorem State.Inv.bounds {s : State} (h : s.Inv) :
    0 < s.params.w ∧ s.nlive ≤ s.params.maxOsc ∧ s.params.maxOsc ≤ oscStride ∧ s.params.maxFrames ≤ oscStride := by
  have h1 := h.legal
  have h2 := h.sized
  unfold Params.legal at h1
  unfold State.Sized at h2
  unfold oscStride
  omega

/-- A slot word below `MAXOSC` is mapped (R64). -/
theorem mappedWord_oscAddr (p : Params) (f : Field) {i : Nat} (h : i < p.maxOsc) (hm : p.maxOsc ≤ oscStride) :
    MappedWord p (oscAddr f i) = true := by
  have := f.index_lt
  unfold MappedWord oscAddr
  simp only [Bool.or_eq_true, Bool.and_eq_true, decide_eq_true_eq]
  right
  unfold oscBase oscStride at *
  omega

/-- An output word below `MAXFRAMES` is mapped (R64). -/
theorem mappedWord_obuf (p : Params) {k : Nat} (h : k < p.maxFrames) : MappedWord p (obufBase + k) = true := by
  unfold MappedWord
  simp only [Bool.or_eq_true, Bool.and_eq_true, decide_eq_true_eq]
  left; right; omega

end Sys2Proof.Machine
end

