-- ==== Sys2Proof/Laws/Numerics.lean ====
section
/-! SUPPORT. Small laws of the binary32 primitives: the parts of a packed word, generated NaNs, comparisons. -/

namespace Sys2Proof.Machine

open Sys2Proof

/-! ## Bit fields of packed words -/

theorem slice_eq (v : Word) (hi lo : Nat) : slice v hi lo = v.toNat / 2 ^ lo % 2 ^ (hi + 1 - lo) := rfl

theorem fExp_eq (a : Word) : fExp a = a.toNat / 2 ^ 23 % 2 ^ 8 := rfl

theorem fFrac_eq (a : Word) : fFrac a = a.toNat % 2 ^ 23 := by simp [fFrac, slice]

theorem fSign_eq (a : Word) : fSign a = decide (2 ^ 31 ≤ a.toNat) := by
  have hlt := a.isLt
  unfold fSign
  rw [slice_eq]
  by_cases h : 2 ^ 31 ≤ a.toNat
  · rw [show a.toNat / 2 ^ 31 % 2 ^ (31 + 1 - 31) = 1 by omega]
    simpa using h
  · rw [show a.toNat / 2 ^ 31 % 2 ^ (31 + 1 - 31) = 0 by omega]
    simpa using h

theorem low_eq (a : Word) : slice a 30 0 = a.toNat % 2 ^ 31 := by simp [slice]

theorem fPack_toNat (neg : Bool) (low : Nat) (h : low < 2 ^ 31) :
    (fPack neg low).toNat = (if neg then 2 ^ 31 else 0) + low := by
  unfold fPack
  rw [BitVec.toNat_ofNat]
  cases neg <;> (simp; omega)

theorem fSign_fPack (neg : Bool) (low : Nat) (h : low < 2 ^ 31) : fSign (fPack neg low) = neg := by
  rw [fSign_eq, fPack_toNat neg low h]
  cases neg <;> simp
  omega

theorem low_fPack (neg : Bool) (low : Nat) (h : low < 2 ^ 31) : slice (fPack neg low) 30 0 = low := by
  rw [low_eq, fPack_toNat neg low h]
  cases neg <;> simp <;> omega

theorem fExp_fPack (neg : Bool) (low : Nat) (h : low < 2 ^ 31) : fExp (fPack neg low) = low / 2 ^ 23 := by
  rw [fExp_eq, fPack_toNat neg low h]
  cases neg <;> simp <;> omega

theorem fFrac_fPack (neg : Bool) (low : Nat) (h : low < 2 ^ 31) : fFrac (fPack neg low) = low % 2 ^ 23 := by
  rw [fFrac_eq, fPack_toNat neg low h]
  cases neg <;> simp; omega

/-- Rounding never goes beyond the infinity (R117). -/
theorem roundMag_le (num den : Nat) : roundMag num den ≤ infLow := Nat.min_le_right _ _

theorem infLow_lt : infLow < 2 ^ 31 := by decide

theorem roundMag_lt (num den : Nat) : roundMag num den < 2 ^ 31 :=
  Nat.lt_of_le_of_lt (roundMag_le num den) infLow_lt

/-- A packed word whose low bits are at most those of the infinity is no NaN. -/
theorem isNaN_fPack (neg : Bool) (low : Nat) (h : low ≤ infLow) : isNaN (fPack neg low) = false := by
  have hl : low < 2 ^ 31 := Nat.lt_of_le_of_lt h infLow_lt
  unfold isNaN
  rw [fExp_fPack neg low hl, fFrac_fPack neg low hl]
  unfold infLow at h
  simp
  omega

/-! ## Generated NaNs (R108) -/

theorem quietNaN_toNat (p : BitVec 23) :
    (quietNaN p).toNat = p.toNat / 2 ^ 22 * 2 ^ 31 + 0x7FC00000 + p.toNat % 2 ^ 22 := by
  have := p.isLt
  unfold quietNaN
  rw [BitVec.toNat_ofNat]
  apply Nat.mod_eq_of_lt
  omega

/-- Whatever the free bits are, a generated NaN is a NaN. -/
@[simp] theorem isNaN_quietNaN (p : BitVec 23) : isNaN (quietNaN p) = true := by
  have := p.isLt
  unfold isNaN
  rw [fExp_eq, fFrac_eq, quietNaN_toNat]
  simp
  omega

/-- Whatever the free bits are, a generated NaN is quiet: bit 22 is set. -/
theorem quietNaN_bit22 (p : BitVec 23) : slice (quietNaN p) 22 22 = 1 := by
  have := p.isLt
  rw [slice_eq, quietNaN_toNat]
  omega

@[simp] theorem isNaN_freeNaN (o : FloatOp) (a b : Word) : isNaN (freeNaN o a b) = true := isNaN_quietNaN _

theorem isFinite_of_isNaN {a : Word} (h : isNaN a = true) : isFinite a = false := by
  unfold isNaN at h; unfold isFinite; simp at h ⊢; exact h.1

theorem isFinite_of_isInf {a : Word} (h : isInf a = true) : isFinite a = false := by
  unfold isInf at h; unfold isFinite; simp at h ⊢; exact h.1

/-- Every word is exactly one of finite, infinite, NaN. -/
theorem finite_or_inf_or_nan (a : Word) :
    isFinite a = true ∧ isInf a = false ∧ isNaN a = false ∨ isFinite a = false ∧ isInf a = true ∧ isNaN a = false ∨
      isFinite a = false ∧ isInf a = false ∧ isNaN a = true := by
  unfold isFinite isInf isNaN
  by_cases h1 : fExp a = 255 <;> by_cases h2 : fFrac a = 0 <;> simp [h1, h2]

/-! ## NaN operands -/

theorem fadd_nan {a b : Word} (h : isNaN a = true ∨ isNaN b = true) : fadd a b = freeNaN .add a b := by
  unfold fadd
  rw [if_pos (by simpa using h)]

theorem fmul_nan {a b : Word} (h : isNaN a = true ∨ isNaN b = true) : fmul a b = freeNaN .mul a b := by
  unfold fmul
  rw [if_pos (by simpa using h)]

theorem fdiv_nan {a b : Word} (h : isNaN a = true ∨ isNaN b = true) : fdiv a b = freeNaN .div a b := by
  unfold fdiv
  rw [if_pos (by simpa using h)]

theorem fgt_nan {a b : Word} (h : isNaN a = true ∨ isNaN b = true) : fgt a b = false := by
  unfold fgt; rcases h with h | h <;> simp [h]

theorem fge_nan {a b : Word} (h : isNaN a = true ∨ isNaN b = true) : fge a b = false := by
  unfold fge; rcases h with h | h <;> simp [h]

/-! ## Flipping the sign (R106) -/

theorem low_lt (a : Word) : slice a 30 0 < 2 ^ 31 := by rw [low_eq]; omega

@[simp] theorem fSign_fneg (a : Word) : fSign (fneg a) = !fSign a := fSign_fPack _ _ (low_lt a)

@[simp] theorem low_fneg (a : Word) : slice (fneg a) 30 0 = slice a 30 0 := low_fPack _ _ (low_lt a)

@[simp] theorem fExp_fneg (a : Word) : fExp (fneg a) = fExp a := by
  unfold fneg
  rw [fExp_fPack _ _ (low_lt a), low_eq, fExp_eq]
  omega

@[simp] theorem fFrac_fneg (a : Word) : fFrac (fneg a) = fFrac a := by
  unfold fneg
  rw [fFrac_fPack _ _ (low_lt a), low_eq, fFrac_eq]
  omega

@[simp] theorem isNaN_fneg (a : Word) : isNaN (fneg a) = isNaN a := by simp [isNaN]

@[simp] theorem isInf_fneg (a : Word) : isInf (fneg a) = isInf a := by simp [isInf]

@[simp] theorem isFinite_fneg (a : Word) : isFinite (fneg a) = isFinite a := by simp [isFinite]

@[simp] theorem fMag_fneg (a : Word) : fMag (fneg a) = fMag a := by simp [fMag]

@[simp] theorem fVal_fneg (a : Word) : fVal (fneg a) = -fVal a := by
  cases h : fSign a <;> simp [fVal, h]

/-- A word is its sign and its low bits. -/
theorem eq_fPack (a : Word) : a = fPack (fSign a) (slice a 30 0) := by
  apply BitVec.eq_of_toNat_eq
  rw [fPack_toNat _ _ (low_lt a), fSign_eq, low_eq]
  have := a.isLt
  by_cases h : 2 ^ 31 ≤ a.toNat <;>
    simp only [h, decide_true, decide_false, if_true, if_false, Bool.false_eq_true] <;> omega

/-- The flipped sign is bit 31 flipped (R106). -/
theorem fneg_eq_xor (a : Word) : fneg a = a ^^^ 0x80000000 := by
  have hl : (a ^^^ 0x80000000).toNat % 2 ^ 31 = a.toNat % 2 ^ 31 := by
    rw [BitVec.toNat_xor, Nat.xor_mod_two_pow]; exact Nat.xor_zero _
  have hh : (a ^^^ 0x80000000).toNat / 2 ^ 31 = a.toNat / 2 ^ 31 ^^^ 1 := by
    rw [BitVec.toNat_xor, Nat.xor_div_two_pow]; rfl
  have hs : fSign (a ^^^ 0x80000000) = !fSign a := by
    rw [fSign_eq, fSign_eq, ← decide_not, decide_eq_decide]
    have h1 := a.isLt
    obtain h | h : a.toNat / 2 ^ 31 = 0 ∨ a.toNat / 2 ^ 31 = 1 := by omega
    all_goals
      rw [h] at hh
      simp only [Nat.zero_xor, Nat.xor_self] at hh
      omega
  rw [eq_fPack (a ^^^ 0x80000000), hs, low_eq, hl, ← low_eq]
  rfl

/-! ## The order of the magnitudes (R105, R110) -/

/-- The low bits are the exponent and the fraction. -/
theorem low_parts (a : Word) : slice a 30 0 = fExp a * 2 ^ 23 + fFrac a := by
  rw [low_eq, fExp_eq, fFrac_eq]
  omega

theorem fFrac_lt (a : Word) : fFrac a < 2 ^ 23 := by rw [fFrac_eq]; omega

theorem fExp_lt (a : Word) : fExp a < 256 := by rw [fExp_eq]; omega

/-- A magnitude lies in the binade of its exponent. -/
theorem fMag_bounds (a : Word) :
    (fExp a = 0 → fMag a < 2 ^ 23) ∧
      (fExp a ≠ 0 → 2 ^ (fExp a + 22) ≤ fMag a ∧ fMag a < 2 ^ (fExp a + 23)) := by
  have hf := fFrac_lt a
  refine ⟨fun h => ?_, fun h => ?_⟩
  · unfold fMag; rw [if_pos h]; exact hf
  · unfold fMag
    rw [if_neg h]
    have e1 : (2 : Nat) ^ (fExp a + 22) = 2 ^ 23 * 2 ^ (fExp a - 1) := by
      rw [show fExp a + 22 = 23 + (fExp a - 1) by omega, Nat.pow_add]
    have e2 : (2 : Nat) ^ (fExp a + 23) = 2 ^ 24 * 2 ^ (fExp a - 1) := by
      rw [show fExp a + 23 = 24 + (fExp a - 1) by omega, Nat.pow_add]
    have hp : 0 < 2 ^ (fExp a - 1) := Nat.pow_pos (by decide)
    exact ⟨Nat.le_trans (Nat.le_of_eq e1) (Nat.mul_le_mul_right _ (by omega)),
      Nat.lt_of_lt_of_eq (Nat.mul_lt_mul_of_pos_right (by omega) hp) e2.symm⟩

/-- The low bits count the magnitudes upwards: a greater pattern is a greater magnitude. -/
theorem fMag_lt_of_low_lt {a b : Word} (h : slice a 30 0 < slice b 30 0) : fMag a < fMag b := by
  rw [low_parts, low_parts] at h
  have ha := fFrac_lt a
  have hb := fFrac_lt b
  rcases Nat.lt_trichotomy (fExp a) (fExp b) with he | he | he
  · have hbb := ((fMag_bounds b).2 (by omega)).1
    by_cases h0 : fExp a = 0
    · have h1 := (fMag_bounds a).1 h0
      have h2 : 2 ^ 23 ≤ 2 ^ (fExp b + 22) := Nat.pow_le_pow_right (by decide) (by omega)
      omega
    · have h1 := ((fMag_bounds a).2 h0).2
      have h2 : 2 ^ (fExp a + 23) ≤ 2 ^ (fExp b + 22) := Nat.pow_le_pow_right (by decide) (by omega)
      omega
  · have hm : fFrac a < fFrac b := by rw [he] at h; omega
    unfold fMag
    rw [he]
    split
    · exact hm
    · exact Nat.mul_lt_mul_of_pos_right (by omega) (Nat.pow_pos (by decide))
  · omega

/-- Magnitudes compare as the low bits do. -/
theorem fMag_lt_iff {a b : Word} : fMag a < fMag b ↔ slice a 30 0 < slice b 30 0 := by
  refine ⟨fun h => ?_, fMag_lt_of_low_lt⟩
  rcases Nat.lt_trichotomy (slice a 30 0) (slice b 30 0) with h' | h' | h'
  · exact h'
  · rw [low_parts, low_parts] at h'
    have ha := fFrac_lt a
    have hb := fFrac_lt b
    have he : fExp a = fExp b := by omega
    have hf : fFrac a = fFrac b := by omega
    unfold fMag at h
    rw [he, hf] at h
    exact absurd h (Nat.lt_irrefl _)
  · exact absurd (fMag_lt_of_low_lt h') (by omega)

/-- A magnitude is zero exactly if the low bits are. -/
theorem fMag_eq_zero_iff {a : Word} : fMag a = 0 ↔ slice a 30 0 = 0 := by
  have h0 : fMag 0 = 0 := by decide
  have hl : slice (0 : Word) 30 0 = 0 := by decide
  have h := @fMag_lt_iff 0 a
  rw [h0, hl] at h
  omega

/-- The values of finite words compare as their places in the order do (R110). -/
theorem fVal_lt_iff {a b : Word} : fVal a < fVal b ↔ fKey a < fKey b := by
  have h1 := @fMag_lt_iff a b
  have h2 := @fMag_lt_iff b a
  have h3 := @fMag_eq_zero_iff a
  have h4 := @fMag_eq_zero_iff b
  unfold fVal fKey
  cases fSign a <;> cases fSign b <;> simp only [Bool.false_eq_true, if_true, if_false] <;> omega

/-! ## Infinities (R105) -/

/-- The low bits of an infinity. -/
theorem low_isInf {a : Word} (h : isInf a = true) : slice a 30 0 = infLow := by
  obtain ⟨h1, h2⟩ : fExp a = 255 ∧ fFrac a = 0 := by simpa [isInf] using h
  rw [low_parts, h1, h2]
  rfl

/-- An infinity is known by its sign. -/
theorem isInf_eq {a : Word} (h : isInf a = true) : a = fPack (fSign a) infLow := by
  rw [← low_isInf h]
  exact eq_fPack a

end Sys2Proof.Machine
end

