-- ==== Sys2Proof/Laws/PerInstr.lean ====
section
/-! SUPPORT. What is said of every instruction as syntax, one lemma per constructor: a well-formed command's
word carries the opcode of its row in the opcode field (spec/30_encoding.md R85, R88). -/

namespace Sys2Proof

/-- The opcode column of R88. -/
def Instr.opcode : Instr → Nat
  | .nop => 0x00 | .reset => 0x01 | .render .. => 0x10 | .renderEnv .. => 0x10 | .alloc => 0x11 | .shrm => 0x12
  | .shrd => 0x13 | .ddec => 0x14 | .cscl => 0x15 | .sscl => 0x16 | .grow _ => 0x17 | .lnear _ => 0x20
  | .llin _ => 0x21 | .lcyc .. => 0x22 | .lchk _ => 0x23

/-- The word of a well-formed command has the command's opcode in `op[31:24]`. -/
def Laws.OpcodeField.Statement (i : Instr) : Prop :=
  WellFormed i = true → slice (encode i) 31 24 = i.opcode

theorem Laws.OpcodeField.nop : Laws.OpcodeField.Statement .nop :=
  fun _ => slice_commandWord_op _ _ _ _ _ _ _ (by decide) (by decide) (by decide)

theorem Laws.OpcodeField.reset : Laws.OpcodeField.Statement .reset :=
  fun _ => slice_commandWord_op _ _ _ _ _ _ _ (by decide) (by decide) (by decide)

theorem Laws.OpcodeField.render (c f a : Bool) (n : Nat) : Laws.OpcodeField.Statement (.render c f a n) :=
  fun h => slice_commandWord_op _ _ _ _ _ _ _ (by decide) (by decide) (by simpa [WellFormed] using h)

theorem Laws.OpcodeField.renderEnv (c f a : Bool) (t n : Nat) :
    Laws.OpcodeField.Statement (.renderEnv c f a t n) := by
  intro h
  simp only [WellFormed, Bool.and_eq_true, decide_eq_true_eq] at h
  exact slice_commandWord_op _ _ _ _ _ _ _ (by decide) h.1 h.2

theorem Laws.OpcodeField.alloc : Laws.OpcodeField.Statement .alloc :=
  fun _ => slice_commandWord_op _ _ _ _ _ _ _ (by decide) (by decide) (by decide)

theorem Laws.OpcodeField.shrm : Laws.OpcodeField.Statement .shrm :=
  fun _ => slice_commandWord_op _ _ _ _ _ _ _ (by decide) (by decide) (by decide)

theorem Laws.OpcodeField.shrd : Laws.OpcodeField.Statement .shrd :=
  fun _ => slice_commandWord_op _ _ _ _ _ _ _ (by decide) (by decide) (by decide)

theorem Laws.OpcodeField.ddec : Laws.OpcodeField.Statement .ddec :=
  fun _ => slice_commandWord_op _ _ _ _ _ _ _ (by decide) (by decide) (by decide)

theorem Laws.OpcodeField.cscl : Laws.OpcodeField.Statement .cscl :=
  fun _ => slice_commandWord_op _ _ _ _ _ _ _ (by decide) (by decide) (by decide)

theorem Laws.OpcodeField.sscl : Laws.OpcodeField.Statement .sscl :=
  fun _ => slice_commandWord_op _ _ _ _ _ _ _ (by decide) (by decide) (by decide)

theorem Laws.OpcodeField.grow (n : Nat) : Laws.OpcodeField.Statement (.grow n) :=
  fun h => slice_commandWord_op _ _ _ _ _ _ _ (by decide) (by decide) (by simpa [WellFormed] using h)

theorem Laws.OpcodeField.lnear (t : Nat) : Laws.OpcodeField.Statement (.lnear t) :=
  fun h => slice_commandWord_op _ _ _ _ _ _ _ (by decide) (by simpa [WellFormed] using h) (by decide)

theorem Laws.OpcodeField.llin (t : Nat) : Laws.OpcodeField.Statement (.llin t) :=
  fun h => slice_commandWord_op _ _ _ _ _ _ _ (by decide) (by simpa [WellFormed] using h) (by decide)

theorem Laws.OpcodeField.lcyc (k a : Bool) (t n : Nat) : Laws.OpcodeField.Statement (.lcyc k a t n) := by
  intro h
  simp only [WellFormed, Bool.and_eq_true, decide_eq_true_eq] at h
  exact slice_commandWord_op _ _ _ _ _ _ _ (by decide) h.1 h.2

theorem Laws.OpcodeField.lchk (t : Nat) : Laws.OpcodeField.Statement (.lchk t) :=
  fun h => slice_commandWord_op _ _ _ _ _ _ _ (by decide) (by simpa [WellFormed] using h) (by decide)

end Sys2Proof
end

