-- ==== Sys2Proof/Laws/State.lean ====
section
/-! SUPPORT. What each named update of the state leaves in each field: one lemma per field per update, true by
`rfl`, so that no proof unfolds a record update. -/

namespace Sys2Proof.Machine

open Sys2Proof

/-! the word memories: `State.setMem` -/

@[simp] theorem State.setMem_params (s : State) (m : Memory) : (s.setMem m).params = s.params := rfl
@[simp] theorem State.setMem_sticky (s : State) (m : Memory) : (s.setMem m).sticky = s.sticky := rfl
@[simp] theorem State.setMem_lastErr (s : State) (m : Memory) : (s.setMem m).lastErr = s.lastErr := rfl
@[simp] theorem State.setMem_lastCmd (s : State) (m : Memory) : (s.setMem m).lastCmd = s.lastCmd := rfl
@[simp] theorem State.setMem_errCnt (s : State) (m : Memory) : (s.setMem m).errCnt = s.errCnt := rfl
@[simp] theorem State.setMem_nlive (s : State) (m : Memory) : (s.setMem m).nlive = s.nlive := rfl
@[simp] theorem State.setMem_cap (s : State) (m : Memory) : (s.setMem m).cap = s.cap := rfl
@[simp] theorem State.setMem_capMax (s : State) (m : Memory) : (s.setMem m).capMax = s.capMax := rfl
@[simp] theorem State.setMem_growStep (s : State) (m : Memory) : (s.setMem m).growStep = s.growStep := rfl
@[simp] theorem State.setMem_sidx (s : State) (m : Memory) : (s.setMem m).sidx = s.sidx := rfl
@[simp] theorem State.setMem_thr (s : State) (m : Memory) : (s.setMem m).thr = s.thr := rfl
@[simp] theorem State.setMem_dt (s : State) (m : Memory) : (s.setMem m).dt = s.dt := rfl
@[simp] theorem State.setMem_kc1 (s : State) (m : Memory) : (s.setMem m).kc1 = s.kc1 := rfl
@[simp] theorem State.setMem_kc2 (s : State) (m : Memory) : (s.setMem m).kc2 = s.kc2 := rfl
@[simp] theorem State.setMem_ks (s : State) (m : Memory) : (s.setMem m).ks = s.ks := rfl
@[simp] theorem State.setMem_xin (s : State) (m : Memory) : (s.setMem m).xin = s.xin := rfl
@[simp] theorem State.setMem_xinc (s : State) (m : Memory) : (s.setMem m).xinc = s.xinc := rfl
@[simp] theorem State.setMem_xend (s : State) (m : Memory) : (s.setMem m).xend = s.xend := rfl
@[simp] theorem State.setMem_res (s : State) (m : Memory) : (s.setMem m).res = s.res := rfl
@[simp] theorem State.setMem_stage (s : State) (m : Memory) : (s.setMem m).stage = s.stage := rfl
@[simp] theorem State.setMem_lutd (s : State) (m : Memory) : (s.setMem m).lutd = s.lutd := rfl
@[simp] theorem State.setMem_mem (s : State) (m : Memory) : (s.setMem m).mem = m := rfl
@[simp] theorem State.setMem_pending (s : State) (m : Memory) : (s.setMem m).pending = s.pending := rfl
@[simp] theorem State.setMem_reads (s : State) (m : Memory) : (s.setMem m).reads = s.reads := rfl

/-! `NLIVE`: `State.setNlive` -/

@[simp] theorem State.setNlive_params (s : State) (n : Nat) : (s.setNlive n).params = s.params := rfl
@[simp] theorem State.setNlive_sticky (s : State) (n : Nat) : (s.setNlive n).sticky = s.sticky := rfl
@[simp] theorem State.setNlive_lastErr (s : State) (n : Nat) : (s.setNlive n).lastErr = s.lastErr := rfl
@[simp] theorem State.setNlive_lastCmd (s : State) (n : Nat) : (s.setNlive n).lastCmd = s.lastCmd := rfl
@[simp] theorem State.setNlive_errCnt (s : State) (n : Nat) : (s.setNlive n).errCnt = s.errCnt := rfl
@[simp] theorem State.setNlive_nlive (s : State) (n : Nat) : (s.setNlive n).nlive = n := rfl
@[simp] theorem State.setNlive_cap (s : State) (n : Nat) : (s.setNlive n).cap = s.cap := rfl
@[simp] theorem State.setNlive_capMax (s : State) (n : Nat) : (s.setNlive n).capMax = s.capMax := rfl
@[simp] theorem State.setNlive_growStep (s : State) (n : Nat) : (s.setNlive n).growStep = s.growStep := rfl
@[simp] theorem State.setNlive_sidx (s : State) (n : Nat) : (s.setNlive n).sidx = s.sidx := rfl
@[simp] theorem State.setNlive_thr (s : State) (n : Nat) : (s.setNlive n).thr = s.thr := rfl
@[simp] theorem State.setNlive_dt (s : State) (n : Nat) : (s.setNlive n).dt = s.dt := rfl
@[simp] theorem State.setNlive_kc1 (s : State) (n : Nat) : (s.setNlive n).kc1 = s.kc1 := rfl
@[simp] theorem State.setNlive_kc2 (s : State) (n : Nat) : (s.setNlive n).kc2 = s.kc2 := rfl
@[simp] theorem State.setNlive_ks (s : State) (n : Nat) : (s.setNlive n).ks = s.ks := rfl
@[simp] theorem State.setNlive_xin (s : State) (n : Nat) : (s.setNlive n).xin = s.xin := rfl
@[simp] theorem State.setNlive_xinc (s : State) (n : Nat) : (s.setNlive n).xinc = s.xinc := rfl
@[simp] theorem State.setNlive_xend (s : State) (n : Nat) : (s.setNlive n).xend = s.xend := rfl
@[simp] theorem State.setNlive_res (s : State) (n : Nat) : (s.setNlive n).res = s.res := rfl
@[simp] theorem State.setNlive_stage (s : State) (n : Nat) : (s.setNlive n).stage = s.stage := rfl
@[simp] theorem State.setNlive_lutd (s : State) (n : Nat) : (s.setNlive n).lutd = s.lutd := rfl
@[simp] theorem State.setNlive_mem (s : State) (n : Nat) : (s.setNlive n).mem = s.mem := rfl
@[simp] theorem State.setNlive_pending (s : State) (n : Nat) : (s.setNlive n).pending = s.pending := rfl
@[simp] theorem State.setNlive_reads (s : State) (n : Nat) : (s.setNlive n).reads = s.reads := rfl

/-! `CAP`: `State.setCap` -/

@[simp] theorem State.setCap_params (s : State) (n : Nat) : (s.setCap n).params = s.params := rfl
@[simp] theorem State.setCap_sticky (s : State) (n : Nat) : (s.setCap n).sticky = s.sticky := rfl
@[simp] theorem State.setCap_lastErr (s : State) (n : Nat) : (s.setCap n).lastErr = s.lastErr := rfl
@[simp] theorem State.setCap_lastCmd (s : State) (n : Nat) : (s.setCap n).lastCmd = s.lastCmd := rfl
@[simp] theorem State.setCap_errCnt (s : State) (n : Nat) : (s.setCap n).errCnt = s.errCnt := rfl
@[simp] theorem State.setCap_nlive (s : State) (n : Nat) : (s.setCap n).nlive = s.nlive := rfl
@[simp] theorem State.setCap_cap (s : State) (n : Nat) : (s.setCap n).cap = n := rfl
@[simp] theorem State.setCap_capMax (s : State) (n : Nat) : (s.setCap n).capMax = s.capMax := rfl
@[simp] theorem State.setCap_growStep (s : State) (n : Nat) : (s.setCap n).growStep = s.growStep := rfl
@[simp] theorem State.setCap_sidx (s : State) (n : Nat) : (s.setCap n).sidx = s.sidx := rfl
@[simp] theorem State.setCap_thr (s : State) (n : Nat) : (s.setCap n).thr = s.thr := rfl
@[simp] theorem State.setCap_dt (s : State) (n : Nat) : (s.setCap n).dt = s.dt := rfl
@[simp] theorem State.setCap_kc1 (s : State) (n : Nat) : (s.setCap n).kc1 = s.kc1 := rfl
@[simp] theorem State.setCap_kc2 (s : State) (n : Nat) : (s.setCap n).kc2 = s.kc2 := rfl
@[simp] theorem State.setCap_ks (s : State) (n : Nat) : (s.setCap n).ks = s.ks := rfl
@[simp] theorem State.setCap_xin (s : State) (n : Nat) : (s.setCap n).xin = s.xin := rfl
@[simp] theorem State.setCap_xinc (s : State) (n : Nat) : (s.setCap n).xinc = s.xinc := rfl
@[simp] theorem State.setCap_xend (s : State) (n : Nat) : (s.setCap n).xend = s.xend := rfl
@[simp] theorem State.setCap_res (s : State) (n : Nat) : (s.setCap n).res = s.res := rfl
@[simp] theorem State.setCap_stage (s : State) (n : Nat) : (s.setCap n).stage = s.stage := rfl
@[simp] theorem State.setCap_lutd (s : State) (n : Nat) : (s.setCap n).lutd = s.lutd := rfl
@[simp] theorem State.setCap_mem (s : State) (n : Nat) : (s.setCap n).mem = s.mem := rfl
@[simp] theorem State.setCap_pending (s : State) (n : Nat) : (s.setCap n).pending = s.pending := rfl
@[simp] theorem State.setCap_reads (s : State) (n : Nat) : (s.setCap n).reads = s.reads := rfl

/-! `SIDX`: `State.setSidx` -/

@[simp] theorem State.setSidx_params (s : State) (v : Word) : (s.setSidx v).params = s.params := rfl
@[simp] theorem State.setSidx_sticky (s : State) (v : Word) : (s.setSidx v).sticky = s.sticky := rfl
@[simp] theorem State.setSidx_lastErr (s : State) (v : Word) : (s.setSidx v).lastErr = s.lastErr := rfl
@[simp] theorem State.setSidx_lastCmd (s : State) (v : Word) : (s.setSidx v).lastCmd = s.lastCmd := rfl
@[simp] theorem State.setSidx_errCnt (s : State) (v : Word) : (s.setSidx v).errCnt = s.errCnt := rfl
@[simp] theorem State.setSidx_nlive (s : State) (v : Word) : (s.setSidx v).nlive = s.nlive := rfl
@[simp] theorem State.setSidx_cap (s : State) (v : Word) : (s.setSidx v).cap = s.cap := rfl
@[simp] theorem State.setSidx_capMax (s : State) (v : Word) : (s.setSidx v).capMax = s.capMax := rfl
@[simp] theorem State.setSidx_growStep (s : State) (v : Word) : (s.setSidx v).growStep = s.growStep := rfl
@[simp] theorem State.setSidx_sidx (s : State) (v : Word) : (s.setSidx v).sidx = v := rfl
@[simp] theorem State.setSidx_thr (s : State) (v : Word) : (s.setSidx v).thr = s.thr := rfl
@[simp] theorem State.setSidx_dt (s : State) (v : Word) : (s.setSidx v).dt = s.dt := rfl
@[simp] theorem State.setSidx_kc1 (s : State) (v : Word) : (s.setSidx v).kc1 = s.kc1 := rfl
@[simp] theorem State.setSidx_kc2 (s : State) (v : Word) : (s.setSidx v).kc2 = s.kc2 := rfl
@[simp] theorem State.setSidx_ks (s : State) (v : Word) : (s.setSidx v).ks = s.ks := rfl
@[simp] theorem State.setSidx_xin (s : State) (v : Word) : (s.setSidx v).xin = s.xin := rfl
@[simp] theorem State.setSidx_xinc (s : State) (v : Word) : (s.setSidx v).xinc = s.xinc := rfl
@[simp] theorem State.setSidx_xend (s : State) (v : Word) : (s.setSidx v).xend = s.xend := rfl
@[simp] theorem State.setSidx_res (s : State) (v : Word) : (s.setSidx v).res = s.res := rfl
@[simp] theorem State.setSidx_stage (s : State) (v : Word) : (s.setSidx v).stage = s.stage := rfl
@[simp] theorem State.setSidx_lutd (s : State) (v : Word) : (s.setSidx v).lutd = s.lutd := rfl
@[simp] theorem State.setSidx_mem (s : State) (v : Word) : (s.setSidx v).mem = s.mem := rfl
@[simp] theorem State.setSidx_pending (s : State) (v : Word) : (s.setSidx v).pending = s.pending := rfl
@[simp] theorem State.setSidx_reads (s : State) (v : Word) : (s.setSidx v).reads = s.reads := rfl

/-! `RES`: `State.setRes` -/

@[simp] theorem State.setRes_params (s : State) (v : Word) : (s.setRes v).params = s.params := rfl
@[simp] theorem State.setRes_sticky (s : State) (v : Word) : (s.setRes v).sticky = s.sticky := rfl
@[simp] theorem State.setRes_lastErr (s : State) (v : Word) : (s.setRes v).lastErr = s.lastErr := rfl
@[simp] theorem State.setRes_lastCmd (s : State) (v : Word) : (s.setRes v).lastCmd = s.lastCmd := rfl
@[simp] theorem State.setRes_errCnt (s : State) (v : Word) : (s.setRes v).errCnt = s.errCnt := rfl
@[simp] theorem State.setRes_nlive (s : State) (v : Word) : (s.setRes v).nlive = s.nlive := rfl
@[simp] theorem State.setRes_cap (s : State) (v : Word) : (s.setRes v).cap = s.cap := rfl
@[simp] theorem State.setRes_capMax (s : State) (v : Word) : (s.setRes v).capMax = s.capMax := rfl
@[simp] theorem State.setRes_growStep (s : State) (v : Word) : (s.setRes v).growStep = s.growStep := rfl
@[simp] theorem State.setRes_sidx (s : State) (v : Word) : (s.setRes v).sidx = s.sidx := rfl
@[simp] theorem State.setRes_thr (s : State) (v : Word) : (s.setRes v).thr = s.thr := rfl
@[simp] theorem State.setRes_dt (s : State) (v : Word) : (s.setRes v).dt = s.dt := rfl
@[simp] theorem State.setRes_kc1 (s : State) (v : Word) : (s.setRes v).kc1 = s.kc1 := rfl
@[simp] theorem State.setRes_kc2 (s : State) (v : Word) : (s.setRes v).kc2 = s.kc2 := rfl
@[simp] theorem State.setRes_ks (s : State) (v : Word) : (s.setRes v).ks = s.ks := rfl
@[simp] theorem State.setRes_xin (s : State) (v : Word) : (s.setRes v).xin = s.xin := rfl
@[simp] theorem State.setRes_xinc (s : State) (v : Word) : (s.setRes v).xinc = s.xinc := rfl
@[simp] theorem State.setRes_xend (s : State) (v : Word) : (s.setRes v).xend = s.xend := rfl
@[simp] theorem State.setRes_res (s : State) (v : Word) : (s.setRes v).res = v := rfl
@[simp] theorem State.setRes_stage (s : State) (v : Word) : (s.setRes v).stage = s.stage := rfl
@[simp] theorem State.setRes_lutd (s : State) (v : Word) : (s.setRes v).lutd = s.lutd := rfl
@[simp] theorem State.setRes_mem (s : State) (v : Word) : (s.setRes v).mem = s.mem := rfl
@[simp] theorem State.setRes_pending (s : State) (v : Word) : (s.setRes v).pending = s.pending := rfl
@[simp] theorem State.setRes_reads (s : State) (v : Word) : (s.setRes v).reads = s.reads := rfl

/-! `STATUS.CAPPED`: `State.setCapped` -/

@[simp] theorem State.setCapped_params (s : State) : (s.setCapped).params = s.params := rfl
@[simp] theorem State.setCapped_sticky (s : State) : (s.setCapped).sticky = s.sticky ||| cappedBit := rfl
@[simp] theorem State.setCapped_lastErr (s : State) : (s.setCapped).lastErr = s.lastErr := rfl
@[simp] theorem State.setCapped_lastCmd (s : State) : (s.setCapped).lastCmd = s.lastCmd := rfl
@[simp] theorem State.setCapped_errCnt (s : State) : (s.setCapped).errCnt = s.errCnt := rfl
@[simp] theorem State.setCapped_nlive (s : State) : (s.setCapped).nlive = s.nlive := rfl
@[simp] theorem State.setCapped_cap (s : State) : (s.setCapped).cap = s.cap := rfl
@[simp] theorem State.setCapped_capMax (s : State) : (s.setCapped).capMax = s.capMax := rfl
@[simp] theorem State.setCapped_growStep (s : State) : (s.setCapped).growStep = s.growStep := rfl
@[simp] theorem State.setCapped_sidx (s : State) : (s.setCapped).sidx = s.sidx := rfl
@[simp] theorem State.setCapped_thr (s : State) : (s.setCapped).thr = s.thr := rfl
@[simp] theorem State.setCapped_dt (s : State) : (s.setCapped).dt = s.dt := rfl
@[simp] theorem State.setCapped_kc1 (s : State) : (s.setCapped).kc1 = s.kc1 := rfl
@[simp] theorem State.setCapped_kc2 (s : State) : (s.setCapped).kc2 = s.kc2 := rfl
@[simp] theorem State.setCapped_ks (s : State) : (s.setCapped).ks = s.ks := rfl
@[simp] theorem State.setCapped_xin (s : State) : (s.setCapped).xin = s.xin := rfl
@[simp] theorem State.setCapped_xinc (s : State) : (s.setCapped).xinc = s.xinc := rfl
@[simp] theorem State.setCapped_xend (s : State) : (s.setCapped).xend = s.xend := rfl
@[simp] theorem State.setCapped_res (s : State) : (s.setCapped).res = s.res := rfl
@[simp] theorem State.setCapped_stage (s : State) : (s.setCapped).stage = s.stage := rfl
@[simp] theorem State.setCapped_lutd (s : State) : (s.setCapped).lutd = s.lutd := rfl
@[simp] theorem State.setCapped_mem (s : State) : (s.setCapped).mem = s.mem := rfl
@[simp] theorem State.setCapped_pending (s : State) : (s.setCapped).pending = s.pending := rfl
@[simp] theorem State.setCapped_reads (s : State) : (s.setCapped).reads = s.reads := rfl

/-! the error record: `State.fail` -/

@[simp] theorem State.fail_params (s : State) (c : ErrCode) (w : Word) : (s.fail c w).params = s.params := rfl
@[simp] theorem State.fail_sticky (s : State) (c : ErrCode) (w : Word) : (s.fail c w).sticky = s.sticky ||| c.stickyBit := rfl
@[simp] theorem State.fail_lastErr (s : State) (c : ErrCode) (w : Word) : (s.fail c w).lastErr = BitVec.ofNat 8 c.number := rfl
@[simp] theorem State.fail_lastCmd (s : State) (c : ErrCode) (w : Word) : (s.fail c w).lastCmd = w := rfl
@[simp] theorem State.fail_errCnt (s : State) (c : ErrCode) (w : Word) : (s.fail c w).errCnt = satAdd32 s.errCnt 1 := rfl
@[simp] theorem State.fail_nlive (s : State) (c : ErrCode) (w : Word) : (s.fail c w).nlive = s.nlive := rfl
@[simp] theorem State.fail_cap (s : State) (c : ErrCode) (w : Word) : (s.fail c w).cap = s.cap := rfl
@[simp] theorem State.fail_capMax (s : State) (c : ErrCode) (w : Word) : (s.fail c w).capMax = s.capMax := rfl
@[simp] theorem State.fail_growStep (s : State) (c : ErrCode) (w : Word) : (s.fail c w).growStep = s.growStep := rfl
@[simp] theorem State.fail_sidx (s : State) (c : ErrCode) (w : Word) : (s.fail c w).sidx = s.sidx := rfl
@[simp] theorem State.fail_thr (s : State) (c : ErrCode) (w : Word) : (s.fail c w).thr = s.thr := rfl
@[simp] theorem State.fail_dt (s : State) (c : ErrCode) (w : Word) : (s.fail c w).dt = s.dt := rfl
@[simp] theorem State.fail_kc1 (s : State) (c : ErrCode) (w : Word) : (s.fail c w).kc1 = s.kc1 := rfl
@[simp] theorem State.fail_kc2 (s : State) (c : ErrCode) (w : Word) : (s.fail c w).kc2 = s.kc2 := rfl
@[simp] theorem State.fail_ks (s : State) (c : ErrCode) (w : Word) : (s.fail c w).ks = s.ks := rfl
@[simp] theorem State.fail_xin (s : State) (c : ErrCode) (w : Word) : (s.fail c w).xin = s.xin := rfl
@[simp] theorem State.fail_xinc (s : State) (c : ErrCode) (w : Word) : (s.fail c w).xinc = s.xinc := rfl
@[simp] theorem State.fail_xend (s : State) (c : ErrCode) (w : Word) : (s.fail c w).xend = s.xend := rfl
@[simp] theorem State.fail_res (s : State) (c : ErrCode) (w : Word) : (s.fail c w).res = s.res := rfl
@[simp] theorem State.fail_stage (s : State) (c : ErrCode) (w : Word) : (s.fail c w).stage = s.stage := rfl
@[simp] theorem State.fail_lutd (s : State) (c : ErrCode) (w : Word) : (s.fail c w).lutd = s.lutd := rfl
@[simp] theorem State.fail_mem (s : State) (c : ErrCode) (w : Word) : (s.fail c w).mem = s.mem := rfl
@[simp] theorem State.fail_pending (s : State) (c : ErrCode) (w : Word) : (s.fail c w).pending = s.pending := rfl
@[simp] theorem State.fail_reads (s : State) (c : ErrCode) (w : Word) : (s.fail c w).reads = s.reads := rfl

/-! the sticky bits: `State.clearSticky` -/

@[simp] theorem State.clearSticky_params (s : State) (v : Word) : (s.clearSticky v).params = s.params := rfl
@[simp] theorem State.clearSticky_sticky (s : State) (v : Word) : (s.clearSticky v).sticky = s.sticky &&& ~~~(BitVec.ofNat 5 (slice v 12 8)) := rfl
@[simp] theorem State.clearSticky_lastErr (s : State) (v : Word) : (s.clearSticky v).lastErr = s.lastErr := rfl
@[simp] theorem State.clearSticky_lastCmd (s : State) (v : Word) : (s.clearSticky v).lastCmd = s.lastCmd := rfl
@[simp] theorem State.clearSticky_errCnt (s : State) (v : Word) : (s.clearSticky v).errCnt = s.errCnt := rfl
@[simp] theorem State.clearSticky_nlive (s : State) (v : Word) : (s.clearSticky v).nlive = s.nlive := rfl
@[simp] theorem State.clearSticky_cap (s : State) (v : Word) : (s.clearSticky v).cap = s.cap := rfl
@[simp] theorem State.clearSticky_capMax (s : State) (v : Word) : (s.clearSticky v).capMax = s.capMax := rfl
@[simp] theorem State.clearSticky_growStep (s : State) (v : Word) : (s.clearSticky v).growStep = s.growStep := rfl
@[simp] theorem State.clearSticky_sidx (s : State) (v : Word) : (s.clearSticky v).sidx = s.sidx := rfl
@[simp] theorem State.clearSticky_thr (s : State) (v : Word) : (s.clearSticky v).thr = s.thr := rfl
@[simp] theorem State.clearSticky_dt (s : State) (v : Word) : (s.clearSticky v).dt = s.dt := rfl
@[simp] theorem State.clearSticky_kc1 (s : State) (v : Word) : (s.clearSticky v).kc1 = s.kc1 := rfl
@[simp] theorem State.clearSticky_kc2 (s : State) (v : Word) : (s.clearSticky v).kc2 = s.kc2 := rfl
@[simp] theorem State.clearSticky_ks (s : State) (v : Word) : (s.clearSticky v).ks = s.ks := rfl
@[simp] theorem State.clearSticky_xin (s : State) (v : Word) : (s.clearSticky v).xin = s.xin := rfl
@[simp] theorem State.clearSticky_xinc (s : State) (v : Word) : (s.clearSticky v).xinc = s.xinc := rfl
@[simp] theorem State.clearSticky_xend (s : State) (v : Word) : (s.clearSticky v).xend = s.xend := rfl
@[simp] theorem State.clearSticky_res (s : State) (v : Word) : (s.clearSticky v).res = s.res := rfl
@[simp] theorem State.clearSticky_stage (s : State) (v : Word) : (s.clearSticky v).stage = s.stage := rfl
@[simp] theorem State.clearSticky_lutd (s : State) (v : Word) : (s.clearSticky v).lutd = s.lutd := rfl
@[simp] theorem State.clearSticky_mem (s : State) (v : Word) : (s.clearSticky v).mem = s.mem := rfl
@[simp] theorem State.clearSticky_pending (s : State) (v : Word) : (s.clearSticky v).pending = s.pending := rfl
@[simp] theorem State.clearSticky_reads (s : State) (v : Word) : (s.clearSticky v).reads = s.reads := rfl

/-! the error log: `State.clearLog` -/

@[simp] theorem State.clearLog_params (s : State) : (s.clearLog).params = s.params := rfl
@[simp] theorem State.clearLog_sticky (s : State) : (s.clearLog).sticky = s.sticky := rfl
@[simp] theorem State.clearLog_lastErr (s : State) : (s.clearLog).lastErr = 0 := rfl
@[simp] theorem State.clearLog_lastCmd (s : State) : (s.clearLog).lastCmd = 0 := rfl
@[simp] theorem State.clearLog_errCnt (s : State) : (s.clearLog).errCnt = 0 := rfl
@[simp] theorem State.clearLog_nlive (s : State) : (s.clearLog).nlive = s.nlive := rfl
@[simp] theorem State.clearLog_cap (s : State) : (s.clearLog).cap = s.cap := rfl
@[simp] theorem State.clearLog_capMax (s : State) : (s.clearLog).capMax = s.capMax := rfl
@[simp] theorem State.clearLog_growStep (s : State) : (s.clearLog).growStep = s.growStep := rfl
@[simp] theorem State.clearLog_sidx (s : State) : (s.clearLog).sidx = s.sidx := rfl
@[simp] theorem State.clearLog_thr (s : State) : (s.clearLog).thr = s.thr := rfl
@[simp] theorem State.clearLog_dt (s : State) : (s.clearLog).dt = s.dt := rfl
@[simp] theorem State.clearLog_kc1 (s : State) : (s.clearLog).kc1 = s.kc1 := rfl
@[simp] theorem State.clearLog_kc2 (s : State) : (s.clearLog).kc2 = s.kc2 := rfl
@[simp] theorem State.clearLog_ks (s : State) : (s.clearLog).ks = s.ks := rfl
@[simp] theorem State.clearLog_xin (s : State) : (s.clearLog).xin = s.xin := rfl
@[simp] theorem State.clearLog_xinc (s : State) : (s.clearLog).xinc = s.xinc := rfl
@[simp] theorem State.clearLog_xend (s : State) : (s.clearLog).xend = s.xend := rfl
@[simp] theorem State.clearLog_res (s : State) : (s.clearLog).res = s.res := rfl
@[simp] theorem State.clearLog_stage (s : State) : (s.clearLog).stage = s.stage := rfl
@[simp] theorem State.clearLog_lutd (s : State) : (s.clearLog).lutd = s.lutd := rfl
@[simp] theorem State.clearLog_mem (s : State) : (s.clearLog).mem = s.mem := rfl
@[simp] theorem State.clearLog_pending (s : State) : (s.clearLog).pending = s.pending := rfl
@[simp] theorem State.clearLog_reads (s : State) : (s.clearLog).reads = s.reads := rfl

/-! one staging register: `State.setStaged` -/

@[simp] theorem State.setStaged_params (s : State) (f : Field) (v : Word) : (s.setStaged f v).params = s.params := rfl
@[simp] theorem State.setStaged_sticky (s : State) (f : Field) (v : Word) : (s.setStaged f v).sticky = s.sticky := rfl
@[simp] theorem State.setStaged_lastErr (s : State) (f : Field) (v : Word) : (s.setStaged f v).lastErr = s.lastErr := rfl
@[simp] theorem State.setStaged_lastCmd (s : State) (f : Field) (v : Word) : (s.setStaged f v).lastCmd = s.lastCmd := rfl
@[simp] theorem State.setStaged_errCnt (s : State) (f : Field) (v : Word) : (s.setStaged f v).errCnt = s.errCnt := rfl
@[simp] theorem State.setStaged_nlive (s : State) (f : Field) (v : Word) : (s.setStaged f v).nlive = s.nlive := rfl
@[simp] theorem State.setStaged_cap (s : State) (f : Field) (v : Word) : (s.setStaged f v).cap = s.cap := rfl
@[simp] theorem State.setStaged_capMax (s : State) (f : Field) (v : Word) : (s.setStaged f v).capMax = s.capMax := rfl
@[simp] theorem State.setStaged_growStep (s : State) (f : Field) (v : Word) : (s.setStaged f v).growStep = s.growStep := rfl
@[simp] theorem State.setStaged_sidx (s : State) (f : Field) (v : Word) : (s.setStaged f v).sidx = s.sidx := rfl
@[simp] theorem State.setStaged_thr (s : State) (f : Field) (v : Word) : (s.setStaged f v).thr = s.thr := rfl
@[simp] theorem State.setStaged_dt (s : State) (f : Field) (v : Word) : (s.setStaged f v).dt = s.dt := rfl
@[simp] theorem State.setStaged_kc1 (s : State) (f : Field) (v : Word) : (s.setStaged f v).kc1 = s.kc1 := rfl
@[simp] theorem State.setStaged_kc2 (s : State) (f : Field) (v : Word) : (s.setStaged f v).kc2 = s.kc2 := rfl
@[simp] theorem State.setStaged_ks (s : State) (f : Field) (v : Word) : (s.setStaged f v).ks = s.ks := rfl
@[simp] theorem State.setStaged_xin (s : State) (f : Field) (v : Word) : (s.setStaged f v).xin = s.xin := rfl
@[simp] theorem State.setStaged_xinc (s : State) (f : Field) (v : Word) : (s.setStaged f v).xinc = s.xinc := rfl
@[simp] theorem State.setStaged_xend (s : State) (f : Field) (v : Word) : (s.setStaged f v).xend = s.xend := rfl
@[simp] theorem State.setStaged_res (s : State) (f : Field) (v : Word) : (s.setStaged f v).res = s.res := rfl
@[simp] theorem State.setStaged_stage (s : State) (f : Field) (v : Word) : (s.setStaged f v).stage = s.stage.setIfInBounds f.index v := rfl
@[simp] theorem State.setStaged_lutd (s : State) (f : Field) (v : Word) : (s.setStaged f v).lutd = s.lutd := rfl
@[simp] theorem State.setStaged_mem (s : State) (f : Field) (v : Word) : (s.setStaged f v).mem = s.mem := rfl
@[simp] theorem State.setStaged_pending (s : State) (f : Field) (v : Word) : (s.setStaged f v).pending = s.pending := rfl
@[simp] theorem State.setStaged_reads (s : State) (f : Field) (v : Word) : (s.setStaged f v).reads = s.reads := rfl

/-! one descriptor: `State.setLut` -/

@[simp] theorem State.setLut_params (s : State) (t : Nat) (d : Descriptor) : (s.setLut t d).params = s.params := rfl
@[simp] theorem State.setLut_sticky (s : State) (t : Nat) (d : Descriptor) : (s.setLut t d).sticky = s.sticky := rfl
@[simp] theorem State.setLut_lastErr (s : State) (t : Nat) (d : Descriptor) : (s.setLut t d).lastErr = s.lastErr := rfl
@[simp] theorem State.setLut_lastCmd (s : State) (t : Nat) (d : Descriptor) : (s.setLut t d).lastCmd = s.lastCmd := rfl
@[simp] theorem State.setLut_errCnt (s : State) (t : Nat) (d : Descriptor) : (s.setLut t d).errCnt = s.errCnt := rfl
@[simp] theorem State.setLut_nlive (s : State) (t : Nat) (d : Descriptor) : (s.setLut t d).nlive = s.nlive := rfl
@[simp] theorem State.setLut_cap (s : State) (t : Nat) (d : Descriptor) : (s.setLut t d).cap = s.cap := rfl
@[simp] theorem State.setLut_capMax (s : State) (t : Nat) (d : Descriptor) : (s.setLut t d).capMax = s.capMax := rfl
@[simp] theorem State.setLut_growStep (s : State) (t : Nat) (d : Descriptor) : (s.setLut t d).growStep = s.growStep := rfl
@[simp] theorem State.setLut_sidx (s : State) (t : Nat) (d : Descriptor) : (s.setLut t d).sidx = s.sidx := rfl
@[simp] theorem State.setLut_thr (s : State) (t : Nat) (d : Descriptor) : (s.setLut t d).thr = s.thr := rfl
@[simp] theorem State.setLut_dt (s : State) (t : Nat) (d : Descriptor) : (s.setLut t d).dt = s.dt := rfl
@[simp] theorem State.setLut_kc1 (s : State) (t : Nat) (d : Descriptor) : (s.setLut t d).kc1 = s.kc1 := rfl
@[simp] theorem State.setLut_kc2 (s : State) (t : Nat) (d : Descriptor) : (s.setLut t d).kc2 = s.kc2 := rfl
@[simp] theorem State.setLut_ks (s : State) (t : Nat) (d : Descriptor) : (s.setLut t d).ks = s.ks := rfl
@[simp] theorem State.setLut_xin (s : State) (t : Nat) (d : Descriptor) : (s.setLut t d).xin = s.xin := rfl
@[simp] theorem State.setLut_xinc (s : State) (t : Nat) (d : Descriptor) : (s.setLut t d).xinc = s.xinc := rfl
@[simp] theorem State.setLut_xend (s : State) (t : Nat) (d : Descriptor) : (s.setLut t d).xend = s.xend := rfl
@[simp] theorem State.setLut_res (s : State) (t : Nat) (d : Descriptor) : (s.setLut t d).res = s.res := rfl
@[simp] theorem State.setLut_stage (s : State) (t : Nat) (d : Descriptor) : (s.setLut t d).stage = s.stage := rfl
@[simp] theorem State.setLut_lutd (s : State) (t : Nat) (d : Descriptor) : (s.setLut t d).lutd = s.lutd.setIfInBounds t d := rfl
@[simp] theorem State.setLut_mem (s : State) (t : Nat) (d : Descriptor) : (s.setLut t d).mem = s.mem := rfl
@[simp] theorem State.setLut_pending (s : State) (t : Nat) (d : Descriptor) : (s.setLut t d).pending = s.pending := rfl
@[simp] theorem State.setLut_reads (s : State) (t : Nat) (d : Descriptor) : (s.setLut t d).reads = s.reads := rfl

/-! What the updates leave of the derived reads. -/

@[simp] theorem State.lut_setMem (s : State) (m : Memory) (t : Nat) : (s.setMem m).lut t = s.lut t := rfl
@[simp] theorem State.staged_setMem (s : State) (m : Memory) (f : Field) : (s.setMem m).staged f = s.staged f := rfl
@[simp] theorem State.storageOk_setMem (s : State) (m : Memory) (t : Nat) :
    (s.setMem m).storageOk t = s.storageOk t := rfl
@[simp] theorem State.curveOk_setMem (s : State) (m : Memory) (t : Nat) :
    (s.setMem m).curveOk t = s.curveOk t := rfl
@[simp] theorem State.staged_setCap (s : State) (n : Nat) (f : Field) : (s.setCap n).staged f = s.staged f := rfl

end Sys2Proof.Machine
end

