-- ==== Sys2Proof/Laws/Pool.lean ====
section
/-! SUPPORT. The laws of the voice pool: rounding to the lane width, the grown capacity, the scan of `SHRM`, the
appended slot, the loop of `SHRD` (spec/42_voice_pool.md, spec/40_numerics.md R118). -/

namespace Sys2Proof.Machine

open Sys2Proof

/-! ## Rounding to the lane width -/

theorem roundUp_spec {w : Nat} (hw : 0 < w) (n : Nat) : n ≤ roundUp w n ∧ roundUp w n < n + w := by
  unfold roundUp
  have h1 := Nat.div_add_mod (n + w - 1) w
  have h2 := Nat.mod_lt (n + w - 1) hw
  omega

theorem roundUp_mod (w n : Nat) : roundUp w n % w = 0 := Nat.mul_mod_right _ _

theorem roundDown_mod (w n : Nat) : roundDown w n % w = 0 := Nat.mul_mod_right _ _

theorem roundDown_le (w n : Nat) : roundDown w n ≤ n := Nat.mul_div_le n w

/-- A multiple of the width at or above `n` is at or above `n` rounded up. -/
theorem roundUp_le {w : Nat} (hw : 0 < w) {n m : Nat} (h : n ≤ m) (hm : m % w = 0) : roundUp w n ≤ m := by
  obtain ⟨h1, h2⟩ := roundUp_spec hw n
  obtain ⟨q, rfl⟩ := Nat.dvd_of_mod_eq_zero hm
  unfold roundUp at *
  refine Nat.mul_le_mul_left w ?_
  by_contra hc
  have : w * (q + 1) ≤ w * ((n + w - 1) / w) := Nat.mul_le_mul_left w (by omega)
  rw [Nat.mul_succ] at this
  omega

/-- Rounding up is monotone. -/
theorem roundUp_mono {w : Nat} {n m : Nat} (h : n ≤ m) : roundUp w n ≤ roundUp w m :=
  Nat.mul_le_mul_left w (Nat.div_le_div_right (by omega))

theorem min_mod {w a b : Nat} (ha : a % w = 0) (hb : b % w = 0) : min a b % w = 0 := by
  rcases Nat.le_total a b with h | h <;> simp [h, ha, hb]

theorem max_mod {w a b : Nat} (ha : a % w = 0) (hb : b % w = 0) : max a b % w = 0 := by
  rcases Nat.le_total a b with h | h <;> simp [h, ha, hb]

/-- Everything the grown capacity is: a multiple of the width, between the old capacity and the maximum (R146). -/
theorem State.grownCap_spec {s : State} (hw : 0 < s.params.w) (hc : s.cap ≤ s.capMax)
    (hm : s.capMax % s.params.w = 0) (k : Nat) :
    s.cap ≤ s.grownCap k ∧ s.grownCap k ≤ s.capMax ∧ s.grownCap k % s.params.w = 0 := by
  have := (roundUp_spec hw (s.cap + k)).1
  refine ⟨?_, Nat.min_le_right _ _, min_mod (roundUp_mod _ _) hm⟩
  unfold State.grownCap
  omega

/-! ## ALLOC -/

/-- Everything the append does to memory (R147): the eleven words of slot `NLIVE` and nothing else. -/
theorem State.appendStaged_mem {s : State} (h : s.mem.wf) (hn : s.nlive < oscStride) :
    Memory.Wrote (fun a => ∃ f : Field, a = oscAddr f s.nlive) s.mem s.appendStaged.mem ∧
      ∀ f : Field, s.appendStaged.mem.osc f s.nlive = s.staged f := by
  refine ⟨?_, fun f => ?_⟩
  · exact Memory.wrote_foldl _ s.mem (fun f _ m' => Memory.wrote_setOsc m' f s.nlive _ ⟨f, rfl⟩)
  · exact (Memory.foldl_setOsc (v := s.staged) s.nlive hn Field.all s.mem h).2.2.2 f (Field.mem_all f)

/-! What the append leaves of each field. -/

@[simp] theorem State.appendStaged_nlive (s : State) : s.appendStaged.nlive = s.nlive + 1 := by
  simp only [State.appendStaged, State.setNlive_nlive]
@[simp] theorem State.appendStaged_params (s : State) : s.appendStaged.params = s.params := by
  simp only [State.appendStaged, State.setNlive_params, State.setMem_params]
@[simp] theorem State.appendStaged_sticky (s : State) : s.appendStaged.sticky = s.sticky := by
  simp only [State.appendStaged, State.setNlive_sticky, State.setMem_sticky]
@[simp] theorem State.appendStaged_lastErr (s : State) : s.appendStaged.lastErr = s.lastErr := by
  simp only [State.appendStaged, State.setNlive_lastErr, State.setMem_lastErr]
@[simp] theorem State.appendStaged_lastCmd (s : State) : s.appendStaged.lastCmd = s.lastCmd := by
  simp only [State.appendStaged, State.setNlive_lastCmd, State.setMem_lastCmd]
@[simp] theorem State.appendStaged_errCnt (s : State) : s.appendStaged.errCnt = s.errCnt := by
  simp only [State.appendStaged, State.setNlive_errCnt, State.setMem_errCnt]
@[simp] theorem State.appendStaged_cap (s : State) : s.appendStaged.cap = s.cap := by
  simp only [State.appendStaged, State.setNlive_cap, State.setMem_cap]
@[simp] theorem State.appendStaged_capMax (s : State) : s.appendStaged.capMax = s.capMax := by
  simp only [State.appendStaged, State.setNlive_capMax, State.setMem_capMax]
@[simp] theorem State.appendStaged_growStep (s : State) : s.appendStaged.growStep = s.growStep := by
  simp only [State.appendStaged, State.setNlive_growStep, State.setMem_growStep]
@[simp] theorem State.appendStaged_sidx (s : State) : s.appendStaged.sidx = s.sidx := by
  simp only [State.appendStaged, State.setNlive_sidx, State.setMem_sidx]
@[simp] theorem State.appendStaged_thr (s : State) : s.appendStaged.thr = s.thr := by
  simp only [State.appendStaged, State.setNlive_thr, State.setMem_thr]
@[simp] theorem State.appendStaged_dt (s : State) : s.appendStaged.dt = s.dt := by
  simp only [State.appendStaged, State.setNlive_dt, State.setMem_dt]
@[simp] theorem State.appendStaged_kc1 (s : State) : s.appendStaged.kc1 = s.kc1 := by
  simp only [State.appendStaged, State.setNlive_kc1, State.setMem_kc1]
@[simp] theorem State.appendStaged_kc2 (s : State) : s.appendStaged.kc2 = s.kc2 := by
  simp only [State.appendStaged, State.setNlive_kc2, State.setMem_kc2]
@[simp] theorem State.appendStaged_ks (s : State) : s.appendStaged.ks = s.ks := by
  simp only [State.appendStaged, State.setNlive_ks, State.setMem_ks]
@[simp] theorem State.appendStaged_xin (s : State) : s.appendStaged.xin = s.xin := by
  simp only [State.appendStaged, State.setNlive_xin, State.setMem_xin]
@[simp] theorem State.appendStaged_xinc (s : State) : s.appendStaged.xinc = s.xinc := by
  simp only [State.appendStaged, State.setNlive_xinc, State.setMem_xinc]
@[simp] theorem State.appendStaged_xend (s : State) : s.appendStaged.xend = s.xend := by
  simp only [State.appendStaged, State.setNlive_xend, State.setMem_xend]
@[simp] theorem State.appendStaged_res (s : State) : s.appendStaged.res = s.res := by
  simp only [State.appendStaged, State.setNlive_res, State.setMem_res]
@[simp] theorem State.appendStaged_stage (s : State) : s.appendStaged.stage = s.stage := by
  simp only [State.appendStaged, State.setNlive_stage, State.setMem_stage]
@[simp] theorem State.appendStaged_lutd (s : State) : s.appendStaged.lutd = s.lutd := by
  simp only [State.appendStaged, State.setNlive_lutd, State.setMem_lutd]
@[simp] theorem State.appendStaged_pending (s : State) : s.appendStaged.pending = s.pending := by
  simp only [State.appendStaged, State.setNlive_pending, State.setMem_pending]
@[simp] theorem State.appendStaged_reads (s : State) : s.appendStaged.reads = s.reads := by
  simp only [State.appendStaged, State.setNlive_reads, State.setMem_reads]

/-! ## SHRM -/

/-- Everything the scan of `SHRM` finds (R149): the kept count is at most `n`, the slot below it (if there is one) is
loud, and no slot from it up to `n` is. -/
theorem Memory.loudCount_spec (m : Memory) (thr : Word) : ∀ n : Nat,
    m.loudCount thr n ≤ n ∧ (m.loudCount thr n ≠ 0 → m.loud thr (m.loudCount thr n - 1) = true) ∧
      ∀ i, m.loudCount thr n ≤ i → i < n → m.loud thr i = false
  | 0 => ⟨Nat.le_refl _, fun h => absurd rfl h, fun i _ h => absurd h (Nat.not_lt_zero i)⟩
  | n + 1 => by
    obtain ⟨h1, h2, h3⟩ := Memory.loudCount_spec m thr n
    unfold Memory.loudCount
    by_cases hl : m.loud thr n = true
    · rw [if_pos hl]
      exact ⟨Nat.le_refl _, fun _ => hl, fun i hi hi' => by omega⟩
    · rw [if_neg hl]
      refine ⟨by omega, h2, fun i hi hi' => ?_⟩
      by_cases hin : i = n
      · subst hin; simpa using hl
      · exact h3 i hi (by omega)

/-- The loop that clears the slots from `kept` up to `n` (R149). -/
theorem Memory.clearFrom_spec {m : Memory} (h : m.wf) {kept n : Nat} (hn : n ≤ oscStride) :
    Memory.Wrote (fun a => ∃ (f : Field) (i : Nat), kept ≤ i ∧ i < n ∧ a = oscAddr f i) m
        (Memory.forEach (n - kept) (fun m j => m.clearSlot (kept + j)) m) ∧
      ∀ i, kept ≤ i → i < n → ∀ f : Field,
        (Memory.forEach (n - kept) (fun m j => m.clearSlot (kept + j)) m).osc f i = 0 := by
  have hw : Memory.Wrote (fun a => ∃ (f : Field) (i : Nat), kept ≤ i ∧ i < n ∧ a = oscAddr f i) m
      (Memory.forEach (n - kept) (fun m j => m.clearSlot (kept + j)) m) :=
    Memory.wrote_forEach m (fun j hj m' => Memory.wrote_clearSlot m' _ (fun f => ⟨f, kept + j, by omega, by omega, rfl⟩))
  refine ⟨hw, ?_⟩
  have key := Memory.forEach_induct (n := n - kept) (op := fun m j => m.clearSlot (kept + j)) (m := m)
    (fun c m' => m'.wf ∧ ∀ i, kept ≤ i → i < kept + c → ∀ f : Field, m'.osc f i = 0)
    ⟨h, fun i _ _ => by omega⟩ (by
      intro j m' hj ⟨hwf, ih⟩
      obtain ⟨h1, _, h3, h4⟩ := Memory.clearSlot_spec hwf (i := kept + j) (by omega)
      refine ⟨h1, fun i hi hi' f => ?_⟩
      by_cases hij : i = kept + j
      · subst hij; exact h4 f
      · show Memory.read _ _ = 0
        rw [h3 (oscAddr f i) (fun g hg => hij (oscAddr_inj (by omega) (by omega) hg).2)]
        exact ih i hi (by omega) f)
  exact fun i hi hi' => key.2 i hi (by omega)

/-! ## SHRD -/

/-- The final `NLIVE` of the loop, and the slots that it leaves empty (R151): all those from it up to the old one. -/
theorem Memory.dropDead_spec : ∀ (rest i : Nat) (m : Memory), m.wf → i + rest ≤ oscStride →
    i ≤ (Memory.dropDead rest i m).1 ∧ (Memory.dropDead rest i m).1 ≤ i + rest ∧
      ∀ j, (Memory.dropDead rest i m).1 ≤ j → j < i + rest → ∀ f : Field,
        (Memory.dropDead rest i m).2.osc f j = 0
  | 0, i, m, _, _ => ⟨Nat.le_refl _, Nat.le_refl _, fun j hj hj' => absurd hj' (Nat.not_lt.mpr hj)⟩
  | rest + 1, i, m, hm, hle => by
    unfold Memory.dropDead
    split
    · obtain ⟨h1, h2, h3⟩ := Memory.dropDead_spec rest (i + 1) m hm (by omega)
      exact ⟨by omega, by omega, fun j hj hj' => h3 j hj (by omega)⟩
    · simp only
      have hm1 : (if i ≠ i + rest then m.copySlot (i + rest) i else m).wf := by
        split
        · exact (Memory.wrote_copySlot (S := fun _ => True) m (i + rest) i (fun _ => trivial)).wf hm
        · exact hm
      obtain ⟨hc1, _, _, hc4⟩ := Memory.clearSlot_spec hm1 (i := i + rest) (by omega)
      obtain ⟨h1, h2, h3⟩ := Memory.dropDead_spec rest i _ hc1 (by omega)
      refine ⟨h1, by omega, fun j hj hj' f => ?_⟩
      by_cases hjl : j = i + rest
      · subst hjl
        rw [← hc4 f]
        refine (wrote_dropDead rest i _).read_eq ?_
        rintro ⟨g, j', _, hj2, he⟩
        have := (oscAddr_inj (by omega) (by omega) he).2
        omega
      · exact h3 j hj (by omega) f

end Sys2Proof.Machine
end

