-- ==== Sys2Proof/Tests/Slice0.lean ====
section
/-! SUPPORT. The model's own tests: ill-formed terms refused, words of the spec's encodings decoded, one step per
command on a small state with results taken from spec/95_test_vectors.md or the rules' examples, and for every
statement with premises a state and operands that meet them (`test_witness_…`). -/

namespace Sys2Proof.Tests

-- One theorem after another: elaborated at once, the kernel evaluations below would need a thread each.
set_option Elab.async false

open Sys2Proof Sys2Proof.Machine

/-! ## Well-formedness -/

theorem test_wf_render_count : WellFormed (.render false false false 65536) = false := by decide
theorem test_wf_renderEnv_table : WellFormed (.renderEnv false false false 16 1) = false := by decide
theorem test_wf_renderEnv_count : WellFormed (.renderEnv false false false 15 65536) = false := by decide
theorem test_wf_grow_count : WellFormed (.grow 65536) = false := by decide
theorem test_wf_lnear_table : WellFormed (.lnear 16) = false := by decide
theorem test_wf_llin_table : WellFormed (.llin 16) = false := by decide
theorem test_wf_lcyc_table : WellFormed (.lcyc false false 16 1) = false := by decide
theorem test_wf_lcyc_count : WellFormed (.lcyc false false 0 65536) = false := by decide
theorem test_wf_lchk_table : WellFormed (.lchk 16) = false := by decide

/-! ## Decoding: words written bit by bit from the fields of R85 and the opcodes of R88
(`op` 8 bits, `fE`, `fC`, `fF`, `fA`, `t` 4 bits, `n` 16 bits) -/

theorem test_decode_nop : decode 0b00000000000000000000000000000000#32 = .ok .nop := by decide
theorem test_decode_reset : decode 0b00000001000000000000000000000000#32 = .ok .reset := by decide
theorem test_decode_render :
    decode 0b00010000001100000000000111100000#32 = .ok (.render false true true 480) := by decide
theorem test_decode_render_chirp :
    decode 0b00010000010000000000000000000010#32 = .ok (.render true false false 2) := by decide
theorem test_decode_renderEnv :
    decode 0b00010000100000100000000001000000#32 = .ok (.renderEnv false false false 2 64) := by decide
theorem test_decode_alloc : decode 0b00010001000000000000000000000000#32 = .ok .alloc := by decide
theorem test_decode_shrm : decode 0b00010010000000000000000000000000#32 = .ok .shrm := by decide
theorem test_decode_shrd : decode 0b00010011000000000000000000000000#32 = .ok .shrd := by decide
theorem test_decode_ddec : decode 0b00010100000000000000000000000000#32 = .ok .ddec := by decide
theorem test_decode_cscl : decode 0b00010101000000000000000000000000#32 = .ok .cscl := by decide
theorem test_decode_sscl : decode 0b00010110000000000000000000000000#32 = .ok .sscl := by decide
theorem test_decode_grow : decode 0b00010111000000000000000000010000#32 = .ok (.grow 16) := by decide
theorem test_decode_lnear : decode 0b00100000000000110000000000000000#32 = .ok (.lnear 3) := by decide
theorem test_decode_llin : decode 0b00100001000000110000000000000000#32 = .ok (.llin 3) := by decide
theorem test_decode_lcyc : decode 0b00100010000000010000000000000100#32 = .ok (.lcyc false false 1 4) := by decide
theorem test_decode_lcyc_keep : decode 0b00100010001000000000000000000100#32 = .ok (.lcyc true false 0 4) := by decide
theorem test_decode_lchk : decode 0b00100011000000010000000000000000#32 = .ok (.lchk 1) := by decide

/-! Reserved words (R89). -/

theorem test_reserved_opcode : decode 0x02000000 = .error .opcode := by decide
theorem test_reserved_nop_bit : decode 0x00000001 = .error .field := by decide
theorem test_reserved_render_table : decode 0x10010008 = .error .field := by decide
theorem test_reserved_lcyc_flags : decode 0x22800004 = .error .field ∧ decode 0x22400004 = .error .field := by decide

theorem test_tableWord : decodeTableWord 32 0x10820040 = some (.renderEnv false false false 2 64) := by decide
theorem test_fetch : Machine.step (State.reset.withFetchWord 32 0x01000000) = Machine.exec .reset State.reset := by rfl

/-! ## Helpers -/

/-- What is asked of the next state, if there is one. -/
def after {α : Type} (o : Host.Outcome State Fault Refusal) (f : State → α) : Option α :=
  match o with
  | .next s => some (f s)
  | .fault _ => none
  | .refused _ => none

/-- A legal small machine. -/
def tiny : Params := { w := 4, maxOsc := 8, maxFrames := 4, lmemWords := 8, nLut := 2 }

/-- A memory with these words written. -/
def memOf (ws : List (Nat × Word)) : Memory :=
  ws.foldl (fun m w => m.write w.1 w.2) { epoch := 0, cells := [] }

/-- A small machine with `nlive` slots, capacity 8 and these words. -/
def bench (nlive : Nat) (ws : List (Nat × Word)) : State :=
  { State.reset with params := tiny, nlive := nlive, cap := 8, capMax := 8, mem := memOf ws }

/-- The bank of V1: `C1 = 1.0`, `C2 = 0.5`, `Y1 = 1.0`. -/
def oneSlot : State :=
  bench 1 [(oscAddr .c1 0, 0x3F800000), (oscAddr .c2 0, 0x3F000000), (oscAddr .y1 0, 0x3F800000)]

/-- The bank of V8 with its scalar registers. -/
def twoSlots : State :=
  { bench 2
      [(oscAddr .c1 0, 0x3F800000), (oscAddr .c2 0, 0x3F000000), (oscAddr .y1 0, 0x3F800000),
        (oscAddr .y2 0, 0xBF000000), (oscAddr .dur 0, 0x3F800000), (oscAddr .c1 1, 0xBF000000),
        (oscAddr .c2 1, 0x3E800000), (oscAddr .y2 1, 0x40000000), (oscAddr .dur 1, 0x3E000000)] with
    kc1 := 0x3F000000, kc2 := 0x3E800000, ks := 0x3F000000, dt := 0x3E800000 }

/-- The table of V12 to V14 as table 1, at `LMEM[2]`, with the abscissas `xin`, `xend`. -/
def withTable (xin xinc xend : Word) : State :=
  { bench 0 [(lmemBase + 2, 0x00000000), (lmemBase + 3, 0x3F800000), (lmemBase + 4, 0x3F000000),
      (lmemBase + 5, 0x40000000), (lmemBase + 6, 0x00000000)] with
    xin := xin, xinc := xinc, xend := xend
    lutd := (Vector.replicate 16 Descriptor.empty).set 1 { base := 2, len := 5, minX := 0, dx := 0x3E800000 } }

/-- A table of one sample as table 0. -/
def withSample : State :=
  { bench 0 [(lmemBase + 7, 0x40000000)] with
    lutd := (Vector.replicate 16 Descriptor.empty).set 0 { base := 7, len := 1, minX := 0, dx := 0x3F800000 } }

/-- A full pool (`NLIVE = CAP = CAPMAX`). -/
def fullPool : State := { bench 8 [] with growStep := 1 }

/-- Five of eight slots' worth of capacity still to grow: `CAP = NLIVE = 4`, `CAPMAX = 8`, `GROWSTEP = 2`. -/
def growingPool : State :=
  { bench 4 [] with cap := 4, growStep := 2, stage := (Vector.replicate 11 0).set 8 0x11 }

/-- The pool of V9: durations 1, -1, 2, 0, 3 and the names A0 to A4 in `RADIUS`. -/
def agedPool : State :=
  bench 5
    [(oscAddr .dur 0, 0x3F800000), (oscAddr .dur 1, 0xBF800000), (oscAddr .dur 2, 0x40000000),
      (oscAddr .dur 4, 0x40400000), (oscAddr .radius 0, 0xA0), (oscAddr .radius 1, 0xA1),
      (oscAddr .radius 2, 0xA2), (oscAddr .radius 3, 0xA3), (oscAddr .radius 4, 0xA4)]

/-- The pool of V10. -/
def quietTail : State :=
  { bench 6
      [(oscAddr .y1 0, 0x3F000000), (oscAddr .y1 1, 0x38D1B717), (oscAddr .y1 2, 0x3E4CCCCD),
        (oscAddr .y1 3, 0x3A03126F), (oscAddr .y1 4, 0x38D1B717), (oscAddr .c1 5, 0x3F800000)] with
    thr := 0x3A83126F }

/-! ## One step of each command -/

/-- V1. -/
theorem test_render : after (Machine.exec (.render false false false 4) oneSlot)
    (fun s => (s.mem.obuf 0, s.mem.obuf 1, s.mem.obuf 2, s.mem.obuf 3, s.mem.osc .y1 0, s.sidx)) =
      some (0x3F800000, 0x3F000000, 0x00000000, 0xBE800000, 0xBE800000, 4) := by decide +kernel

/-- R129's example and V6: the coefficient after two chirped frames, and the second output. -/
theorem test_render_chirp : after (Machine.exec (.render true false false 2)
      (bench 1 [(oscAddr .c1 0, 0x3FC00000), (oscAddr .c2 0, 0x3F000000), (oscAddr .y1 0, 0x3F800000),
        (oscAddr .cmul 0, 0x3F000000), (oscAddr .clim 0, 0x3F000000)]))
    (fun s => (s.mem.osc .c1 0, s.mem.obuf 1)) = some (0x3F000000, 0x3F200000) := by decide +kernel

/-- V4: the envelope shapes two frames and leaves the other two. -/
theorem test_renderEnv : after (Machine.exec (.renderEnv false false false 0 4)
      { bench 1 [(oscAddr .c1 0, 0x3F800000), (oscAddr .c2 0, 0x3F000000), (oscAddr .y1 0, 0x3F800000),
          (lmemBase, 0x00000000), (lmemBase + 1, 0x3F000000)] with
        lutd := (Vector.replicate 16 Descriptor.empty).set 0 { base := 0, len := 2, minX := 0, dx := 0 } })
    (fun s => (s.mem.obuf 0, s.mem.obuf 1, s.mem.obuf 2, s.mem.obuf 3)) =
      some (0x00000000, 0x3E800000, 0x00000000, 0xBE800000) := by decide +kernel

/-- V5, frame 0: forcing with each slot's own gain, added to what `OBUF` held. -/
theorem test_renderEnv_forcing : after (Machine.exec (.renderEnv false true true 0 1)
      { bench 2 [(oscAddr .c1 0, 0x3F800000), (oscAddr .c2 0, 0x3F000000), (oscAddr .gain 0, 0x3F000000),
          (oscAddr .c2 1, 0x3E800000), (oscAddr .gain 1, 0xBF800000), (fbufBase, 0x3F800000),
          (obufBase, 0x41200000), (lmemBase, 0x3F800000)] with
        lutd := (Vector.replicate 16 Descriptor.empty).set 0 { base := 0, len := 1, minX := 0, dx := 0 } })
    (fun s => (s.mem.obuf 0, s.mem.osc .y1 1)) = some (0x41180000, 0xBF800000) := by decide +kernel

/-- R147's example: growth, then the append at slot 4. -/
theorem test_alloc : after (Machine.exec .alloc growingPool)
    (fun s => (s.cap, s.nlive, s.active, s.mem.osc .radius 4)) = some (8, 5, 8, 0x11) := by decide +kernel

/-- R200: a dropped `ALLOC` sets `CAPPED` and logs nothing. -/
theorem test_alloc_capped : after (Machine.exec .alloc fullPool)
    (fun s => (s.nlive, s.statusWord, s.errCnt)) = some (8, 0x00001001, 0) := by decide +kernel

/-- V10. -/
theorem test_shrm : after (Machine.exec .shrm quietTail)
    (fun s => (s.nlive, s.mem.osc .y1 1, s.mem.osc .y1 3, s.mem.osc .c1 5)) =
      some (3, 0x38D1B717, 0, 0) := by decide +kernel

/-- V9. -/
theorem test_shrd : after (Machine.exec .shrd agedPool)
    (fun s => (s.nlive, (List.range 5).map (fun i => s.mem.osc .radius i))) =
      some (3, [0xA0, 0xA4, 0xA2, 0, 0]) := by decide +kernel

/-- V8. -/
theorem test_ddec : after (Machine.exec .ddec twoSlots)
    (fun s => (s.mem.osc .dur 0, s.mem.osc .dur 1, s.mem.osc .dur 2)) =
      some (0x3F400000, 0xBE000000, 0) := by decide +kernel

/-- V8. -/
theorem test_cscl : after (Machine.exec .cscl twoSlots)
    (fun s => (s.mem.osc .c1 0, s.mem.osc .c2 0, s.mem.osc .c1 1, s.mem.osc .c2 1)) =
      some (0x3F000000, 0x3E000000, 0xBE800000, 0x3D800000) := by decide +kernel

/-- V8. -/
theorem test_sscl : after (Machine.exec .sscl twoSlots)
    (fun s => (s.mem.osc .y1 0, s.mem.osc .y2 0, s.mem.osc .y1 1, s.mem.osc .y2 1)) =
      some (0x3F000000, 0xBE800000, 0, 0x3F800000) := by decide +kernel

/-- R146's corner case (c): `GROW 5` from nothing with `CAPMAX = 64`. -/
theorem test_grow : after (Machine.exec (.grow 5) { State.reset with capMax := 64 }) (fun s => s.cap) = some 8 := by
  decide +kernel

/-- R146's example: `GROW 100` with `CAP = 8`, `CAPMAX = 16`. -/
theorem test_grow_capped : after (Machine.exec (.grow 100) { State.reset with cap := 8, capMax := 16 })
    (fun s => (s.cap, s.sticky)) = some (16, 0) := by decide +kernel

/-- V12: half-way goes to the upper sample. -/
theorem test_lnear : after (Machine.exec (.lnear 1) (withTable 0x3EC00000 0 0)) (fun s => s.res) =
    some 0x3F000000 := by decide +kernel

/-- V12: 0.3125 is nearer to sample 1. -/
theorem test_lnear_lower : after (Machine.exec (.lnear 1) (withTable 0x3EA00000 0 0)) (fun s => s.res) =
    some 0x3F800000 := by decide +kernel

/-- V12. -/
theorem test_llin : after (Machine.exec (.llin 1) (withTable 0x3EC00000 0 0)) (fun s => s.res) =
    some 0x3F400000 := by decide +kernel

/-- V12: the last interval. -/
theorem test_llin_last : after (Machine.exec (.llin 1) (withTable 0x3F700000 0 0)) (fun s => s.res) =
    some 0x3F000000 := by decide +kernel

/-- V13, default: positions 3.5, 4.5, 5.5 with period 4. -/
theorem test_lcyc : after (Machine.exec (.lcyc false false 1 3) (withTable 0x3F600000 0x3E800000 0))
    (fun s => (s.mem.obuf 0, s.mem.obuf 1, s.mem.obuf 2)) =
      some (0x3F800000, 0x3F000000, 0x3F400000) := by decide +kernel

/-- V13, negative start. -/
theorem test_lcyc_negative : after (Machine.exec (.lcyc false false 1 3) (withTable 0xBD800000 0x3E800000 0))
    (fun s => (s.mem.obuf 0, s.mem.obuf 1, s.mem.obuf 2)) =
      some (0x3F000000, 0x3F400000, 0x3F200000) := by decide +kernel

/-- R170's example. -/
theorem test_lchk : after (Machine.exec (.lchk 1) (withTable 0 0 0x3F800000)) (fun s => s.res) = some 1 ∧
    after (Machine.exec (.lchk 1) (withTable 0 0 0x3F400000)) (fun s => s.res) = some 0 := by decide +kernel

/-- P3 lines 31 to 35: an empty table. -/
theorem test_lchk_bad : after (Machine.exec (.lchk 0) (withTable 0 0 0))
    (fun s => (s.statusWord, s.lastErr, s.lastCmd, s.errCnt)) = some (0x800, 4, 0x23000000, 1) := by decide +kernel

theorem test_nop : after (Machine.exec .nop twoSlots) (fun s => s = twoSlots) = some True := by
  simp [after, Machine.exec, execNop]

/-- R186's example. -/
theorem test_reset : after (Machine.exec .reset { agedPool with sidx := 960 })
    (fun s => (s.nlive, s.sidx, s.cap, (List.range 8).map (fun i => s.mem.osc .radius i))) =
      some (0, 0, 8, [0, 0, 0, 0, 0, 0, 0, 0]) := by decide +kernel

/-! ## The port (V16, R21, R24, R27) -/

theorem test_port_constants : State.reset.hostRead 0 = 0x4D4F4231 ∧ State.reset.hostRead 1 = 0x01000804 ∧
    State.reset.hostRead 2 = 0x10000400 ∧ State.reset.hostRead 4 = 0 := by decide +kernel

theorem test_port_padding_protected :
    after (oneSlot.hostWrite 0x4801 0x40000000) (fun s => s.hostRead 0x4801) = some 0 ∧
      after (oneSlot.hostWrite 0x4800 0x40000000) (fun s => s.hostRead 0x4800) = some 0x40000000 := by
  decide +kernel

theorem test_port_capMax :
    after ({ State.reset with cap := 8, capMax := 8 }.hostWrite 0x000C 3) (fun s => s.capMax) = some 8 ∧
      after ({ State.reset with cap := 8, capMax := 8 }.hostWrite 0x000C 0xFFFFFFFF) (fun s => s.capMax) =
        some 256 := by decide +kernel

theorem test_port_clear :
    after ({ State.reset with sticky := 0x1F }.hostWrite 0x0005 0x00000800) (fun s => s.statusWord) =
        some 0x1700 ∧
      after ({ State.reset with errCnt := 3, lastErr := 4, lastCmd := 9 }.hostWrite 0x0008 5)
        (fun s => (s.errCnt, s.lastErr, s.lastCmd)) = some (0, 0, 0) := by decide +kernel

/-! ## Numbers (V0) -/

theorem test_fmul_rounds : fmul 0x3DCCCCCD 0x3DCCCCCD = 0x3C23D70B ∧ fmul 0x00000003 0x3F000000 = 0x00000002 ∧
    fmul 0x7F7FFFFF 0x40000000 = 0x7F800000 := by decide +kernel

theorem test_fadd_ties : fadd 0x4B800000 0x3F800000 = 0x4B800000 ∧ fadd 0x4B800000 0x40400000 = 0x4B800002 := by
  decide +kernel

theorem test_fdiv : fdiv 0x3F800000 0x40400000 = 0x3EAAAAAB ∧ fdiv 0xBF800000 0x00000000 = 0xFF800000 := by
  decide +kernel

/-! ## Witnesses: a state and operands that meet the premises of each statement that has any -/

theorem inv_oneSlot : oneSlot.Inv := State.inv_of_check (by decide +kernel)
theorem inv_twoSlots : twoSlots.Inv := State.inv_of_check (by decide +kernel)
theorem inv_withTable : (withTable 0 0 0).Inv := State.inv_of_check (by decide +kernel)
theorem inv_agedPool : agedPool.Inv := State.inv_of_check (by decide +kernel)
theorem inv_quietTail : quietTail.Inv := State.inv_of_check (by decide +kernel)
theorem inv_growingPool : growingPool.Inv := State.inv_of_check (by decide +kernel)
theorem inv_fullPool : fullPool.Inv := State.inv_of_check (by decide +kernel)
theorem inv_empty : (bench 0 []).Inv := State.inv_of_check (by decide +kernel)

/-- Both ends of both ranges of addresses. -/
theorem test_witness_ResetPortReadsSpecValues :
    (BitVec.toNat (0x0FFF#16) < 0x1000 ∨ 0x2800 ≤ BitVec.toNat (0x0FFF#16)) ∧
      (BitVec.toNat (0x2800#16) < 0x1000 ∨ 0x2800 ≤ BitVec.toNat (0x2800#16)) ∧
      (BitVec.toNat (0xFFFF#16) < 0x1000 ∨ 0x2800 ≤ BitVec.toNat (0xFFFF#16)) := by decide

/-- A pool with work to do whose next command is `SHRD`, and one whose next is a hardware reset. -/
theorem test_witness_StepKeepsInvariant :
    (∃ s t, s.pending = [.write cmdAddr 0x13000000] ∧ s.Inv ∧ Machine.step s = .next t) ∧
      ∃ s t, s.pending = [.hardReset] ∧ s.Inv ∧ Machine.step s = .next t :=
  ⟨⟨{ agedPool with pending := [.write cmdAddr 0x13000000] }, _, rfl,
      State.inv_of_check (by decide +kernel), rfl⟩,
    ⟨{ agedPool with pending := [.hardReset] }, _, rfl, State.inv_of_check (by decide +kernel), rfl⟩⟩

theorem test_witness_EveryStepHasANextState : State.reset.pending = [] := rfl

theorem test_witness_StepRunsDecodedCommand :
    ∃ (s : State) (rest : List Transaction), s.pending = .write cmdAddr 0x10820040 :: rest ∧
      decode 0x10820040 = .ok (.renderEnv false false false 2 64) :=
  ⟨State.reset.withFetchWord 32 0x10820040, [], rfl, by decide⟩

/-- One word for each item of R89. -/
theorem test_witness_ReservedWordOnlyRecordsBadop :
    (∃ (s : State), s.pending = [.write cmdAddr 0x24000000] ∧ decode 0x24000000 = .error .opcode) ∧
      ∃ (s : State), s.pending = [.write cmdAddr 0x10010008] ∧ decode 0x10010008 = .error .field :=
  ⟨⟨{ State.reset with pending := [.write cmdAddr 0x24000000] }, rfl, by decide⟩,
    ⟨{ State.reset with pending := [.write cmdAddr 0x10010008] }, rfl, by decide⟩⟩

theorem test_witness_HostReadChangesNoState : ∃ s : State, s.pending = [.read 0x4800] :=
  ⟨{ oneSlot with pending := [.read 0x4800] }, rfl⟩

theorem test_witness_HardResetGivesResetState : ∃ s : State, s.pending = [.hardReset] :=
  ⟨{ oneSlot with pending := [.hardReset] }, rfl⟩

/-- Legal parameters, and for each clause an address, the windows' last ones among them. -/
theorem test_witness_HostReadFollowsTheMap :
    tiny.legal ∧ Params.default.legal ∧
      (∀ n ∈ [0x00, 0x01, 0x02, 0x04, 0x05, 0x06, 0x07, 0x08, 0x09, 0x0A, 0x0B, 0x0C, 0x0D, 0x0E, 0x0F, 0x10, 0x11,
        0x12, 0x13, 0x14, 0x15, 0x16, 0x17], (BitVec.ofNat 16 n).toNat = n) ∧
      BitVec.toNat (0x2A#16) = 0x20 + Field.index .decay ∧
      (7 < Params.default.nLut ∧ BitVec.toNat (0x11F#16) = 0x100 + 4 * 7 + 3) ∧
      (4095 < Params.default.lmemWords ∧ BitVec.toNat (0x1FFF#16) = 0x1000 + 4095) ∧
      (1023 < Params.default.maxFrames ∧ BitVec.toNat (0x23FF#16) = 0x2000 + 1023) ∧
      (1023 < Params.default.maxFrames ∧ BitVec.toNat (0x27FF#16) = 0x2400 + 1023) ∧
      (255 < Params.default.maxOsc ∧ BitVec.toNat (0x68FF#16) = 0x4000 + Field.index .decay * 0x400 + 255) := by
  decide

/-- Legal parameters, and an address of each kind of hole at its edge. -/
theorem test_witness_UnmappedAddressesAreInert :
    tiny.legal ∧ (BitVec.toNat (0x03#16) = 0x03) ∧
      (0x18 ≤ BitVec.toNat (0x1F#16) ∧ BitVec.toNat (0x1F#16) < 0x20) ∧
      (0x2B ≤ BitVec.toNat (0x2B#16) ∧ BitVec.toNat (0x2B#16) < 0x100) ∧
      (0x100 + 4 * tiny.nLut ≤ BitVec.toNat (0x108#16) ∧ BitVec.toNat (0x108#16) < 0x1000) ∧
      (0x1000 + tiny.lmemWords ≤ BitVec.toNat (0x1008#16) ∧ BitVec.toNat (0x1008#16) < 0x2000) ∧
      (0x2000 + tiny.maxFrames ≤ BitVec.toNat (0x2004#16) ∧ BitVec.toNat (0x2004#16) < 0x2400) ∧
      (0x2400 + tiny.maxFrames ≤ BitVec.toNat (0x3FFF#16) ∧ BitVec.toNat (0x3FFF#16) < 0x4000) ∧
      0x6C00 ≤ BitVec.toNat (0x6C00#16) ∧
      (0x4000 ≤ BitVec.toNat (0x4008#16) ∧ BitVec.toNat (0x4008#16) < 0x6C00 ∧
        tiny.maxOsc ≤ BitVec.toNat (0x4008#16) % 0x400) := by decide

/-- A live slot, its free neighbour, and `ERRCNT`. -/
theorem test_witness_HostWriteReadsBackAndFrames :
    oneSlot.Inv ∧ (0x4800 : Addr) ≠ cmdAddr ∧ (0x4801 : Addr) ≠ cmdAddr ∧ (0x0008 : Addr) ≠ cmdAddr :=
  ⟨inv_oneSlot, by decide, by decide, by decide⟩

theorem test_witness_DecodeOfEncodeIsTheCommand :
    WellFormed (.renderEnv true true true 15 65535) = true ∧ WellFormed (.grow 0) = true := by decide

theorem test_witness_EncodeOfDecodeIsTheWord : decode 0x22310001 = .ok (.lcyc true true 1 1) := by decide

theorem test_witness_DecoderAcceptsExactlyTheTable :
    decode 0x1700FFFF = .ok (.grow 65535) ∧ opcodeRows[10]? = some [(31, 16, 0x1700)] ∧
      MatchesRow 0x1700FFFF [(31, 16, 0x1700)] := by
  refine ⟨by decide, by decide, ?_⟩
  intro x hx
  simp only [List.mem_singleton] at hx
  subst hx
  decide

theorem test_witness_ResetCommandSilencesTheBank : agedPool.Inv := inv_agedPool

/-- One frame, and as many as there can be. -/
theorem test_witness_RenderRunsEverySlotOnItsOwnCourse :
    twoSlots.Inv ∧ 1 ≤ 1 ∧ 1 ≤ twoSlots.params.maxFrames ∧ 4 ≤ twoSlots.params.maxFrames :=
  ⟨inv_twoSlots, by decide, by decide, by decide⟩

theorem test_witness_RenderWithEnvelopeShapesTheSum :
    (withTable 0 0 0).Inv ∧ 1 ≤ 4 ∧ 4 ≤ (withTable 0 0 0).params.maxFrames ∧ (withTable 0 0 0).storageOk 1 = true :=
  ⟨inv_withTable, by decide, by decide, by decide +kernel⟩

theorem test_witness_EmptyBankRendersZero : (bench 0 []).Inv ∧ (bench 0 []).nlive = 0 ∧ 1 ≤ 4 ∧ 4 ≤ tiny.maxFrames :=
  ⟨inv_empty, rfl, by decide, by decide⟩

theorem test_witness_SplitRenderReachesTheSameBank :
    twoSlots.Inv ∧ 1 ≤ 1 ∧ 1 ≤ 3 ∧ 1 + 3 ≤ twoSlots.params.maxFrames :=
  ⟨inv_twoSlots, by decide, by decide, by decide⟩

theorem test_witness_CsclScalesEveryLiveCoefficient : twoSlots.Inv := inv_twoSlots
theorem test_witness_SsclScalesEveryLiveState : twoSlots.Inv := inv_twoSlots
theorem test_witness_DdecAgesEveryLiveSlot : twoSlots.Inv := inv_twoSlots

theorem test_witness_GrowRaisesCapacityToTheCap : growingPool.Inv := inv_growingPool

/-- Both clauses, at the edge: the rounded count equals the grown capacity; it is one lane width above it. -/
theorem test_witness_AllocAppendsOrSetsCapped :
    (growingPool.Inv ∧ roundUp 4 (growingPool.nlive + 1) = growingPool.grownCap growingPool.growStep.toNat) ∧
      fullPool.Inv ∧ roundUp 4 (fullPool.nlive + 1) = fullPool.grownCap fullPool.growStep.toNat + 4 :=
  ⟨⟨inv_growingPool, by decide⟩, inv_fullPool, by decide⟩

theorem test_witness_OneGrowthStepSufficesForAlloc :
    growingPool.Inv ∧ 1 ≤ growingPool.growStep.toNat ∧
      roundUp growingPool.params.w (growingPool.nlive + 1) ≤ growingPool.capMax :=
  ⟨inv_growingPool, by decide, by decide⟩

/-- A pool with a quiet tail: three slots are kept and three are cleared, so both inner clauses have cases. -/
theorem test_witness_ShrmTrimsExactlyTheQuietTail :
    quietTail.Inv ∧ after (Machine.exec .shrm quietTail) (fun s => s.nlive) = some 3 :=
  ⟨inv_quietTail, by decide +kernel⟩

/-- Of slots 0 to 4 the first, third and fifth live on: slot 1 is a hole below the new `NLIVE`, slot 4 the survivor above
it, and slots 3 and 4 are left empty. -/
theorem test_witness_ShrdKeepsExactlyTheLiving :
    agedPool.Inv ∧ after (Machine.exec .shrd agedPool) (fun s => s.nlive) = some 3 ∧
      (List.range 3).filter (fun i => !fgt (agedPool.mem.osc .dur i) 0) = [1] ∧
      (List.range 5).filter (fun i => decide (3 ≤ i) && fgt (agedPool.mem.osc .dur i) 0) = [4] :=
  ⟨inv_agedPool, by decide +kernel, by decide +kernel, by decide +kernel⟩

/-- Both clauses, and a position in each of the four branches: 0, the last sample, half-way, a quarter. -/
theorem test_witness_LnearCopiesTheNearestSample :
    (withTable 0 0 0).curveOk 1 = true ∧ (withTable 0 0 0).curveOk 0 = false ∧
      fgt (((withTable 0 0 0).lut 1).pos 0x00000000) 0 = false ∧
      fge (((withTable 0 0 0).lut 1).pos 0x3F800000) (i2f 4) = true ∧
      fsub (((withTable 0 0 0).lut 1).pos 0x3EC00000) (i2f 1) = 0x3F000000 ∧
      fsub (((withTable 0 0 0).lut 1).pos 0x3EA00000) (i2f 1) = 0x3E800000 := by
  decide +kernel

theorem test_witness_LnearStaysInsideItsTable : (withTable 0x3EC00000 0 0).curveOk 1 = true := by decide +kernel

theorem test_witness_LlinInterpolatesBetweenNeighbours :
    (withTable 0x3F700000 0 0).curveOk 1 = true ∧ (withTable 0x3F700000 0 0).curveOk 15 = false := by decide +kernel

theorem test_witness_SingleSampleTableIsConstant :
    withSample.curveOk 0 = true ∧ (withSample.lut 0).len = 1 := by decide +kernel

/-- With `K` a period of one sample, without it a period of four. -/
theorem test_witness_LcycFillsTheOutputBuffer :
    (withSample.Inv ∧ withSample.curveOk 0 = true ∧ 1 ≤ (withSample.lut 0).len.toNat) ∧
      (withTable 0 0 0).Inv ∧ (withTable 0 0 0).curveOk 1 = true ∧ 1 ≤ ((withTable 0 0 0).lut 1).len.toNat - 1 ∧
      1 ≤ 4 ∧ 4 ≤ tiny.maxFrames :=
  ⟨⟨State.inv_of_check (by decide +kernel), by decide +kernel, by decide +kernel⟩, inv_withTable,
    by decide +kernel, by decide +kernel, by decide, by decide⟩

theorem test_witness_LcycWithoutKNeverReadsTheLastSample :
    (withTable 0 0 0).Inv ∧ 1 ≤ 4 ∧ 4 ≤ tiny.maxFrames ∧ (withTable 0 0 0).curveOk 1 = true ∧
      2 ≤ ((withTable 0 0 0).lut 1).len.toNat :=
  ⟨inv_withTable, by decide, by decide, by decide +kernel, by decide +kernel⟩

theorem test_witness_LchkTestsTheDomain :
    (withTable 0 0 0).curveOk 1 = true ∧ (withTable 0 0 0).curveOk 0 = false := by decide +kernel

theorem test_witness_PositionIsNaNOnlyForNaN :
    (withTable 0 0 0).curveOk 1 = true ∧ isNaN 0x7FC00000 = true ∧ isNaN 0x7F800000 = false := by decide +kernel

/-- The first and the last sticky bit. -/
theorem test_witness_FailChangesOnlyTheErrorRecord :
    (0 < 5 ∧ 0 + 1 = ErrCode.badOp.number) ∧ 3 < 5 ∧ 3 + 1 = ErrCode.badLut.number := by decide

/-- Each clause at its edge: no frame, one too many, the most there can be with a bad table, and a table of one
sample whose last is removed. -/
theorem test_witness_CountErrorsOutrankTableErrors :
    (5 ≠ 0 ∧ (withTable 0 0 0).params.maxFrames < 5) ∧
      (4 ≠ 0 ∧ 4 ≤ (withTable 0 0 0).params.maxFrames ∧ (withTable 0 0 0).storageOk 0 = false ∧
        (withTable 0 0 0).curveOk 0 = false) ∧
      (4 ≤ withSample.params.maxFrames ∧ withSample.curveOk 0 = true ∧ (withSample.lut 0).len.toNat = 1) := by
  decide +kernel

theorem test_witness_PoolAndBankCommandsNeverFail : (∃ n, Instr.grow 65535 = .grow n) := ⟨65535, rfl⟩

/-- A command of each kind that changes the live count, one that does not, and the steps of the other kinds. -/
theorem test_witness_OnlyPoolCommandsChangeTheLiveCount :
    (after (Machine.exec .alloc growingPool) (fun s => s.nlive) = some 5 ∧
      after (Machine.exec .shrd agedPool) (fun s => s.nlive) = some 3 ∧
      after (Machine.exec .shrm quietTail) (fun s => s.nlive) = some 3 ∧
      after (Machine.exec .reset agedPool) (fun s => s.nlive) = some 0 ∧
      after (Machine.exec .ddec agedPool) (fun s => s.nlive) = some 5) ∧
    (after (Machine.step { agedPool with pending := [.write cmdAddr 0x13000000] }) (fun s => s.nlive) = some 3 ∧
      after (Machine.step { agedPool with pending := [.write cmdAddr 0x24000000] }) (fun s => s.nlive) = some 5 ∧
      after (Machine.step { agedPool with pending := [.write 0x0009 0] }) (fun s => s.nlive) = some 5 ∧
      after (Machine.step { agedPool with pending := [.read 0x0009] }) (fun s => s.nlive) = some 5) ∧
    after (Machine.step { agedPool with pending := [.hardReset] }) (fun s => s.nlive) = some 0 := by
  refine ⟨?_, ?_, ?_⟩ <;> decide +kernel

/-- A `GROW` that changes the capacity, and a step that keeps it. -/
theorem test_witness_CapacityOnlyGrows :
    (∃ s t, s.Inv ∧ s.pending.head? ≠ some .hardReset ∧ Machine.step s = .next t ∧ s.cap = 4 ∧ t.cap = 8) ∧
      ∃ s t, s.Inv ∧ s.pending.head? ≠ some .hardReset ∧ Machine.step s = .next t ∧ s.cap = 4 ∧ t.cap = 4 :=
  ⟨⟨{ growingPool with pending := [.write cmdAddr 0x17000001] }, _, State.inv_of_check (by decide +kernel),
      by decide, rfl, rfl, by decide⟩,
    ⟨{ growingPool with pending := [.write 0x000B 0] }, _, State.inv_of_check (by decide +kernel),
      by decide, rfl, rfl, by decide⟩⟩

theorem test_witness_CommandsNeverWriteTablesOrArguments :
    (∃ t, Machine.exec .ddec twoSlots = .next t) ∧ 0xFFF < 0x1000 ∧ 0x3FF < 0x400 :=
  ⟨⟨_, rfl⟩, by decide, by decide⟩

/-- Two pools that differ in the name of one slot. -/
theorem test_witness_OpaqueFieldsAreNeverInterpreted :
    ∃ s1 s2 : State, s1.Inv ∧ s2.Inv ∧ s1.SameButOpaque s2 ∧ s1.mem.osc .radius 0 ≠ s2.mem.osc .radius 0 := by
  refine ⟨agedPool, agedPool.setMem (agedPool.mem.setOsc .radius 0 0xB0), inv_agedPool,
    State.inv_of_check (by decide +kernel), ⟨rfl, rfl, fun a ha => ?_⟩, by decide +kernel⟩
  refine Memory.read_write_other _ _ _ _ (fun h => ha ?_)
  exact ⟨.radius, by simp, 0, by decide, h⟩

/-- A finite result, and the least sum and the least difference that overflow. -/
theorem test_witness_FaddRoundsTheExactSumOnce :
    isFinite 0x7F7FFFFF = true ∧ isFinite 0x72FFFFFF = true ∧ isFinite 0x73000000 = true ∧
      fadd 0x7F7FFFFF 0x72FFFFFF = 0x7F7FFFFF ∧ fadd 0x7F7FFFFF 0x73000000 = 0x7F800000 ∧
      fsub 0xFF7FFFFF 0x72FFFFFF = 0xFF7FFFFF ∧ fsub 0xFF7FFFFF 0x73000000 = 0xFF800000 := by decide +kernel

theorem test_witness_FmulRoundsTheExactProductOnce :
    isFinite 0x7F7FFFFF = true ∧ isFinite 0x3F800000 = true ∧ isFinite 0x3F800001 = true ∧
      fmul 0x7F7FFFFF 0x3F800000 = 0x7F7FFFFF ∧ fmul 0x7F7FFFFF 0x3F800001 = 0x7F800000 := by decide +kernel

theorem test_witness_FdivRoundsTheExactQuotientOnce :
    isFinite 0x7F7FFFFF = true ∧ isFinite 0x3F7FFFFF = true ∧ fVal 0x3F7FFFFF ≠ 0 ∧
      fdiv 0x7F7FFFFF 0x3F7FFFFF = 0x7F800000 ∧ fVal 0x80000001 ≠ 0 := by decide +kernel

theorem test_witness_NaNArisesExactlyFromInvalidOperations :
    isInf 0x7F800000 = true ∧ isInf 0xFF800000 = true ∧ isZero 0x80000000 = true ∧
      isNaN (fadd 0x7F800000 0xFF800000) = true := by
  refine ⟨by decide, by decide, by decide, ?_⟩
  have h : fadd 0x7F800000 0xFF800000 = freeNaN .add 0x7F800000 0xFF800000 := by rfl
  rw [h]
  exact isNaN_freeNaN _ _ _

theorem test_witness_SignedZerosFollowTheRules :
    (isFinite 0x3F800000 = true ∧ isFinite 0xBF800000 = true ∧ fVal 0x3F800000 + fVal 0xBF800000 = 0 ∧
      fVal 0x3F800000 ≠ 0) ∧ (0x00000000 : Word) ≠ 0x80000000 ∧ isNaN (fmul 0xBF800000 0x00000000) = false ∧
      isNaN (fdiv 0x00000000 0xBF800000) = false := by decide +kernel

theorem test_witness_FmaxcReturnsAnOperandUnchanged : isNaN 0x7F800001 = true := by decide

theorem test_witness_FabsClearsTheSignBitOnly : isNaN 0xFFC00001 = true := by decide

theorem test_witness_FloorIsTheGreatestIntegerBelow :
    isFinite 0xBE800000 = true ∧ (-1 : Int) ≤ floorZ 0xBE800000 ∧ ¬ (0 : Int) ≤ floorZ 0xBE800000 := by decide +kernel

theorem test_witness_IntegerConversionsAreExact :
    Int.natAbs (-65535) < 65536 ∧ isFinite 0xFF7FFFFF = true := by decide

/-- The negative zero and the greatest word below 2^24 with a fraction. -/
theorem test_witness_FractionOfAPositionIsExact :
    (isFinite 0x80000000 = true ∧ 0 ≤ fVal 0x80000000) ∧ isFinite 0x4AFFFFFF = true ∧ 0 ≤ fVal 0x4AFFFFFF := by
  decide +kernel

/-- An infinity, the greatest finite word, the least non-zero one and both zeros: operands for every clause, and the
quotients of spec/95_test_vectors.md V0 by a zero. -/
theorem test_witness_InfinitiesAndZeroDivisors :
    (isInf 0x7F800000 = true ∧ isInf 0xFF800000 = true ∧ fSign 0xFF800000 ≠ fSign 0x7F800000) ∧
      (isFinite 0x7F7FFFFF = true ∧ isNaN 0x7F7FFFFF = false) ∧
      (isFinite 0x80000001 = true ∧ isZero 0x80000001 = false ∧ isNaN 0x80000001 = false) ∧
      (isZero 0x00000000 = true ∧ isFinite 0x00000000 = true ∧ isZero 0x80000000 = true) ∧
      fdiv 0x3F800000 0x00000000 = signedInf false ∧ fdiv 0xBF800000 0x00000000 = signedInf true := by decide +kernel

theorem test_witness_IntegerLaws : 0 < 4 ∧ 1 ≤ 4 ∧ 3 < 4 ∧ ((4 : Nat) : Int) ∣ -1 - ((3 : Nat) : Int) := by decide

end Sys2Proof.Tests
end

section
/-! Proofs for spec/00_scope.md: no command and no transaction of the host stops the machine (R10, R195), and the
parameters of R5 are fixed (R9). -/

namespace Sys2Proof.Machine

open Sys2Proof

/-! ## What a command can do to the state -/

/-- `Updated s t`: `t` comes from `s` by the named updates that commands make. Every command's next state is such a
`t` (`exec_updated`), so what all these updates leave unchanged, every command leaves unchanged. -/
inductive Updated (s : State) : State → Prop where
  | refl : Updated s s
  | setMem {t : State} (h : Updated s t) (m : Memory) : Updated s (t.setMem m)
  | setNlive {t : State} (h : Updated s t) (n : Nat) : Updated s (t.setNlive n)
  | setCap {t : State} (h : Updated s t) (n : Nat) : Updated s (t.setCap n)
  | setSidx {t : State} (h : Updated s t) (v : Word) : Updated s (t.setSidx v)
  | setRes {t : State} (h : Updated s t) (v : Word) : Updated s (t.setRes v)
  | setCapped {t : State} (h : Updated s t) : Updated s t.setCapped
  | fail {t : State} (h : Updated s t) (c : ErrCode) (w : Word) : Updated s (t.fail c w)

/-- The parameters are not among what a command updates (R9). -/
theorem Updated.params {s t : State} (h : Updated s t) : t.params = s.params := by
  induction h with
  | refl => rfl
  | setMem _ _ ih | setNlive _ _ ih | setCap _ _ ih | setSidx _ _ ih | setRes _ _ ih | setCapped _ ih
  | fail _ _ _ ih => exact ih

theorem Updated.appendStaged {s t : State} (h : Updated s t) : Updated s t.appendStaged :=
  (h.setMem _).setNlive _

theorem Updated.renderFrames {s t : State} (h : Updated s t) (c f a : Bool) (e : Option Descriptor) (n : Nat) :
    Updated s (t.renderFrames c f a e n) :=
  (h.setMem _).setSidx _

/-- The outcome is a next state, and one that the named updates of a command give. -/
def NextUpdated (s : State) (o : Host.Outcome State Fault Refusal) : Prop :=
  ∃ t, o = .next t ∧ Updated s t

theorem Updated.next {s t : State} (h : Updated s t) : NextUpdated s (.next t) := ⟨t, rfl, h⟩

/-- A check whose failure is `fail` (R196): both ways on answer a next state if the way on past the check does. -/
theorem NextUpdated.check {s : State} {o : Host.Outcome State Fault Refusal} {p : Prop} [Decidable p]
    (c : ErrCode) (w : Word) (h : NextUpdated s o) :
    NextUpdated s (if p then .next (s.fail c w) else o) := by
  split
  · exact (Updated.refl.fail c w).next
  · exact h

/-! ## Every command has a next state (R10, R195) -/

theorem execRender_updated (c f a : Bool) (n : Nat) (s : State) : NextUpdated s (execRender c f a n s) :=
  .check _ _ (.check _ _ (Updated.refl.renderFrames ..).next)

theorem execRenderEnv_updated (c f a : Bool) (t n : Nat) (s : State) : NextUpdated s (execRenderEnv c f a t n s) :=
  .check _ _ (.check _ _ (.check _ _ (Updated.refl.renderFrames ..).next))

theorem execLnear_updated (t : Nat) (s : State) : NextUpdated s (execLnear t s) :=
  .check _ _ (Updated.refl.setRes _).next

theorem execLlin_updated (t : Nat) (s : State) : NextUpdated s (execLlin t s) :=
  .check _ _ (Updated.refl.setRes _).next

theorem execLcyc_updated (k a : Bool) (t n : Nat) (s : State) : NextUpdated s (execLcyc k a t n s) :=
  .check _ _ (.check _ _ (.check _ _ (Updated.refl.setMem _).next))

theorem execLchk_updated (t : Nat) (s : State) : NextUpdated s (execLchk t s) :=
  .check _ _ (Updated.refl.setRes _).next

/-- The three ends of `ALLOC` (R147): room at once, room after growing, no room. -/
theorem execAlloc_updated (s : State) : NextUpdated s (execAlloc s) := by
  simp only [execAlloc]
  have grown : Updated s (s.setCap (s.grownCap s.growStep.toNat)) := Updated.refl.setCap _
  split
  · exact Updated.refl.appendStaged.next
  · split
    · exact grown.appendStaged.next
    · exact grown.setCapped.next

/-- Every command, well-formed or not, has a next state in every state, made by the named updates (R10, R195). -/
theorem exec_updated (i : Instr) (s : State) : NextUpdated s (exec i s) := by
  cases i with
  | nop => exact Updated.refl.next
  | reset => exact (((Updated.refl.setMem _).setNlive _).setSidx _).next
  | render c f a n => exact execRender_updated c f a n s
  | renderEnv c f a t n => exact execRenderEnv_updated c f a t n s
  | alloc => exact execAlloc_updated s
  | shrm | shrd => exact ((Updated.refl.setMem _).setNlive _).next
  | ddec | cscl | sscl => exact (Updated.refl.setMem _).next
  | grow n => exact (Updated.refl.setCap _).next
  | lnear t => exact execLnear_updated t s
  | llin t => exact execLlin_updated t s
  | lcyc k a t n => exact execLcyc_updated k a t n s
  | lchk t => exact execLchk_updated t s

/-- A command word has a next state whether it decodes or is reserved (R10, R89). -/
theorem runWord_updated (s : State) (w : Word) : NextUpdated s (s.runWord w) := by
  unfold State.runWord
  split
  · exact exec_updated _ s
  · exact (Updated.refl.fail _ _).next

/-! ## Every transaction has a next state and keeps the parameters (R9, R10) -/

/-- No location a host write reaches is a parameter (R9). -/
@[simp] theorem State.poke_params (s : State) (v : Word) (l : Location) : (s.poke v l).params = s.params := by
  cases l with
  | osc f i =>
    simp only [State.poke]
    split <;> rfl
  | _ => rfl

theorem hostWrite_next (s : State) (a : Addr) (v : Word) :
    ∃ t, s.hostWrite a v = .next t ∧ t.params = s.params := by
  unfold State.hostWrite
  split
  · obtain ⟨t, ht, hu⟩ := runWord_updated s v
    exact ⟨t, ht, hu.params⟩
  · exact ⟨_, rfl, s.poke_params v _⟩

theorem accept_next (s : State) (tx : Transaction) : ∃ t, s.accept tx = .next t ∧ t.params = s.params := by
  cases tx with
  | write a v => exact hostWrite_next s a v
  | read a => exact ⟨_, rfl, rfl⟩
  | hardReset => exact ⟨_, rfl, rfl⟩

/-- With no transaction pending the unit is idle (R12, R210). -/
theorem step_of_pending_nil {s : State} (h : s.pending = []) : step s = .next s := by
  simp only [step, State.stepPending, h]

/-- With a transaction pending the unit accepts it (R63). -/
theorem step_of_pending_cons {s : State} {tx : Transaction} {rest : List Transaction} (h : s.pending = tx :: rest) :
    step s = State.accept { s with pending := rest } tx := by
  simp only [step, State.stepPending, h]

/-- Settles O4: an idle step keeps the state, and every accepted transaction has a next state with the same
parameters. -/
theorem everyStepHasANextState : Obligations.EveryStepHasANextState := by
  intro s
  cases hp : s.pending with
  | nil => exact ⟨s, step_of_pending_nil hp, rfl, fun _ => rfl⟩
  | cons tx rest =>
    obtain ⟨t, ht, hparams⟩ := accept_next { s with pending := rest } tx
    exact ⟨t, (step_of_pending_cons hp).trans ht, hparams, fun h => absurd h (List.cons_ne_nil tx rest)⟩

end Sys2Proof.Machine
end

section
/-! Proofs for spec/10_state.md: what a step can do to the pool and to memory (R26, R28), the invariants of R38 and
R39, the opaque fields of R37, the descriptors of R41, the port after hardware reset (R45), and the execution of a
command word (R20). -/

namespace Sys2Proof.Machine

open Sys2Proof

/-! ## What a command does to the pool and to memory -/

/-- A word that a command may write while it keeps the pool: of a live slot or of `OBUF` (R70). -/
def State.CommandWord (s : State) (a : Nat) : Prop :=
  SlotWord Field.all s.nlive a ∨ OutputWord s.params.maxFrames a

theorem State.commandWord_oscAddr {s : State} (f : Field) {i : Nat} (h : i < s.nlive) :
    s.CommandWord (oscAddr f i) :=
  .inl ⟨f, f.mem_all, i, h, rfl⟩

theorem State.commandWord_obuf {s : State} {k : Nat} (h : k < s.params.maxFrames) : s.CommandWord (obufBase + k) :=
  .inr ⟨k, h, rfl⟩

/-- `t` has the sizes of `s`, and its memory comes from that of `s` by a command's writes. -/
structure State.KeepsPool (s t : State) : Prop where
  params : t.params = s.params
  nlive : t.nlive = s.nlive
  cap : t.cap = s.cap
  capMax : t.capMax = s.capMax
  wrote : Memory.Wrote s.CommandWord s.mem t.mem

theorem State.keepsPool_fail (s : State) (c : ErrCode) (w : Word) : s.KeepsPool (s.fail c w) :=
  ⟨rfl, rfl, rfl, rfl, .refl⟩

theorem State.keepsPool_setRes (s : State) (v : Word) : s.KeepsPool (s.setRes v) :=
  ⟨rfl, rfl, rfl, rfl, .refl⟩

theorem State.keepsPool_setMem {s : State} {m : Memory} (h : Memory.Wrote s.CommandWord s.mem m) :
    s.KeepsPool (s.setMem m) :=
  ⟨rfl, rfl, rfl, rfl, h⟩

/-- A loop over the live slots whose turns write their own slot keeps the pool. -/
theorem State.keepsPool_forEach (s : State) {op : Memory → Nat → Memory}
    (h : ∀ (S : Nat → Prop) (m : Memory) (i : Nat), (∀ f : Field, S (oscAddr f i)) → Memory.Wrote S m (op m i)) :
    s.KeepsPool (s.setMem (Memory.forEach s.nlive op s.mem)) :=
  keepsPool_setMem (Memory.wrote_forEach s.mem (fun i hi m => h _ m i (fun f => commandWord_oscAddr f hi)))

theorem State.keepsPool_renderFrames {s : State} (c f a : Bool) (e : Option Descriptor) {n : Nat}
    (h : n ≤ s.params.maxFrames) : s.KeepsPool (s.renderFrames c f a e n) := by
  refine ⟨rfl, rfl, rfl, rfl, (wrote_renderFrames _ n s.mem).mono ?_⟩
  rintro _ (⟨g, _, i, hi, rfl⟩ | ⟨k, hk, rfl⟩)
  · exact commandWord_oscAddr g hi
  · exact commandWord_obuf (by omega)

/-- The outcome is a next state with the same pool. -/
def NextKeepsPool (s : State) (o : Host.Outcome State Fault Refusal) : Prop :=
  ∃ t, o = .next t ∧ s.KeepsPool t

theorem State.KeepsPool.next {s t : State} (h : s.KeepsPool t) : NextKeepsPool s (.next t) := ⟨t, rfl, h⟩

/-- A check whose failure is `fail` (R196) keeps the pool if the way on past it does. -/
theorem NextKeepsPool.check {s : State} {o : Host.Outcome State Fault Refusal} {p : Prop} [Decidable p]
    (c : ErrCode) (w : Word) (h : ¬ p → NextKeepsPool s o) :
    NextKeepsPool s (if p then .next (s.fail c w) else o) := by
  split
  · exact (s.keepsPool_fail c w).next
  · exact h ‹_›

theorem execRender_keepsPool (c f a : Bool) (n : Nat) (s : State) : NextKeepsPool s (execRender c f a n s) :=
  .check _ _ fun _ => .check _ _ fun hn => (State.keepsPool_renderFrames c f a none (Nat.le_of_not_lt hn)).next

theorem execRenderEnv_keepsPool (c f a : Bool) (t n : Nat) (s : State) :
    NextKeepsPool s (execRenderEnv c f a t n s) :=
  .check _ _ fun _ => .check _ _ fun hn => .check _ _ fun _ =>
    (State.keepsPool_renderFrames c f a _ (Nat.le_of_not_lt hn)).next

theorem execCscl_keepsPool (s : State) : NextKeepsPool s (execCscl s) :=
  (s.keepsPool_forEach fun _ _ _ h =>
    (Memory.wrote_setOsc _ .c1 _ _ (h .c1)).trans (Memory.wrote_setOsc _ .c2 _ _ (h .c2))).next

theorem execSscl_keepsPool (s : State) : NextKeepsPool s (execSscl s) :=
  (s.keepsPool_forEach fun _ _ _ h =>
    (Memory.wrote_setOsc _ .y1 _ _ (h .y1)).trans (Memory.wrote_setOsc _ .y2 _ _ (h .y2))).next

theorem execDdec_keepsPool (s : State) : NextKeepsPool s (execDdec s) :=
  (s.keepsPool_forEach fun _ _ _ h => Memory.wrote_setOsc _ .dur _ _ (h .dur)).next

theorem execLnear_keepsPool (t : Nat) (s : State) : NextKeepsPool s (execLnear t s) :=
  .check _ _ fun _ => (s.keepsPool_setRes _).next

theorem execLlin_keepsPool (t : Nat) (s : State) : NextKeepsPool s (execLlin t s) :=
  .check _ _ fun _ => (s.keepsPool_setRes _).next

theorem execLchk_keepsPool (t : Nat) (s : State) : NextKeepsPool s (execLchk t s) :=
  .check _ _ fun _ => (s.keepsPool_setRes _).next

theorem execLcyc_keepsPool (k a : Bool) (t n : Nat) (s : State) : NextKeepsPool s (execLcyc k a t n s) :=
  .check _ _ fun _ => .check _ _ fun hn => .check _ _ fun _ =>
    (State.keepsPool_setMem (Memory.wrote_forEach s.mem fun _ hj m =>
      Memory.wrote_output a m _ _ (State.commandWord_obuf (by omega)))).next

/-- Everything command `i` can make of `s` as far as the pool goes: most commands keep it; the five pool commands
each have their own ends (R146, R147, R149, R151, R186). -/
inductive CommandEffect (s : State) : Instr → State → Prop where
  | keepsPool {i : Instr} {t : State} (h : s.KeepsPool t) : CommandEffect s i t
  | reset : CommandEffect s .reset
      (((s.setMem (Memory.forEach s.params.maxOsc Memory.clearSlot s.mem)).setNlive 0).setSidx 0)
  | grow (n : Nat) : CommandEffect s (.grow n) (s.setCap (s.grownCap n))
  /-- `ALLOC` found room, at once or in the grown capacity -/
  | appended (c : Nat) (hc : c = s.cap ∨ c = s.grownCap s.growStep.toNat)
      (fits : roundUp s.params.w (s.nlive + 1) ≤ c) : CommandEffect s .alloc (s.setCap c).appendStaged
  | dropped : CommandEffect s .alloc (s.setCap (s.grownCap s.growStep.toNat)).setCapped
  | shrm : CommandEffect s .shrm
      ((s.setMem (Memory.forEach (s.nlive - s.mem.loudCount s.thr s.nlive)
        (fun m j => m.clearSlot (s.mem.loudCount s.thr s.nlive + j)) s.mem)).setNlive
          (s.mem.loudCount s.thr s.nlive))
  | shrd : CommandEffect s .shrd
      ((s.setMem (Memory.dropDead s.nlive 0 s.mem).2).setNlive (Memory.dropDead s.nlive 0 s.mem).1)

theorem NextKeepsPool.effect {s : State} {o : Host.Outcome State Fault Refusal} (h : NextKeepsPool s o) (i : Instr) :
    ∃ t, o = .next t ∧ CommandEffect s i t := by
  obtain ⟨t, ht, hk⟩ := h
  exact ⟨t, ht, .keepsPool hk⟩

theorem execAlloc_effect (s : State) : ∃ t, execAlloc s = .next t ∧ CommandEffect s .alloc t := by
  simp only [execAlloc]
  split
  · exact ⟨_, rfl, .appended s.cap (.inl rfl) ‹_›⟩
  · split
    · exact ⟨_, rfl, .appended _ (.inr rfl) ‹_›⟩
    · exact ⟨_, rfl, .dropped⟩

theorem exec_effect (i : Instr) (s : State) : ∃ t, exec i s = .next t ∧ CommandEffect s i t := by
  cases i with
  | nop => exact ⟨s, rfl, .keepsPool ⟨rfl, rfl, rfl, rfl, .refl⟩⟩
  | reset => exact ⟨_, rfl, .reset⟩
  | render c f a n => exact (execRender_keepsPool c f a n s).effect _
  | renderEnv c f a t n => exact (execRenderEnv_keepsPool c f a t n s).effect _
  | alloc => exact execAlloc_effect s
  | shrm => exact ⟨_, rfl, .shrm⟩
  | shrd => exact ⟨_, rfl, .shrd⟩
  | ddec => exact (execDdec_keepsPool s).effect _
  | cscl => exact (execCscl_keepsPool s).effect _
  | sscl => exact (execSscl_keepsPool s).effect _
  | grow n => exact ⟨_, rfl, .grow n⟩
  | lnear t => exact (execLnear_keepsPool t s).effect _
  | llin t => exact (execLlin_keepsPool t s).effect _
  | lcyc k a t n => exact (execLcyc_keepsPool k a t n s).effect _
  | lchk t => exact (execLchk_keepsPool t s).effect _

theorem effect_of_exec {i : Instr} {s t : State} (h : exec i s = .next t) : CommandEffect s i t := by
  obtain ⟨t', ht', he⟩ := exec_effect i s
  cases h.symm.trans ht'
  exact he

/-! ## What a step can do -/

/-- No other address is that of `CMD` (R45). -/
theorem eq_cmdAddr_of_locate {p : Params} {a : Addr} (h : locate p a = .cmd) : a = cmdAddr := by
  have hs := locate_stands p a
  rw [h] at hs
  exact BitVec.eq_of_toNat_eq hs

theorem locate_cmdAddr (p : Params) : locate p cmdAddr = .cmd := rfl

/-- What accepting one transaction can make of the state (R20, R61, R62, R89, R220). -/
inductive Accepted (s : State) : Transaction → State → Prop where
  | command {w : Word} {i : Instr} {t : State} (hd : decode w = .ok i) (he : CommandEffect s i t) :
      Accepted s (.write cmdAddr w) t
  | reserved (w : Word) : Accepted s (.write cmdAddr w) (s.fail .badOp w)
  | poke (a : Addr) (v : Word) : Accepted s (.write a v) (s.poke v (locate s.params a))
  | read (a : Addr) : Accepted s (.read a) { s with reads := s.reads ++ [s.hostRead a] }
  | hardReset : Accepted s .hardReset s.hardReset

theorem accepted_of_runWord {s t : State} {w : Word} (h : s.runWord w = .next t) :
    Accepted s (.write cmdAddr w) t := by
  unfold State.runWord at h
  split at h
  · exact .command ‹_› (effect_of_exec h)
  · cases h
    exact .reserved w

theorem accepted_of_hostWrite {s t : State} {a : Addr} {v : Word} (h : s.hostWrite a v = .next t) :
    Accepted s (.write a v) t := by
  unfold State.hostWrite at h
  split at h
  · cases eq_cmdAddr_of_locate ‹_›
    exact accepted_of_runWord h
  · cases h
    exact .poke a v

theorem accepted_of_accept {s t : State} {tx : Transaction} (h : s.accept tx = .next t) : Accepted s tx t := by
  cases tx with
  | write a v => exact accepted_of_hostWrite h
  | read a => cases h; exact .read a
  | hardReset => cases h; exact .hardReset

/-- An idle step keeps the state; any other accepts the oldest pending transaction (R63, R210). -/
theorem step_cases {s t : State} (h : step s = .next t) :
    (s.pending = [] ∧ t = s) ∨
      ∃ tx rest, s.pending = tx :: rest ∧ Accepted { s with pending := rest } tx t := by
  cases hp : s.pending with
  | nil =>
    rw [step_of_pending_nil hp] at h
    cases h
    exact .inl ⟨rfl, rfl⟩
  | cons tx rest =>
    rw [step_of_pending_cons hp] at h
    exact .inr ⟨tx, rest, rfl, accepted_of_accept h⟩

/-! ## The invariants (R38, R39) -/

/-- The bounds and multiples that the size invariant comes to when only the live count is not rounded (R39). -/
theorem State.sized_of_bounds {s : State} (hl : s.params.legal) (hn : s.nlive ≤ s.cap) (hc : s.cap ≤ s.capMax)
    (hm : s.capMax ≤ s.params.maxOsc) (hcw : s.cap % s.params.w = 0) (hmw : s.capMax % s.params.w = 0) :
    s.Sized := by
  obtain ⟨hw, how, -⟩ := hl
  have hpos : 0 < s.params.w := by omega
  exact ⟨(roundUp_spec hpos s.nlive).1, roundUp_le hpos hn hcw, hc, hm, roundUp_mod _ _, hcw, hmw, how⟩

/-- A write at this address keeps the memory at mapped addresses and the padding zero. -/
def State.Writable (s : State) (a : Nat) : Prop :=
  MappedWord s.params a = true ∧ ∀ (f : Field) (i : Nat), s.nlive ≤ i → i < s.params.maxOsc → a ≠ oscAddr f i

theorem State.writable_of_lt_oscBase {s : State} {a : Nat} (h : MappedWord s.params a = true) (hlt : a < oscBase) :
    s.Writable a :=
  ⟨h, fun f i _ _ => by have := oscBase_le_oscAddr f i; omega⟩

theorem State.Inv.writable_oscAddr {s : State} (h : s.Inv) (f : Field) {i : Nat} (hi : i < s.nlive) :
    s.Writable (oscAddr f i) := by
  obtain ⟨-, hn, hm, -⟩ := h.bounds
  refine ⟨mappedWord_oscAddr _ f (by omega) hm, fun g j hj hj' he => ?_⟩
  have := (oscAddr_inj (by omega) (by omega) he).2
  omega

theorem State.Inv.writable_lmem {s : State} (h : s.Inv) {j : Nat} (hj : j < s.params.lmemWords) :
    s.Writable (lmemBase + j) := by
  obtain ⟨-, -, -, -, -, -, -, hl, -⟩ := h.legal
  refine writable_of_lt_oscBase ?_ (by unfold lmemBase oscBase; omega)
  simp only [MappedWord, Bool.or_eq_true, Bool.and_eq_true, decide_eq_true_eq]
  omega

theorem State.Inv.writable_fbuf {s : State} (h : s.Inv) {k : Nat} (hk : k < s.params.maxFrames) :
    s.Writable (fbufBase + k) := by
  obtain ⟨-, -, -, -, -, hf, -⟩ := h.legal
  refine writable_of_lt_oscBase ?_ (by unfold fbufBase oscBase; omega)
  simp only [MappedWord, Bool.or_eq_true, Bool.and_eq_true, decide_eq_true_eq]
  omega

theorem State.Inv.writable_obuf {s : State} (h : s.Inv) {k : Nat} (hk : k < s.params.maxFrames) :
    s.Writable (obufBase + k) := by
  obtain ⟨-, -, -, -, -, hf, -⟩ := h.legal
  exact writable_of_lt_oscBase (mappedWord_obuf _ hk) (by unfold obufBase oscBase; omega)

theorem State.Inv.writable_of_commandWord {s : State} (h : s.Inv) {a : Nat} (ha : s.CommandWord a) :
    s.Writable a := by
  rcases ha with ⟨f, -, i, hi, rfl⟩ | ⟨k, hk, rfl⟩
  · exact h.writable_oscAddr f hi
  · exact h.writable_obuf hk

/-- Writes at mapped addresses keep the part of the invariant that is about memory alone. -/
theorem State.Inv.of_wrote {s t : State} (h : s.Inv) {S : Nat → Prop} (hp : t.params = s.params)
    (hw : Memory.Wrote S s.mem t.mem) (hS : ∀ a, S a → MappedWord s.params a = true) (hz : t.Sized) (hd : t.Padded) :
    t.Inv where
  legal := hp ▸ h.legal
  canonical := hw.wf h.canonical
  inMap c hc := hp ▸ (hw.mem_cells hc).elim (h.inMap c) (hS c.1)
  sized := hz
  padded := hd

/-- A slot that was padding and is not written is still zero. -/
theorem State.Inv.osc_eq_zero_of_wrote {s : State} (h : s.Inv) {m : Memory} {S : Nat → Prop} {f : Field} {i : Nat}
    (hw : Memory.Wrote S s.mem m) (hS : ¬ S (oscAddr f i)) (hi : s.nlive ≤ i) (hi' : i < s.params.maxOsc) :
    m.osc f i = 0 :=
  (hw.read_eq hS).trans (h.padded f i hi hi')

/-- New sizes over the same live slots: the invariant is kept if they are in their order and multiples of `W`. -/
theorem State.Inv.resize {s t : State} (h : s.Inv) (hp : t.params = s.params) (hn : t.nlive = s.nlive)
    (hw : Memory.Wrote s.Writable s.mem t.mem) (hc : s.cap ≤ t.cap) (hm : t.cap ≤ t.capMax)
    (ho : t.capMax ≤ s.params.maxOsc) (hcw : t.cap % s.params.w = 0) (hmw : t.capMax % s.params.w = 0) : t.Inv := by
  obtain ⟨hna, hac, -⟩ := h.sized
  refine h.of_wrote hp hw (fun a ha => ha.1)
    (sized_of_bounds (hp ▸ h.legal) (by omega) hm (hp ▸ ho) (hp ▸ hcw) (hp ▸ hmw)) (fun f i hi hi' => ?_)
  rw [hn] at hi
  rw [hp] at hi'
  exact h.osc_eq_zero_of_wrote hw (fun ha => ha.2 f i hi hi' rfl) hi hi'

/-- With all sizes as they were the invariant is kept. -/
theorem State.Inv.keep {s t : State} (h : s.Inv) (hp : t.params = s.params) (hn : t.nlive = s.nlive)
    (hc : t.cap = s.cap) (hm : t.capMax = s.capMax) (hw : Memory.Wrote s.Writable s.mem t.mem) : t.Inv := by
  obtain ⟨-, -, hcm, hmo, -, hcw, hmw, -⟩ := h.sized
  exact h.resize hp hn hw (by omega) (by omega) (by omega) (hc ▸ hcw) (hm ▸ hmw)

theorem State.Inv.keepsPool {s t : State} (h : s.Inv) (hk : s.KeepsPool t) : t.Inv :=
  h.keep hk.params hk.nlive hk.cap hk.capMax (hk.wrote.mono fun _ => h.writable_of_commandWord)

theorem State.Inv.grownCap_spec {s : State} (h : s.Inv) (k : Nat) :
    s.cap ≤ s.grownCap k ∧ s.grownCap k ≤ s.capMax ∧ s.grownCap k % s.params.w = 0 := by
  obtain ⟨-, -, hcm, -, -, -, hmw, -⟩ := h.sized
  exact State.grownCap_spec h.bounds.1 hcm hmw k

/-- A grown capacity keeps the invariant (R146). -/
theorem State.Inv.setGrownCap {s : State} (h : s.Inv) (k : Nat) : (s.setCap (s.grownCap k)).Inv := by
  obtain ⟨-, -, -, hmo, -, -, hmw, -⟩ := h.sized
  obtain ⟨hle, hmax, hmod⟩ := h.grownCap_spec k
  exact h.resize rfl rfl .refl hle hmax hmo hmod hmw

/-- The append keeps the invariant where the rounded count fits the capacity (R147). -/
theorem State.Inv.appendStaged {s : State} (h : s.Inv) (fits : roundUp s.params.w (s.nlive + 1) ≤ s.cap) :
    s.appendStaged.Inv := by
  obtain ⟨hpos, -, hosc, -⟩ := h.bounds
  obtain ⟨-, -, hcm, hmo, -, hcw, hmw, -⟩ := h.sized
  have hlt : s.nlive + 1 ≤ s.cap := Nat.le_trans (roundUp_spec hpos _).1 fits
  have hw := (State.appendStaged_mem h.canonical (by omega)).1
  have hlegal := h.legal
  have hz : s.appendStaged.Sized := by
    refine sized_of_bounds ?_ ?_ ?_ ?_ ?_ ?_ <;>
      simpa only [State.appendStaged_params, State.appendStaged_nlive, State.appendStaged_cap,
        State.appendStaged_capMax]
  have hslot : s.nlive < s.params.maxOsc := by omega
  refine h.of_wrote s.appendStaged_params hw ?_ hz (fun f i hi hi' => ?_)
  · rintro _ ⟨f, rfl⟩
    exact mappedWord_oscAddr _ f hslot hosc
  · simp only [State.appendStaged_nlive, State.appendStaged_params] at hi hi'
    refine h.osc_eq_zero_of_wrote hw ?_ (by omega) hi'
    rintro ⟨g, he⟩
    have := (oscAddr_inj (by omega) (by omega) he).2
    omega

/-- A lower live count keeps the invariant if the slots it gives up are cleared (R149, R151, R186). -/
theorem State.Inv.shrink {s : State} (h : s.Inv) {n : Nat} {m : Memory} (hn : n ≤ s.nlive)
    (hw : Memory.Wrote (SlotWord Field.all s.params.maxOsc) s.mem m)
    (hz : ∀ (f : Field) (i : Nat), n ≤ i → i < s.params.maxOsc → m.osc f i = 0) :
    ((s.setMem m).setNlive n).Inv := by
  obtain ⟨-, -, hosc, -⟩ := h.bounds
  obtain ⟨hna, hac, hcm, hmo, -, hcw, hmw, -⟩ := h.sized
  have hs : ((s.setMem m).setNlive n).Sized :=
    sized_of_bounds h.legal (Nat.le_trans hn (Nat.le_trans hna hac)) hcm hmo hcw hmw
  refine h.of_wrote rfl hw ?_ hs hz
  rintro _ ⟨f, -, i, hi, rfl⟩
  exact mappedWord_oscAddr _ f hi hosc

/-- `RESET` clears every slot (R186). -/
theorem Memory.clearAll_spec {m : Memory} (h : m.wf) {n : Nat} (hn : n ≤ oscStride) :
    Memory.Wrote (SlotWord Field.all n) m (Memory.forEach n Memory.clearSlot m) ∧
      ∀ i, i < n → ∀ f ∈ Field.all, (Memory.forEach n Memory.clearSlot m).osc f i = 0 :=
  Memory.forEach_slots h hn Field.all (fun _ _ => 0)
    (fun i _ m' => Memory.wrote_clearSlot m' i fun f => ⟨f, f.mem_all, rfl⟩)
    (fun _ hi _ hm' _ f _ => (Memory.clearSlot_spec hm' (Nat.lt_of_lt_of_le hi hn)).2.2.2 f)

theorem State.Inv.reset {s : State} (h : s.Inv) :
    ((s.setMem (Memory.forEach s.params.maxOsc Memory.clearSlot s.mem)).setNlive 0).Inv := by
  obtain ⟨hw, hz⟩ := Memory.clearAll_spec h.canonical h.bounds.2.2.1
  exact h.shrink (Nat.zero_le _) hw fun f i _ hi => hz i hi f f.mem_all

/-- Writes to the slots from `lo` up to `NLIVE`, with those from `n` on cleared, are those of a shrink to `n`. -/
theorem State.Inv.shrink_live {s : State} (h : s.Inv) {lo n : Nat} {m : Memory} (hn : n ≤ s.nlive)
    (hw : Memory.Wrote (fun a => ∃ (f : Field) (i : Nat), lo ≤ i ∧ i < s.nlive ∧ a = oscAddr f i) s.mem m)
    (hz : ∀ i, n ≤ i → i < s.nlive → ∀ f : Field, m.osc f i = 0) :
    ((s.setMem m).setNlive n).Inv := by
  obtain ⟨-, hno, hosc, -⟩ := h.bounds
  refine h.shrink hn (hw.mono ?_) (fun f i hi hi' => ?_)
  · rintro _ ⟨f, i, -, hi, rfl⟩
    exact ⟨f, f.mem_all, i, by omega, rfl⟩
  · by_cases hlive : i < s.nlive
    · exact hz i hi hlive f
    · refine h.osc_eq_zero_of_wrote hw ?_ (by omega) hi'
      rintro ⟨g, j, -, hj, he⟩
      have := (oscAddr_inj (by omega) (by omega) he).2
      omega

theorem State.Inv.shrm {s : State} (h : s.Inv) {n : Nat} (hn : n ≤ s.nlive) :
    ((s.setMem (Memory.forEach (s.nlive - n) (fun m j => m.clearSlot (n + j)) s.mem)).setNlive n).Inv := by
  obtain ⟨-, hno, hosc, -⟩ := h.bounds
  obtain ⟨hw, hz⟩ := Memory.clearFrom_spec h.canonical (kept := n) (n := s.nlive) (by omega)
  exact h.shrink_live hn hw hz

theorem State.Inv.shrd {s : State} (h : s.Inv) :
    ((s.setMem (Memory.dropDead s.nlive 0 s.mem).2).setNlive (Memory.dropDead s.nlive 0 s.mem).1).Inv := by
  obtain ⟨-, hno, hosc, -⟩ := h.bounds
  have hw := wrote_dropDead s.nlive 0 s.mem
  obtain ⟨-, hle, hz⟩ := Memory.dropDead_spec s.nlive 0 s.mem h.canonical (by omega)
  rw [Nat.zero_add] at hw hle hz
  exact h.shrink_live hle hw hz

/-- Every command keeps the invariant. -/
theorem State.Inv.command {s t : State} {i : Instr} (h : s.Inv) (he : CommandEffect s i t) : t.Inv := by
  cases he with
  | keepsPool hk => exact h.keepsPool hk
  | reset => exact h.reset.keep rfl rfl rfl rfl .refl
  | grow n => exact h.setGrownCap n
  | appended c hc fits =>
    rcases hc with rfl | rfl
    · exact h.appendStaged fits
    · exact (h.setGrownCap _).appendStaged fits
  | dropped => exact (h.setGrownCap _).keep rfl rfl rfl rfl .refl
  | shrm => exact h.shrm (Memory.loudCount_spec s.mem s.thr s.nlive).1
  | shrd => exact h.shrd

/-- `CAPMAX` takes a multiple of `W` from `CAP` to `MAXOSC` (R27). -/
theorem State.Inv.legalCapMax_spec {s : State} (h : s.Inv) (v : Word) :
    s.cap ≤ s.legalCapMax v ∧ s.legalCapMax v ≤ s.params.maxOsc ∧ s.legalCapMax v % s.params.w = 0 := by
  obtain ⟨-, -, hcm, hmo, -, hcw, -, -⟩ := h.sized
  have := roundDown_le s.params.w (min v.toNat s.params.maxOsc)
  refine ⟨Nat.le_max_left _ _, ?_, max_mod hcw (roundDown_mod _ _)⟩
  unfold State.legalCapMax
  omega

/-- A host write keeps the invariant wherever its location stands in the map (R61, R69). -/
theorem State.Inv.poke {s : State} (h : s.Inv) (v : Word) {l : Location} {a : Nat} (hl : l.Stands s.params a) :
    (s.poke v l).Inv := by
  cases l with
  | capMax =>
    obtain ⟨hle, hmo, hmod⟩ := h.legalCapMax_spec v
    obtain ⟨-, -, -, -, -, hcw, -, -⟩ := h.sized
    exact h.resize rfl rfl .refl (Nat.le_refl _) hle hmo hcw hmod
  | lmem j => exact h.keep rfl rfl rfl rfl (Memory.wrote_write _ _ _ (h.writable_lmem hl.1))
  | fbuf k => exact h.keep rfl rfl rfl rfl (Memory.wrote_write _ _ _ (h.writable_fbuf hl.1))
  | obuf k => exact h.keep rfl rfl rfl rfl (Memory.wrote_write _ _ _ (h.writable_obuf hl.1))
  | osc f i =>
    simp only [State.poke]
    split
    · exact h.keep rfl rfl rfl rfl (Memory.wrote_setOsc _ f i v (h.writable_oscAddr f ‹_›))
    · exact h
  | _ => exact h.keep rfl rfl rfl rfl .refl

/-- Hardware reset leaves the invariant whatever the state was but for its parameters (R221). -/
theorem State.inv_hardReset {s : State} (hl : s.params.legal) : s.hardReset.Inv where
  legal := hl
  canonical := Memory.wf_nil _
  inMap _ hc := absurd hc List.not_mem_nil
  sized := sized_of_bounds hl (Nat.le_refl _) (Nat.le_refl _) (Nat.zero_le _) (Nat.zero_mod _) (Nat.zero_mod _)
  padded _ _ _ _ := Memory.osc_unlisted _ _ _ rfl

theorem State.Inv.accepted {s t : State} {tx : Transaction} (h : s.Inv) (ha : Accepted s tx t) : t.Inv := by
  cases ha with
  | command _ he => exact h.command he
  | reserved w => exact h.keepsPool (s.keepsPool_fail _ w)
  | poke a v => exact h.poke v (locate_stands s.params a)
  | read a => exact h.keep rfl rfl rfl rfl .refl
  | hardReset => exact inv_hardReset h.legal

/-- Settles O3: an idle step changes nothing, and every accepted transaction keeps the invariant. -/
theorem stepKeepsInvariant : Obligations.StepKeepsInvariant := by
  intro s t h hstep
  rcases step_cases hstep with ⟨-, rfl⟩ | ⟨tx, rest, -, ha⟩
  · exact h
  · exact State.Inv.accepted (s := { s with pending := rest }) (h.keep rfl rfl rfl rfl .refl) ha

/-! ## The live count and the capacity (R26, R28) -/

/-- A host write reaches neither `NLIVE` nor `CAP` (R26, R28, R61). -/
theorem State.poke_sizes (s : State) (v : Word) (l : Location) :
    (s.poke v l).nlive = s.nlive ∧ (s.poke v l).cap = s.cap := by
  cases l with
  | osc f i =>
    simp only [State.poke]
    split <;> exact ⟨rfl, rfl⟩
  | _ => exact ⟨rfl, rfl⟩

/-- The loop of `SHRD` never ends above the count it began with, whatever the memory (R151). -/
theorem Memory.dropDead_le : ∀ (rest i : Nat) (m : Memory), (Memory.dropDead rest i m).1 ≤ i + rest
  | 0, _, _ => Nat.le_refl _
  | rest + 1, i, m => by
    unfold Memory.dropDead
    split
    · have := Memory.dropDead_le rest (i + 1) m
      omega
    · exact Nat.le_succ_of_le (Memory.dropDead_le rest i _)

theorem CommandEffect.liveCount {s t : State} {i : Instr} (h : CommandEffect s i t) :
    t.nlive = s.nlive ∨ s.LiveCountChange t i := by
  cases h with
  | keepsPool hk => exact .inl hk.nlive
  | reset => exact .inr (.inr (.inr ⟨rfl, rfl⟩))
  | grow n | dropped => exact .inl rfl
  | appended c _ _ => exact .inr (.inl ⟨rfl, (s.setCap c).appendStaged_nlive⟩)
  | shrm =>
    have hle := (Memory.loudCount_spec s.mem s.thr s.nlive).1
    exact (Nat.eq_or_lt_of_le hle).imp id fun hlt => .inr (.inl ⟨.inl rfl, hlt⟩)
  | shrd =>
    have hle := Memory.dropDead_le s.nlive 0 s.mem
    rw [Nat.zero_add] at hle
    exact (Nat.eq_or_lt_of_le hle).imp id fun hlt => .inr (.inl ⟨.inr rfl, hlt⟩)

/-- Settles O43: of the commands only the pool commands change the count, and of the transactions only the writes of
such commands and hardware reset. -/
theorem onlyPoolCommandsChangeTheLiveCount : Obligations.OnlyPoolCommandsChangeTheLiveCount := by
  refine ⟨fun s t i h => (effect_of_exec h).liveCount, fun s t hstep hno => ?_, fun s t hstep hhead => ?_⟩
  · rcases step_cases hstep with ⟨-, rfl⟩ | ⟨tx, rest, hp, ha⟩
    · exact .inl rfl
    · rw [hp, List.head?_cons] at hno ⊢
      cases ha with
      | command hd he => exact he.liveCount.imp id fun hc => ⟨_, _, rfl, hd, hc⟩
      | poke a v => exact .inl (State.poke_sizes _ v _).1
      | reserved | read => exact .inl rfl
      | hardReset => exact absurd rfl hno
  · rcases step_cases hstep with ⟨hp, -⟩ | ⟨tx, rest, hp, ha⟩
    · rw [hp] at hhead
      cases hhead
    · rw [hp, List.head?_cons] at hhead
      cases hhead
      cases ha with
      | hardReset => rfl

/-- A command never lowers `CAP`, and changes it only as `GROW` or `ALLOC` (R28). -/
theorem CommandEffect.capacity {s t : State} {i : Instr} (h : CommandEffect s i t) (hs : s.Inv) :
    s.cap ≤ t.cap ∧ (t.cap ≠ s.cap → i = .alloc ∨ ∃ n, i = .grow n) := by
  cases h with
  | keepsPool hk => exact ⟨Nat.le_of_eq hk.cap.symm, fun hne => absurd hk.cap hne⟩
  | reset | shrm | shrd => exact ⟨Nat.le_refl _, fun hne => absurd rfl hne⟩
  | grow n => exact ⟨(hs.grownCap_spec n).1, fun _ => .inr ⟨n, rfl⟩⟩
  | appended c hc _ =>
    refine ⟨?_, fun _ => .inl rfl⟩
    rw [State.appendStaged_cap, State.setCap_cap]
    rcases hc with rfl | rfl
    · exact Nat.le_refl _
    · exact (hs.grownCap_spec _).1
  | dropped => exact ⟨(hs.grownCap_spec _).1, fun _ => .inl rfl⟩

/-- Settles O44: no host write reaches `CAP`, and of the commands only `GROW` and `ALLOC` do, to a capacity that is
no lower. -/
theorem capacityOnlyGrows : Obligations.CapacityOnlyGrows := by
  intro s t hs hno hstep
  rcases step_cases hstep with ⟨-, rfl⟩ | ⟨tx, rest, hp, ha⟩
  · exact ⟨Nat.le_refl _, fun hne => absurd rfl hne⟩
  · rw [hp, List.head?_cons] at hno ⊢
    cases ha with
    | command hd he =>
      obtain ⟨hle, hch⟩ := he.capacity (hs.keep rfl rfl rfl rfl .refl)
      exact ⟨hle, fun hne => ⟨_, _, rfl, hd, hch hne⟩⟩
    | poke a v =>
      rw [(State.poke_sizes _ v _).2]
      exact ⟨Nat.le_refl _, fun hne => absurd rfl hne⟩
    | reserved | read => exact ⟨Nat.le_refl _, fun hne => absurd rfl hne⟩
    | hardReset => exact absurd rfl hno

/-! ## Descriptors (R41) -/

theorem isNaN_of_isFinite {a : Word} (h : isFinite a = true) : isNaN a = false := by
  cases hn : isNaN a with
  | false => rfl
  | true => exact absurd h (by rw [isFinite_of_isNaN hn]; decide)

/-- Among finite words `fgt` is the order of the values (R110). -/
theorem fgt_iff_of_isFinite {a b : Word} (ha : isFinite a = true) (hb : isFinite b = true) :
    fgt a b = true ↔ fVal b < fVal a := by
  simp only [fgt, isNaN_of_isFinite ha, isNaN_of_isFinite hb, fVal_lt_iff, Bool.not_false, Bool.true_and,
    decide_eq_true_eq]

/-- A finite word is greater than `+0.0` exactly if its value is positive (R41, R110). -/
theorem fgt_zero_iff {a : Word} (ha : isFinite a = true) : fgt a 0 = true ↔ 0 < fVal a := by
  have hzero : fVal 0 = 0 := by decide
  rw [fgt_iff_of_isFinite ha (by decide), hzero]

theorem State.storageOk_iff (s : State) (t : Nat) :
    s.storageOk t = true ↔
      t < s.params.nLut ∧ 1 ≤ (s.lut t).len.toNat ∧
        (s.lut t).base.toNat + (s.lut t).len.toNat ≤ s.params.lmemWords := by
  simp only [State.storageOk, Bool.and_eq_true, decide_eq_true_eq, and_assoc]

theorem State.axisOk_iff (s : State) (t : Nat) :
    s.axisOk t = true ↔
      isFinite (s.lut t).minX = true ∧ isFinite (s.lut t).dx = true ∧ 0 < fVal (s.lut t).dx := by
  simp only [State.axisOk, Bool.and_eq_true, and_assoc]
  exact and_congr_right fun _ => and_congr_right fun hdx => fgt_zero_iff hdx

theorem State.curveOk_iff (s : State) (t : Nat) :
    s.curveOk t = true ↔ s.storageOk t = true ∧ s.axisOk t = true := by
  simp only [State.curveOk, Bool.and_eq_true]

/-- Settles O40: the predicates are the conjunctions that R41 writes, and the test `DX > 0` on a finite `DX` is the
order of the values. -/
theorem descriptorValidity : Obligations.DescriptorValidity :=
  fun s t => ⟨s.storageOk_iff t, s.axisOk_iff t, s.curveOk_iff t⟩

/-! ## The port after hardware reset (R45, R221) -/

theorem State.staged_reset (f : Field) : State.reset.staged f = 0 := by cases f <;> rfl

theorem State.lut_reset (t : Nat) : State.reset.lut t = Descriptor.empty := by
  simp [State.lut, State.reset, Vector.getD, Array.getD]

/-- Right after hardware reset every location reads 0 but for the three constants and the free memories. -/
theorem State.peek_reset {a : Nat} {l : Location} (hl : l.Stands Params.default a)
    (ha : a < lmemBase ∨ obufEnd ≤ a) (hid : 3 ≤ a) : State.reset.peek l = 0 := by
  cases l with
  | id | param0 | param1 =>
    simp only [Location.Stands] at hl
    omega
  | lmem _ | fbuf _ | obuf _ =>
    simp only [Location.Stands, Params.default, lmemBase, fbufBase, obufBase] at hl
    unfold lmemBase obufEnd at ha
    omega
  | staged f => exact staged_reset f
  | lutBase t | lutLen t | lutMinX t | lutDx t =>
    simp only [State.peek, lut_reset]
    rfl
  | osc f i => exact Memory.osc_unlisted _ f i rfl
  | _ => rfl

/-- Settles O1: the three constants at their addresses, and the map elsewhere. -/
theorem resetPortReadsSpecValues : Obligations.ResetPortReadsSpecValues := by
  intro a ha
  split_ifs with h0 h1 h2
  · subst h0; rfl
  · subst h1; rfl
  · subst h2; rfl
  · refine State.peek_reset (locate_stands Params.default a) ha ?_
    bv_omega

/-! ## A command word runs as the command it decodes to (R20, R63) -/

/-- The decoder's answer, if it is a command, is a well-formed one. -/
def DecodesWellFormed (r : Except Reserved Instr) : Prop := ∀ i, r = .ok i → WellFormed i = true

theorem DecodesWellFormed.ok {i : Instr} (h : WellFormed i = true) : DecodesWellFormed (.ok i) := by
  intro j hj
  cases hj
  exact h

theorem DecodesWellFormed.whenZero {b : Bool} {i : Instr} (h : WellFormed i = true) :
    DecodesWellFormed (whenZero b i) := by
  intro j hj
  obtain ⟨-, rfl⟩ := whenZero_eq_ok.1 hj
  exact h

theorem DecodesWellFormed.ite {p : Prop} [Decidable p] {r r' : Except Reserved Instr} (h : DecodesWellFormed r)
    (h' : DecodesWellFormed r') : DecodesWellFormed (if p then r else r') := by
  split
  · exact h
  · exact h'

/-- The case analysis of R91 gives only commands whose operands are fields of the word, opcode by opcode. -/
theorem decodeFields_wellFormed (op : Nat) (fE fC fF fA : Bool) {t n : Nat} (ht : TableFits t) (hn : CountFits n) :
    DecodesWellFormed (decodeFields op fE fC fF fA t n) := by
  have htable : decide (TableFits t) = true := decide_eq_true ht
  have hcount : decide (CountFits n) = true := decide_eq_true hn
  have hboth : (decide (TableFits t) && decide (CountFits n)) = true := by rw [htable, hcount]; rfl
  exact .ite (.whenZero rfl) <| .ite (.whenZero rfl) <|
    .ite (.ite (.ok hboth) (.whenZero hcount)) <|
    .ite (.whenZero rfl) <| .ite (.whenZero rfl) <| .ite (.whenZero rfl) <|
    .ite (.whenZero rfl) <| .ite (.whenZero rfl) <| .ite (.whenZero rfl) <|
    .ite (.whenZero hcount) <| .ite (.whenZero htable) <| .ite (.whenZero htable) <|
    .ite (.whenZero hboth) <| .ite (.whenZero htable) <| fun _ h => nomatch h

theorem wellFormed_of_decode {w : Word} {i : Instr} (h : decode w = .ok i) : WellFormed i = true :=
  decodeFields_wellFormed _ _ _ _ _ (Nat.mod_lt _ (by decide)) (Nat.mod_lt _ (by decide)) i h

theorem State.accept_command (s : State) {w : Word} {i : Instr} (h : decode w = .ok i) :
    s.accept (.write cmdAddr w) = exec i s := by
  simp only [State.accept, State.hostWrite, locate_cmdAddr, State.runWord, h]

/-- Settles O5: the write reaches `CMD`, whose word runs as its decoding, and a decoding is well-formed. -/
theorem stepRunsDecodedCommand : Obligations.StepRunsDecodedCommand := by
  intro s w i rest hp hd
  exact ⟨wellFormed_of_decode hd, (step_of_pending_cons hp).trans (State.accept_command _ hd)⟩

end Sys2Proof.Machine
end

section
/-! Proofs for spec/10_state.md R37: the opaque fields. The commands are run side by side on two memories that differ
only in opaque words; each lemma below says of one operation that it keeps the two so and that what it reads is the
same in both. Lookups need that their indices stay inside the table, so the conversion of R114 comes first. -/

namespace Sys2Proof.Machine

open Sys2Proof

/-! ## A position strictly inside a table has both its neighbours in it (R113, R114, R167) -/

/-- A magnitude of 24 significant bits is represented exactly: `q · 2^s` packs as exponent `s + 1` (R105, R106). -/
theorem roundMag_exact {q s : Nat} (hlo : 2 ^ 23 ≤ q) (hhi : q < 2 ^ 24) (hs : s ≤ 253) :
    roundMag (q * 2 ^ s) 1 = s * 2 ^ 23 + q := by
  have hpos : 0 < 2 ^ s := Nat.two_pow_pos s
  have hlog : Nat.log2 (q * 2 ^ s) = 23 + s := by
    rw [Nat.log2_eq_iff (by positivity), Nat.pow_add, show 23 + s + 1 = 24 + s by omega, Nat.pow_add]
    exact ⟨Nat.mul_le_mul_right _ hlo, Nat.mul_lt_mul_of_pos_right hhi hpos⟩
  have hround : roundEven (q * 2 ^ s) (2 ^ s) = q := by
    simp only [roundEven, Nat.mul_div_cancel _ hpos, Nat.mul_mod_left, Nat.mul_zero, hpos, if_true]
  simp only [roundMag, Nat.div_one, hlog, Nat.add_sub_cancel_left, Nat.one_mul, hround]
  unfold infLow
  omega

/-- The magnitude of the word with exponent `s + 1` and significand `q` (R105). -/
theorem fMag_fPack {q s : Nat} (neg : Bool) (hlo : 2 ^ 23 ≤ q) (hhi : q < 2 ^ 24) (hs : s ≤ 253) :
    fMag (fPack neg (s * 2 ^ 23 + q)) = q * 2 ^ s := by
  have hlt : s * 2 ^ 23 + q < 2 ^ 31 := by omega
  have hexp : fExp (fPack neg (s * 2 ^ 23 + q)) = s + 1 := by rw [fExp_fPack neg _ hlt]; omega
  have hfrac : fFrac (fPack neg (s * 2 ^ 23 + q)) = q - 2 ^ 23 := by rw [fFrac_fPack neg _ hlt]; omega
  rw [fMag, hexp, hfrac, if_neg (Nat.succ_ne_zero s), Nat.add_sub_cancel, Nat.add_sub_cancel' hlo]

/-- `i2f` is exact on counts of at most 24 bits (R114). -/
theorem fVal_i2f {k : Nat} (hk : k < 2 ^ 24) : fVal (i2f k) = k * 2 ^ 149 := by
  rcases Nat.eq_zero_or_pos k with rfl | hpos
  · decide
  have hne : k ≠ 0 := Nat.ne_of_gt hpos
  have hle := Nat.log2_self_le hne
  have hlt := @Nat.lt_log2_self k
  have hL : k.log2 < 24 := (Nat.log2_lt hne).2 hk
  generalize k.log2 = L at hle hlt hL
  have hlo : 2 ^ 23 ≤ k * 2 ^ (23 - L) := by
    calc 2 ^ 23 = 2 ^ L * 2 ^ (23 - L) := by rw [← Nat.pow_add]; congr 1; omega
      _ ≤ k * 2 ^ (23 - L) := Nat.mul_le_mul_right _ hle
  have hhi : k * 2 ^ (23 - L) < 2 ^ 24 := by
    calc k * 2 ^ (23 - L) < 2 ^ (L + 1) * 2 ^ (23 - L) :=
          Nat.mul_lt_mul_of_pos_right hlt (Nat.two_pow_pos _)
      _ = 2 ^ 24 := by rw [← Nat.pow_add]; congr 1; omega
  have hsplit : k * 2 ^ 149 = k * 2 ^ (23 - L) * 2 ^ (L + 126) := by
    rw [Nat.mul_assoc, ← Nat.pow_add]; congr 2; omega
  have hs : L + 126 ≤ 253 := by omega
  have hnonneg : decide ((k : Int) < 0) = false := decide_eq_false (by omega)
  have hlow := roundMag_lt (k * 2 ^ 149) 1
  rw [i2f, hnonneg, Int.natAbs_natCast, fVal, fSign_fPack false _ hlow, hsplit, roundMag_exact hlo hhi hs,
    fMag_fPack false hlo hhi hs, ← hsplit]
  norm_cast

theorem isNaN_i2f (k : Int) : isNaN (i2f k) = false := isNaN_fPack _ _ (roundMag_le _ _)

/-- A position above zero and below the index `n` has its greatest integer in `0 .. n-1` (R113, R167). -/
theorem floorZ_between {p : Word} {n : Nat} (hn : n < 2 ^ 24) (hpos : fgt p 0 = true)
    (hlast : fge p (i2f n) = false) : 0 ≤ floorZ p ∧ floorZ p < n := by
  simp only [fgt, Bool.and_eq_true, Bool.not_eq_true', decide_eq_true_eq, ← fVal_lt_iff] at hpos
  obtain ⟨⟨hnan, -⟩, hgt⟩ := hpos
  have hkey : fKey p < fKey (i2f n) := by
    simpa only [fge, hnan, isNaN_i2f, Bool.not_false, Bool.true_and, decide_eq_false_iff_not, not_le] using hlast
  have hval : fVal p < n * 2 ^ 149 := fVal_i2f hn ▸ fVal_lt_iff.2 hkey
  have hzero : fVal 0 = 0 := by decide
  rw [hzero] at hgt
  exact ⟨Int.ediv_nonneg (Int.le_of_lt hgt) (by decide), Int.ediv_lt_of_lt_mul (by decide) hval⟩

theorem emod_lt (i : Int) {m : Nat} (hm : 1 ≤ m) : emod i m < m := by
  have h1 := Int.emod_nonneg i (show (m : Int) ≠ 0 by omega)
  have h2 := Int.emod_lt_of_pos i (show (0 : Int) < m by omega)
  unfold emod
  omega

/-- `LNEAR` and `LLIN` read no sample outside their table (R167, R168). -/
theorem Memory.lookup_congr {m m' : Memory} {d : Descriptor} (hlen : 1 ≤ d.len.toNat)
    (h : ∀ j, j < d.len.toNat → m'.sample d j = m.sample d j) (x : Word) (between : Word → Word → Word → Word) :
    m'.lookup d x between = m.lookup d x between := by
  have hlast : (d.len.toNat : Int) - 1 = ((d.len.toNat - 1 : Nat) : Int) := by omega
  have hfit := d.len.isLt
  simp only [Memory.lookup, hlast]
  split_ifs with hfirst hend
  · exact h 0 (by omega)
  · exact h _ (by omega)
  · obtain ⟨h0, h1⟩ := floorZ_between (n := d.len.toNat - 1) (by omega) (by simpa using hfirst) (by simpa using hend)
    rw [h _ (by omega), h _ (by omega)]

/-- `LCYC` reads no sample at or beyond its period (R169). -/
theorem Memory.cyclic_congr {m m' : Memory} {d : Descriptor} {period : Nat} (hperiod : 1 ≤ period)
    (h : ∀ j, j < period → m'.sample d j = m.sample d j) (p : Word) :
    m'.cyclic d period p = m.cyclic d period p := by
  simp only [Memory.cyclic, h _ hperiod, h _ (emod_lt _ hperiod)]

/-! ## Two memories that differ only in opaque words -/

/-- Canonical memories that differ at most in the opaque words of the slots (R37). -/
structure Memory.SameButOpaque (m m' : Memory) : Prop where
  wf : m.wf
  wf' : m'.wf
  same : m'.SameOutside m OpaqueWord

/-- A word below the slot window is not opaque. -/
theorem not_opaqueWord_of_lt {a : Nat} (h : a < oscBase) : ¬ OpaqueWord a := by
  rintro ⟨f, -, i, -, rfl⟩
  have := oscBase_le_oscAddr f i
  omega

/-- Of a slot's words only those of the three opaque fields are opaque. -/
theorem not_opaqueWord_oscAddr {f : Field} {i : Nat} (hf : f ∉ [Field.radius, .freq, .decay]) (hi : i < oscStride) :
    ¬ OpaqueWord (oscAddr f i) := by
  rintro ⟨g, hg, j, hj, he⟩
  obtain ⟨rfl, -⟩ := oscAddr_inj hi hj he
  exact hf hg

namespace Memory.SameButOpaque

variable {m m' : Memory}

theorem osc (h : m.SameButOpaque m') {f : Field} {i : Nat} (hi : i < oscStride)
    (hf : f ∉ [Field.radius, .freq, .decay]) : m'.osc f i = m.osc f i :=
  h.same.2 _ (not_opaqueWord_oscAddr hf hi)

theorem fbuf (h : m.SameButOpaque m') {k : Nat} (hk : k < oscStride) : m'.fbuf k = m.fbuf k :=
  h.same.2 _ (not_opaqueWord_of_lt (by unfold fbufBase oscBase; unfold oscStride at hk; omega))

theorem obuf (h : m.SameButOpaque m') {k : Nat} (hk : k < oscStride) : m'.obuf k = m.obuf k :=
  h.same.2 _ (not_opaqueWord_of_lt (by unfold obufBase oscBase; unfold oscStride at hk; omega))

/-- The samples of a table that lies in `LMEM` are the same in both. -/
theorem sample (h : m.SameButOpaque m') {d : Descriptor} (hd : d.base.toNat + d.len.toNat ≤ 4096) {j : Nat}
    (hj : j < d.len.toNat) : m'.sample d j = m.sample d j :=
  h.same.2 _ (not_opaqueWord_of_lt (by unfold lmemBase oscBase; omega))

/-- A write of one word to both. -/
theorem write (h : m.SameButOpaque m') (a : Nat) (v : Word) : (m.write a v).SameButOpaque (m'.write a v) where
  wf := write_wf h.wf a v
  wf' := write_wf h.wf' a v
  same := ⟨h.same.1, fun b hb => by rw [read_write h.wf', read_write h.wf, h.same.2 b hb]⟩

/-- Writes of two words to one opaque word. -/
theorem write_opaque (h : m.SameButOpaque m') {a : Nat} (ha : OpaqueWord a) (v v' : Word) :
    (m.write a v).SameButOpaque (m'.write a v') where
  wf := write_wf h.wf a v
  wf' := write_wf h.wf' a v'
  same := ⟨h.same.1, fun b hb => by
    have hba : b ≠ a := fun hab => hb (hab ▸ ha)
    rw [read_write_other _ _ _ _ hba, read_write_other _ _ _ _ hba, h.same.2 b hb]⟩

theorem setOsc (h : m.SameButOpaque m') (f : Field) (i : Nat) (v : Word) :
    (m.setOsc f i v).SameButOpaque (m'.setOsc f i v) := h.write _ v

theorem output (h : m.SameButOpaque m') (add : Bool) {k : Nat} (hk : k < oscStride) (v : Word) :
    (m.output add k v).SameButOpaque (m'.output add k v) := by
  simp only [Memory.output, h.obuf hk]
  exact h.write _ _

theorem forEach (h : m.SameButOpaque m') {n : Nat} {op op' : Memory → Nat → Memory}
    (hop : ∀ i, i < n → ∀ m m' : Memory, m.SameButOpaque m' → (op m i).SameButOpaque (op' m' i)) :
    (Memory.forEach n op m).SameButOpaque (Memory.forEach n op' m') :=
  List.foldl_rel h fun i hi m m' => hop i (List.mem_range.mp hi) m m'

theorem clearSlot (h : m.SameButOpaque m') (i : Nat) : (m.clearSlot i).SameButOpaque (m'.clearSlot i) :=
  List.foldl_rel h fun f _ _ _ hm => hm.setOsc f i 0

/-- A copied word of an opaque field may differ, but then it is copied to an opaque word. -/
theorem copySlot (h : m.SameButOpaque m') {j i : Nat} (hj : j < oscStride) (hi : i < oscStride) :
    (m.copySlot j i).SameButOpaque (m'.copySlot j i) := by
  refine List.foldl_rel h fun f _ m m' hm => ?_
  by_cases hf : f ∈ [Field.radius, .freq, .decay]
  · exact hm.write_opaque ⟨f, hf, i, hi, rfl⟩ _ _
  · rw [hm.osc hj hf]
    exact hm.setOsc f i _

/-! ## RENDER -/

theorem slotOutput (h : m.SameButOpaque m') (forcing : Bool) (x : Word) {i : Nat} (hi : i < oscStride) :
    Machine.slotOutput forcing x m' i = Machine.slotOutput forcing x m i := by
  simp only [Machine.slotOutput, h.osc hi (f := .c1) (by decide), h.osc hi (f := .c2) (by decide),
    h.osc hi (f := .y1) (by decide), h.osc hi (f := .y2) (by decide), h.osc hi (f := .gain) (by decide)]

theorem chirpedC1 (h : m.SameButOpaque m') {i : Nat} (hi : i < oscStride) :
    Machine.chirpedC1 m' i = Machine.chirpedC1 m i := by
  simp only [Machine.chirpedC1, h.osc hi (f := .c1) (by decide), h.osc hi (f := .cmul) (by decide),
    h.osc hi (f := .clim) (by decide)]

theorem advanceSlot (h : m.SameButOpaque m') (chirp : Bool) (y0 : Word) {i : Nat} (hi : i < oscStride) :
    (Machine.advanceSlot chirp y0 m i).SameButOpaque (Machine.advanceSlot chirp y0 m' i) := by
  have hmoved := (h.setOsc .y2 i (m.osc .y1 i)).setOsc .y1 i y0
  unfold Machine.advanceSlot
  rw [h.osc hi (f := .y1) (by decide), h.chirpedC1 hi]
  cases chirp with
  | false => exact hmoved
  | true => exact hmoved.setOsc .c1 i _

end Memory.SameButOpaque

/-- Two passes over the groups stand alike: the memories up to opaque words, the accumulators exactly. -/
def SameLanes (st st' : Memory × List Word) : Prop := st.1.SameButOpaque st'.1 ∧ st'.2 = st.2

theorem SameLanes.renderLane {st st' : Memory × List Word} (h : SameLanes st st') {j : RenderJob} {k : Nat}
    (hn : j.nlive ≤ oscStride) (hk : k < oscStride) (g l : Nat) :
    SameLanes (renderLane j k g st l) (renderLane j k g st' l) := by
  obtain ⟨hm, hacc⟩ := h
  simp only [Machine.renderLane]
  split
  · have hi : g * j.width + l < oscStride := by omega
    rw [hm.fbuf hk, hm.slotOutput _ _ hi, hacc]
    exact ⟨hm.advanceSlot _ _ hi, rfl⟩
  · exact ⟨hm, hacc⟩

namespace Memory.SameButOpaque

variable {m m' : Memory}

theorem renderGroups (h : m.SameButOpaque m') {j : RenderJob} {k : Nat} (hn : j.nlive ≤ oscStride)
    (hk : k < oscStride) : SameLanes (renderGroups j k m) (renderGroups j k m') :=
  List.foldl_rel (r := SameLanes) ⟨h, rfl⟩ fun g _ _ _ hg =>
    List.foldl_rel hg fun l _ _ _ hl => hl.renderLane hn hk g l

theorem shaped (h : m.SameButOpaque m') {j : RenderJob}
    (he : ∀ d, j.envelope = some d → d.base.toNat + d.len.toNat ≤ 4096) (k : Nat) (v : Word) :
    Machine.shaped j k m' v = Machine.shaped j k m v := by
  unfold Machine.shaped
  split
  · rfl
  · rename_i d hd
    split
    · rw [h.sample (he d hd) ‹_›]
    · rfl

theorem renderFrame (h : m.SameButOpaque m') {j : RenderJob} {k : Nat} (hn : j.nlive ≤ oscStride)
    (he : ∀ d, j.envelope = some d → d.base.toNat + d.len.toNat ≤ 4096) (hk : k < oscStride) :
    (Machine.renderFrame j m k).SameButOpaque (Machine.renderFrame j m' k) := by
  obtain ⟨hm, hacc⟩ := h.renderGroups hn hk
  simp only [Machine.renderFrame, hacc, hm.shaped he]
  exact hm.output _ hk _

/-! ## SHRM and SHRD -/

/-- The scan of `SHRM` reads `Y1` and `Y2` (R149). -/
theorem loudCount (h : m.SameButOpaque m') (thr : Word) : ∀ n, n ≤ oscStride → m'.loudCount thr n = m.loudCount thr n
  | 0, _ => rfl
  | n + 1, hn => by
    have hloud : m'.loud thr n = m.loud thr n := by
      simp only [Memory.loud, h.osc hn (f := .y1) (by decide), h.osc hn (f := .y2) (by decide)]
    simp only [Memory.loudCount, hloud, h.loudCount thr n (by omega)]

/-- The loop of `SHRD` reads `DUR` and copies whole slots (R151). -/
theorem dropDead : ∀ (rest i : Nat) {m m' : Memory}, m.SameButOpaque m' → i + rest ≤ oscStride →
    (Memory.dropDead rest i m').1 = (Memory.dropDead rest i m).1 ∧
      (Memory.dropDead rest i m).2.SameButOpaque (Memory.dropDead rest i m').2
  | 0, _, _, _, h, _ => ⟨rfl, h⟩
  | rest + 1, i, m, m', h, hle => by
    have halive : m'.alive i = m.alive i := by
      simp only [Memory.alive, h.osc (f := .dur) (i := i) (by omega) (by decide)]
    have hmoved : (if i ≠ i + rest then m.copySlot (i + rest) i else m).SameButOpaque
        (if i ≠ i + rest then m'.copySlot (i + rest) i else m') := by
      split
      · exact h.copySlot (by omega) (by omega)
      · exact h
    simp only [Memory.dropDead, halive]
    split
    · exact dropDead rest (i + 1) h (by omega)
    · exact dropDead rest i (hmoved.clearSlot (i + rest)) (by omega)

end Memory.SameButOpaque

/-! ## The commands -/

/-- Two runs answer next states that differ only in opaque words. -/
def SameNext (o o' : Host.Outcome State Fault Refusal) : Prop :=
  ∃ (t : State) (m : Memory), o = .next t ∧ o' = .next (t.setMem m) ∧ t.mem.SameButOpaque m

theorem Memory.SameButOpaque.next {t : State} {m : Memory} (h : t.mem.SameButOpaque m) :
    SameNext (.next t) (.next (t.setMem m)) := ⟨t, m, rfl, rfl, h⟩

section Commands

variable {s : State} {m : Memory}

/-- A branch taken alike in both runs. -/
theorem SameNext.ite {a a' b b' : Host.Outcome State Fault Refusal} {p : Prop} [Decidable p]
    (ha : p → SameNext a a') (hb : ¬ p → SameNext b b') :
    SameNext (if p then a else b) (if p then a' else b') := by
  split
  · exact ha ‹_›
  · exact hb ‹_›

/-- A check made alike in both runs, whose failure is `fail` (R196). -/
theorem SameNext.check (h : s.mem.SameButOpaque m) {o o' : Host.Outcome State Fault Refusal} {p : Prop} [Decidable p]
    (c : ErrCode) (w : Word) (ho : ¬ p → SameNext o o') :
    SameNext (if p then .next (s.fail c w) else o) (if p then .next ((s.setMem m).fail c w) else o') :=
  .ite (fun _ => ⟨s.fail c w, m, rfl, rfl, h⟩) ho

theorem sameNext_renderFrames (hs : s.Inv) (h : s.mem.SameButOpaque m) (c f a : Bool) {e : Option Descriptor}
    (he : ∀ d, e = some d → d.base.toNat + d.len.toNat ≤ 4096) {n : Nat} (hn : n ≤ s.params.maxFrames) :
    SameNext (.next (s.renderFrames c f a e n)) (.next ((s.setMem m).renderFrames c f a e n)) := by
  obtain ⟨-, hno, hosc, hframes⟩ := hs.bounds
  exact ⟨_, _, rfl, rfl, h.forEach fun k hk _ _ hm => hm.renderFrame (Nat.le_trans hno hosc) he (by omega)⟩

theorem execRender_same (hs : s.Inv) (h : s.mem.SameButOpaque m) (c f a : Bool) (n : Nat) :
    SameNext (execRender c f a n s) (execRender c f a n (s.setMem m)) :=
  .check h _ _ fun _ => .check h _ _ fun hn =>
    sameNext_renderFrames hs h c f a (e := none) (fun _ hd => nomatch hd) (Nat.le_of_not_lt hn)

/-- A table with `storage_ok` lies in `LMEM` and is not empty (R41). -/
theorem State.Inv.storage_bounds (hs : s.Inv) {t : Nat} (ht : s.storageOk t = true) :
    1 ≤ (s.lut t).len.toNat ∧ (s.lut t).base.toNat + (s.lut t).len.toNat ≤ 4096 := by
  obtain ⟨-, -, -, -, -, -, -, hlmem, -⟩ := hs.legal
  obtain ⟨-, hlen, hfit⟩ := (s.storageOk_iff t).1 ht
  exact ⟨hlen, Nat.le_trans hfit hlmem⟩

theorem execRenderEnv_same (hs : s.Inv) (h : s.mem.SameButOpaque m) (c f a : Bool) (t n : Nat) :
    SameNext (execRenderEnv c f a t n s) (execRenderEnv c f a t n (s.setMem m)) := by
  refine .check h _ _ fun _ => .check h _ _ fun hn => .check h _ _ fun ht => ?_
  have hfit := (hs.storage_bounds (by simpa using ht)).2
  exact sameNext_renderFrames hs h c f a (fun d hd => by cases hd; exact hfit) (Nat.le_of_not_lt hn)

theorem execCscl_same (hs : s.Inv) (h : s.mem.SameButOpaque m) :
    SameNext (execCscl s) (execCscl (s.setMem m)) := by
  obtain ⟨-, hno, hosc, -⟩ := hs.bounds
  refine ⟨_, _, rfl, rfl, h.forEach fun i hi m m' hm => ?_⟩
  have hi' : i < oscStride := by omega
  rw [hm.osc hi' (f := .c1) (by decide), hm.osc hi' (f := .c2) (by decide)]
  exact (hm.setOsc .c1 i _).setOsc .c2 i _

theorem execSscl_same (hs : s.Inv) (h : s.mem.SameButOpaque m) :
    SameNext (execSscl s) (execSscl (s.setMem m)) := by
  obtain ⟨-, hno, hosc, -⟩ := hs.bounds
  refine ⟨_, _, rfl, rfl, h.forEach fun i hi m m' hm => ?_⟩
  have hi' : i < oscStride := by omega
  rw [hm.osc hi' (f := .y1) (by decide), hm.osc hi' (f := .y2) (by decide)]
  exact (hm.setOsc .y1 i _).setOsc .y2 i _

theorem execDdec_same (hs : s.Inv) (h : s.mem.SameButOpaque m) :
    SameNext (execDdec s) (execDdec (s.setMem m)) := by
  obtain ⟨-, hno, hosc, -⟩ := hs.bounds
  refine ⟨_, _, rfl, rfl, h.forEach fun i hi m m' hm => ?_⟩
  rw [hm.osc (f := .dur) (i := i) (by omega) (by decide)]
  exact hm.setOsc .dur i _

theorem execReset_same (h : s.mem.SameButOpaque m) : SameNext (execReset s) (execReset (s.setMem m)) :=
  ⟨_, _, rfl, rfl, h.forEach fun i _ _ _ hm => hm.clearSlot i⟩

theorem execGrow_same (h : s.mem.SameButOpaque m) (n : Nat) : SameNext (execGrow n s) (execGrow n (s.setMem m)) :=
  ⟨s.setCap (s.grownCap n), m, rfl, rfl, h⟩

theorem sameNext_appendStaged (h : s.mem.SameButOpaque m) :
    SameNext (.next s.appendStaged) (.next (s.setMem m).appendStaged) :=
  ⟨_, _, rfl, rfl, List.foldl_rel h fun f _ _ _ hm => hm.setOsc f s.nlive (s.staged f)⟩

/-- The three ends of `ALLOC` (R147) are chosen by the sizes alone. -/
theorem execAlloc_same (h : s.mem.SameButOpaque m) : SameNext (execAlloc s) (execAlloc (s.setMem m)) :=
  .ite (fun _ => sameNext_appendStaged h) fun _ =>
    .ite (fun _ => sameNext_appendStaged (s := s.setCap (s.grownCap s.growStep.toNat)) h) fun _ =>
      ⟨(s.setCap (s.grownCap s.growStep.toNat)).setCapped, m, rfl, rfl, h⟩

theorem execShrm_same (hs : s.Inv) (h : s.mem.SameButOpaque m) :
    SameNext (execShrm s) (execShrm (s.setMem m)) := by
  obtain ⟨-, hno, hosc, -⟩ := hs.bounds
  have hkept : m.loudCount s.thr s.nlive = s.mem.loudCount s.thr s.nlive := h.loudCount s.thr s.nlive (by omega)
  simp only [execShrm, State.setMem_mem, State.setMem_thr, State.setMem_nlive, hkept]
  exact ⟨_, _, rfl, rfl, h.forEach fun j _ _ _ hm => hm.clearSlot _⟩

theorem execShrd_same (hs : s.Inv) (h : s.mem.SameButOpaque m) :
    SameNext (execShrd s) (execShrd (s.setMem m)) := by
  obtain ⟨-, hno, hosc, -⟩ := hs.bounds
  obtain ⟨hcount, hmem⟩ := Memory.SameButOpaque.dropDead s.nlive 0 h (by omega)
  simp only [execShrd, State.setMem_mem, State.setMem_nlive, hcount]
  exact ⟨_, _, rfl, rfl, hmem⟩

/-- The two lookups of one value have one proof: whatever is done between two samples (R167, R168). -/
theorem sameNext_lookup (hs : s.Inv) (h : s.mem.SameButOpaque m) {t : Nat} (ht : ¬ (!s.curveOk t) = true)
    (between : Word → Word → Word → Word) :
    SameNext (.next (s.setRes (s.mem.lookup (s.lut t) s.xin between)))
      (.next ((s.setMem m).setRes (m.lookup (s.lut t) s.xin between))) := by
  have hcurve : s.curveOk t = true := by simpa using ht
  obtain ⟨hlen, hfit⟩ := hs.storage_bounds ((s.curveOk_iff t).1 hcurve).1
  rw [Memory.lookup_congr hlen fun j hj => h.sample hfit hj]
  exact ⟨s.setRes _, m, rfl, rfl, h⟩

theorem execLnear_same (hs : s.Inv) (h : s.mem.SameButOpaque m) (t : Nat) :
    SameNext (execLnear t s) (execLnear t (s.setMem m)) :=
  .check h _ _ fun ht => sameNext_lookup hs h ht nearer

theorem execLlin_same (hs : s.Inv) (h : s.mem.SameButOpaque m) (t : Nat) :
    SameNext (execLlin t s) (execLlin t (s.setMem m)) :=
  .check h _ _ fun ht => sameNext_lookup hs h ht interpolate

theorem execLchk_same (h : s.mem.SameButOpaque m) (t : Nat) :
    SameNext (execLchk t s) (execLchk t (s.setMem m)) :=
  .check h _ _ fun _ => ⟨s.setRes _, m, rfl, rfl, h⟩

theorem execLcyc_same (hs : s.Inv) (h : s.mem.SameButOpaque m) (k a : Bool) (t n : Nat) :
    SameNext (execLcyc k a t n s) (execLcyc k a t n (s.setMem m)) := by
  refine .check h _ _ fun _ => .check h _ _ fun hn => .check h _ _ fun ht => ?_
  obtain ⟨hcurve, hperiod⟩ : s.curveOk t = true ∧ 1 ≤ (s.lut t).period k := by
    simpa [Nat.one_le_iff_ne_zero] using ht
  obtain ⟨-, hfit⟩ := hs.storage_bounds ((s.curveOk_iff t).1 hcurve).1
  have hle : (s.lut t).period k ≤ (s.lut t).len.toNat := Nat.sub_le _ _
  obtain ⟨-, -, -, hframes⟩ := hs.bounds
  refine ⟨_, _, rfl, rfl, h.forEach fun j hj m m' hm => ?_⟩
  rw [State.lut_setMem, Memory.cyclic_congr hperiod fun i hi => hm.sample hfit (Nat.lt_of_lt_of_le hi hle)]
  exact hm.output a (by omega) _

/-- Every command, run on two memories that differ only in opaque words, leaves two that differ only in them. -/
theorem exec_same (hs : s.Inv) (h : s.mem.SameButOpaque m) (i : Instr) :
    SameNext (exec i s) (exec i (s.setMem m)) := by
  cases i with
  | nop => exact h.next
  | reset => exact execReset_same h
  | render c f a n => exact execRender_same hs h c f a n
  | renderEnv c f a t n => exact execRenderEnv_same hs h c f a t n
  | alloc => exact execAlloc_same h
  | shrm => exact execShrm_same hs h
  | shrd => exact execShrd_same hs h
  | ddec => exact execDdec_same hs h
  | cscl => exact execCscl_same hs h
  | sscl => exact execSscl_same hs h
  | grow n => exact execGrow_same h n
  | lnear t => exact execLnear_same hs h t
  | llin t => exact execLlin_same hs h t
  | lcyc k a t n => exact execLcyc_same hs h k a t n
  | lchk t => exact execLchk_same h t

end Commands

/-- Settles O46: the second state is the first with another memory, and every command treats the two alike. -/
theorem opaqueFieldsAreNeverInterpreted : Obligations.OpaqueFieldsAreNeverInterpreted := by
  intro s1 s2 i h1 h2 hsame
  obtain ⟨hstate, hmem⟩ := hsame
  obtain ⟨t, m, ht, ht', hm⟩ := exec_same h1 ⟨h1.canonical, h2.canonical, hmem⟩ i
  exact ⟨t, t.setMem m, ht, (congrArg (exec i) hstate).trans ht', rfl, hm.same⟩

end Sys2Proof.Machine
end

section
/-! Proofs for spec/20_memory.md: the address map read in both directions (R64, R65), host reads (R62, R68), host
writes read back through the port (R61, R69), and what no command writes (R70, R75). -/

namespace Sys2Proof.Machine

open Sys2Proof

/-! ## What no command writes (R70, R75) -/

/-- What the host alone writes besides `LMEM` and `FBUF`: the descriptors, the staging registers, and the argument
and configuration registers (R70, R75). -/
def State.hostOwned (s : State) :=
  (s.lutd, s.stage, s.thr, s.dt, s.kc1, s.kc2, s.ks, s.xin, s.xinc, s.xend, s.capMax, s.growStep)

/-- Nothing that the host owns is among what a command updates. -/
theorem Updated.hostOwned {s t : State} (h : Updated s t) : t.hostOwned = s.hostOwned := by
  induction h with
  | refl => rfl
  | setMem _ _ ih | setNlive _ _ ih | setCap _ _ ih | setSidx _ _ ih | setRes _ _ ih | setCapped _ ih
  | fail _ _ _ ih => exact ih

theorem updated_of_exec {i : Instr} {s t : State} (h : exec i s = .next t) : Updated s t := by
  obtain ⟨t', ht', hu⟩ := exec_updated i s
  cases h.symm.trans ht'
  exact hu

/-- Slot words stand above the start of `OBUF` (R64). -/
theorem obufBase_le_oscAddr (f : Field) (i : Nat) : obufBase ≤ oscAddr f i :=
  Nat.le_trans (by decide) (oscBase_le_oscAddr f i)

/-- Every command writes at or above the start of `OBUF` only: output words and slot words (R70). -/
theorem CommandEffect.wrote {s t : State} {i : Instr} (h : CommandEffect s i t) :
    Memory.Wrote (fun a => obufBase ≤ a) s.mem t.mem := by
  have clear (m : Memory) (j : Nat) : Memory.Wrote (fun a => obufBase ≤ a) m (m.clearSlot j) :=
    Memory.wrote_clearSlot m j fun f => obufBase_le_oscAddr f j
  cases h with
  | keepsPool hk =>
    refine hk.wrote.mono ?_
    rintro _ (⟨f, -, j, -, rfl⟩ | ⟨k, -, rfl⟩)
    · exact obufBase_le_oscAddr f j
    · exact Nat.le_add_right _ _
  | grow | dropped => exact .refl
  | reset => exact Memory.wrote_forEach _ fun j _ m => clear m j
  | appended =>
    exact Memory.wrote_foldl _ _ fun f _ m => Memory.wrote_setOsc m f _ _ (obufBase_le_oscAddr f _)
  | shrm => exact Memory.wrote_forEach _ fun j _ m => clear m _
  | shrd =>
    refine (wrote_dropDead _ _ _).mono ?_
    rintro _ ⟨f, j, -, -, rfl⟩
    exact obufBase_le_oscAddr f j

/-- Settles O45: the named updates of a command reach no register of the host's, and its writes reach no word below
`OBUF`. -/
theorem commandsNeverWriteTablesOrArguments : Obligations.CommandsNeverWriteTablesOrArguments := by
  intro s t i h
  have hread {a : Nat} (ha : a < obufBase) : t.mem.read a = s.mem.read a :=
    (effect_of_exec h).wrote.read_eq (Nat.not_le_of_lt ha)
  have howned := (updated_of_exec h).hostOwned
  simp only [State.hostOwned, Prod.mk.injEq] at howned
  obtain ⟨hlutd, hstage, hthr, hdt, hkc1, hkc2, hks, hxin, hxinc, hxend, hcapMax, hgrow⟩ := howned
  refine ⟨hlutd, hstage, hthr, hdt, hkc1, hkc2, hks, hxin, hxinc, hxend, hcapMax, hgrow, fun j hj => hread ?_,
    fun k hk => hread ?_⟩
  · unfold lmemBase obufBase
    omega
  · unfold fbufBase obufBase
    omega

/-! ## The address map, window by window (R64) -/

/-- The bounds that keep the windows apart (R5, R64). -/
theorem bounds_of_legal {p : Params} (h : p.legal) :
    p.maxOsc ≤ oscStride ∧ p.maxFrames ≤ 0x400 ∧ p.lmemWords ≤ 0x1000 ∧ p.nLut ≤ 16 := by
  obtain ⟨-, -, -, hosc, -, hframes, -, hlmem, -, hlut⟩ := h
  exact ⟨hosc, hframes, hlmem, hlut⟩

section Windows

variable {p : Params} {a : Addr}

theorem locate_control (h : a.toNat < 0x18) : locate p a = controlMap.getD a.toNat .unmapped := if_pos h

theorem locate_staged {f : Field} (h : a.toNat = 0x20 + f.index) : locate p a = .staged f := by
  have := f.index_lt
  simp only [locate]
  rw [if_neg (by omega), if_pos (by omega), h, Nat.add_sub_cancel_left, Field.ofIndex_index]

theorem locate_descriptor {o : Nat} (h : a.toNat = 0x100 + o) (ho : o < 0x40) : locate p a = descriptorAt p o := by
  simp only [locate]
  rw [if_neg (by omega), if_neg (by omega), if_pos (by omega), h, Nat.add_sub_cancel_left]

/-- The word memories, past the windows of the registers. -/
theorem locate_memory (h : 0x1000 ≤ a.toNat) :
    locate p a =
      if 0x1000 ≤ a.toNat ∧ a.toNat < 0x1000 + p.lmemWords then .lmem (a.toNat - 0x1000)
      else if 0x2000 ≤ a.toNat ∧ a.toNat < 0x2000 + p.maxFrames then .fbuf (a.toNat - 0x2000)
      else if 0x2400 ≤ a.toNat ∧ a.toNat < 0x2400 + p.maxFrames then .obuf (a.toNat - 0x2400)
      else if 0x4000 ≤ a.toNat ∧ a.toNat < 0x8000 then slotAt p (a.toNat - 0x4000)
      else .unmapped := by
  simp only [locate]
  rw [if_neg (by omega), if_neg (by omega), if_neg (by omega)]
  rfl

theorem locate_lmem {j : Nat} (hj : j < p.lmemWords) (h : a.toNat = 0x1000 + j) : locate p a = .lmem j := by
  rw [locate_memory (by omega), if_pos (by omega), h, Nat.add_sub_cancel_left]

theorem locate_fbuf (hl : p.legal) {k : Nat} (hk : k < p.maxFrames) (h : a.toNat = 0x2000 + k) :
    locate p a = .fbuf k := by
  obtain ⟨-, -, hlmem, -⟩ := bounds_of_legal hl
  rw [locate_memory (by omega), if_neg (by omega), if_pos (by omega), h, Nat.add_sub_cancel_left]

theorem locate_obuf (hl : p.legal) {k : Nat} (hk : k < p.maxFrames) (h : a.toNat = 0x2400 + k) :
    locate p a = .obuf k := by
  obtain ⟨-, hframes, hlmem, -⟩ := bounds_of_legal hl
  rw [locate_memory (by omega), if_neg (by omega), if_neg (by omega), if_pos (by omega), h, Nat.add_sub_cancel_left]

theorem slotAt_index {f : Field} {i : Nat} (hi : i < p.maxOsc) (hi' : i < oscStride) :
    slotAt p (f.index * oscStride + i) = .osc f i := by
  have hdiv : (f.index * oscStride + i) / oscStride = f.index := by
    rw [Nat.mul_comm, Nat.mul_add_div (by decide), Nat.div_eq_of_lt hi', Nat.add_zero]
  have hmod : (f.index * oscStride + i) % oscStride = i := by
    rw [Nat.mul_comm, Nat.mul_add_mod, Nat.mod_eq_of_lt hi']
  simp only [slotAt, hdiv, hmod, Field.ofIndex_index, if_pos hi]

theorem locate_osc (hl : p.legal) {f : Field} {i : Nat} (hi : i < p.maxOsc)
    (h : a.toNat = 0x4000 + f.index * 0x400 + i) : locate p a = .osc f i := by
  obtain ⟨hosc, hframes, hlmem, -⟩ := bounds_of_legal hl
  have hf := f.index_lt
  rw [locate_memory (by omega), if_neg (by omega), if_neg (by omega), if_neg (by omega), if_pos (by omega), h,
    Nat.add_assoc, Nat.add_sub_cancel_left]
  exact slotAt_index hi (Nat.lt_of_lt_of_le hi hosc)

/-- With legal parameters the windows do not overlap: a location other than `unmapped` stands at one address, and the
map names it there. -/
theorem locate_eq_of_stands (hl : p.legal) {l : Location} (hne : l ≠ .unmapped) (h : l.Stands p a.toNat) :
    locate p a = l := by
  cases l with
  | unmapped => exact absurd rfl hne
  | staged f => exact locate_staged h
  | lutBase t | lutLen t | lutMinX t | lutDx t =>
    obtain ⟨ht, ht', ha⟩ := h
    have hdiv : (a.toNat - 0x100) / 4 = t := by omega
    rw [locate_descriptor (o := a.toNat - 0x100) (by omega) (by omega), descriptorAt, hdiv, if_pos ht]
    grind
  | lmem j => exact locate_lmem h.1 h.2
  | fbuf k => exact locate_fbuf hl h.1 h.2
  | obuf k => exact locate_obuf hl h.1 h.2
  | osc f i => exact locate_osc hl h.1 h.2.2
  | _ =>
    have ha : a.toNat = _ := h
    rw [locate_control (by omega), ha]
    rfl

end Windows

theorem State.hostRead_of_stands {s : State} {a : Addr} (hl : s.params.legal) {l : Location} (hne : l ≠ .unmapped)
    (h : l.Stands s.params a.toNat) : s.hostRead a = s.peek l :=
  congrArg s.peek (locate_eq_of_stands hl hne h)

/-! ## Host reads (R62, R65, R68) -/

/-- Settles O7: accepting a read appends its value to what the host has read. -/
theorem hostReadChangesNoState : Obligations.HostReadChangesNoState := by
  intro s a rest hp
  exact step_of_pending_cons hp

/-- The bits of `STATUS` in place (R21). -/
theorem State.statusWord_toNat (s : State) :
    s.statusWord.toNat = s.sticky.toNat * 2 ^ 8 + if 0 < s.nlive then 1 else 0 := by
  have hs := s.sticky.isLt
  unfold State.statusWord State.running
  rw [BitVec.toNat_ofNat]
  split <;> simp [*] <;> omega

theorem Params.param0_toNat {p : Params} (h : p.legal) :
    (Params.param0 p).toNat = p.maxOsc * 2 ^ 16 + p.nLut * 2 ^ 8 + p.w := by
  unfold Params.param0 Params.legal at *
  rw [BitVec.toNat_ofNat]
  omega

theorem Params.param1_toNat {p : Params} (h : p.legal) :
    (Params.param1 p).toNat = p.lmemWords * 2 ^ 16 + p.maxFrames := by
  unfold Params.param1 Params.legal at *
  rw [BitVec.toNat_ofNat]
  omega

/-- A half word read as a word keeps its value (R29, R40). -/
theorem toNat_setWidth_half (h : Half) : (h.setWidth 32).toNat = h.toNat :=
  BitVec.toNat_setWidth_of_le (by decide)

/-- Settles O9: each row's location stands at its address, so the map names it there. -/
theorem hostReadFollowsTheMap : Obligations.HostReadFollowsTheMap := by
  intro s a hl
  have read {l : Location} (hne : l ≠ .unmapped) (h : l.Stands s.params a.toNat) : s.hostRead a = s.peek l :=
    State.hostRead_of_stands hl hne h
  obtain ⟨hosc, -, -, hlut⟩ := bounds_of_legal hl
  refine ⟨read (l := .id) nofun, fun h => ?_, fun h => ?_, read (l := .cmd) nofun, fun h => ?_, fun h => ?_,
    read (l := .lastCmd) nofun, read (l := .errCnt) nofun, read (l := .nlive) nofun, read (l := .active) nofun,
    read (l := .cap) nofun, read (l := .capMax) nofun, fun h => ?_, read (l := .sidx) nofun,
    read (l := .thr) nofun, read (l := .dt) nofun, read (l := .kc1) nofun, read (l := .kc2) nofun,
    read (l := .ks) nofun, read (l := .xin) nofun, read (l := .xinc) nofun, read (l := .xend) nofun,
    read (l := .res) nofun, fun f => read (l := .staged f) nofun,
    fun t ht => ⟨fun h => ?_, fun h => ?_, fun h => ?_, fun h => ?_⟩,
    fun j hj h => read (l := .lmem j) nofun ⟨hj, h⟩, fun k hk h => read (l := .fbuf k) nofun ⟨hk, h⟩,
    fun k hk h => read (l := .obuf k) nofun ⟨hk, h⟩,
    fun f i hi h => read (l := .osc f i) nofun ⟨hi, Nat.lt_of_lt_of_le hi hosc, h⟩⟩
  · have hv := Params.param0_toNat hl
    rw [read (l := .param0) nofun h]
    simp only [slice, State.peek, hv]
    unfold Params.legal at hl
    omega
  · have hv := Params.param1_toNat hl
    rw [read (l := .param1) nofun h]
    simp only [slice, State.peek, hv]
    unfold Params.legal at hl
    omega
  · have hs := s.sticky.isLt
    rw [read (l := .status) nofun h]
    simp only [slice, State.peek, State.statusWord_toNat]
    split <;> omega
  · rw [read (l := .lastErr) nofun h]
    exact BitVec.toNat_setWidth_of_le (by decide)
  · rw [read (l := .growStep) nofun h]
    exact toNat_setWidth_half _
  · rw [read (l := .lutBase t) nofun ⟨ht, by omega, h⟩]
    exact toNat_setWidth_half _
  · rw [read (l := .lutLen t) nofun ⟨ht, by omega, h⟩]
    exact toNat_setWidth_half _
  · exact read (l := .lutMinX t) nofun ⟨ht, by omega, h⟩
  · exact read (l := .lutDx t) nofun ⟨ht, by omega, h⟩

/-- Settles O10: every other location stands at an address outside the holes, so the map names none there. -/
theorem unmappedAddressesAreInert : Obligations.UnmappedAddressesAreInert := by
  intro s a v n hn hl
  obtain ⟨-, hframes, hlmem, hlut⟩ := bounds_of_legal hl
  have hloc : locate s.params a = .unmapped := by
    have hs := locate_stands s.params a
    cases h : locate s.params a with
    | unmapped => rfl
    | staged f =>
      rw [h] at hs
      simp only [Location.Stands] at hs
      have := f.index_lt
      omega
    | osc f i =>
      rw [h] at hs
      simp only [Location.Stands, oscAddr, oscBase, oscStride] at hs
      have := f.index_lt
      omega
    | _ =>
      rw [h] at hs
      simp only [Location.Stands, lmemBase, fbufBase, obufBase] at hs
      omega
  refine ⟨congrArg s.peek hloc, ?_⟩
  simp only [State.hostWrite, hloc, State.poke]

/-! ## What a write leaves of the other reads (R61) -/

/-- The address of a location in the word memories. -/
def Location.wordAddr : Location → Option Nat
  | .lmem j => some (lmemBase + j)
  | .fbuf k => some (fbufBase + k)
  | .obuf k => some (obufBase + k)
  | .osc f i => some (oscAddr f i)
  | _ => none

theorem State.peek_of_wordAddr (s : State) {l : Location} {x : Nat} (h : l.wordAddr = some x) :
    s.peek l = s.mem.read x := by
  cases l with
  | lmem | fbuf | obuf | osc =>
    cases h
    rfl
  | _ => cases h

/-- Another memory shows only at the locations in the word memories. -/
theorem State.peek_setMem (s : State) (m : Memory) {l : Location} (h : l.wordAddr = none) :
    (s.setMem m).peek l = s.peek l := by
  cases l with
  | lmem | fbuf | obuf | osc => cases h
  | _ => rfl

theorem Location.Stands.wordAddr {p : Params} {l : Location} {a x : Nat} (hl : l.Stands p a)
    (h : l.wordAddr = some x) : a = x := by
  cases l with
  | lmem | fbuf | obuf =>
    cases h
    exact hl.2
  | osc =>
    cases h
    exact hl.2.2
  | _ => cases h

/-- A memory word written at one address shows at no location that stands at another. -/
theorem State.peek_write_other {s : State} {l : Location} {a b : Nat} (hl : l.Stands s.params b) (hab : b ≠ a)
    (v : Word) : (s.setMem (s.mem.write a v)).peek l = s.peek l := by
  cases hx : l.wordAddr with
  | none => exact s.peek_setMem _ hx
  | some x =>
    rw [peek_of_wordAddr _ hx, peek_of_wordAddr _ hx]
    exact Memory.read_write_other _ _ _ _ (hl.wordAddr hx ▸ hab)

theorem State.peek_write_same {s : State} (hs : s.mem.wf) {l : Location} {a : Nat} (hx : l.wordAddr = some a)
    (v : Word) : (s.setMem (s.mem.write a v)).peek l = v := by
  rw [peek_of_wordAddr _ hx]
  exact Memory.read_write_same hs _ _

/-- What a vector read with a default returns after a write inside its bounds. -/
theorem getD_setIfInBounds {α : Type} {n : Nat} (xs : Vector α n) {i : Nat} (hi : i < n) (j : Nat) (v d : α) :
    (xs.setIfInBounds i v).getD j d = if j = i then v else xs.getD j d := by
  have hget (ys : Vector α n) : ys.getD j d = ys[j]?.getD d := by
    simp [Vector.getD, Array.getD_eq_getD_getElem?]
  rw [hget, hget, Vector.getElem?_setIfInBounds]
  by_cases hji : j = i
  · rw [if_pos hji.symm, if_pos hi, if_pos hji]
    rfl
  · rw [if_neg (Ne.symm hji), if_neg hji]

theorem State.staged_setStaged (s : State) (f g : Field) (v : Word) :
    (s.setStaged f v).staged g = if g = f then v else s.staged g := by
  have hindex : g.index = f.index ↔ g = f := ⟨Field.index_inj, congrArg Field.index⟩
  simp only [State.staged, State.setStaged_stage, getD_setIfInBounds _ f.index_lt, hindex]

theorem State.lut_setLut (s : State) {t : Nat} (ht : t < 16) (d : Descriptor) (u : Nat) :
    (s.setLut t d).lut u = if u = t then d else s.lut u :=
  getD_setIfInBounds s.lutd ht u d _

theorem Location.Stands.unique {p : Params} {l : Location} (hne : l ≠ .unmapped) {a b : Nat} (ha : l.Stands p a)
    (hb : l.Stands p b) : a = b := by
  cases l with
  | unmapped => exact absurd rfl hne
  | lutBase | lutLen | lutMinX | lutDx | osc => exact ha.2.2.trans hb.2.2.symm
  | lmem | fbuf | obuf => exact ha.2.trans hb.2.symm
  | _ => exact Eq.trans ha hb.symm

/-- What is peeked at another address after a poke is what was, but for the log that a write to `ERRCNT` clears. -/
theorem State.peek_poke_other {s : State} {l l' : Location} {a b : Nat} (v : Word) (hl : l.Stands s.params a)
    (hl' : l'.Stands s.params b) (hab : b ≠ a) (hlog : l = .errCnt → l' ≠ .lastErr ∧ l' ≠ .lastCmd) :
    (s.poke v l).peek l' = s.peek l' := by
  have hne : l ≠ .unmapped → l' ≠ l := fun h he => hab (Location.Stands.unique h (he ▸ hl') hl)
  cases l with
  | status | capMax | growStep | sidx | thr | dt | kc1 | kc2 | ks | xin | xinc | xend =>
    have := hne nofun
    cases l' <;> trivial
  | errCnt =>
    obtain ⟨herr, hcmd⟩ := hlog rfl
    have := hne nofun
    cases l' <;> trivial
  | staged f =>
    cases l' with
    | staged g =>
      have hgf : g ≠ f := fun h => hne nofun (h ▸ rfl)
      exact (s.staged_setStaged f g v).trans (if_neg hgf)
    | _ => rfl
  | lutBase t | lutLen t | lutMinX t | lutDx t =>
    have := hne nofun
    have ht := hl.2.1
    cases l' with
    | lutBase u | lutLen u | lutMinX u | lutDx u =>
      simp only [poke, peek, s.lut_setLut ht]
      grind
    | _ => rfl
  | lmem | fbuf | obuf => exact peek_write_other hl' (hl.2 ▸ hab) v
  | osc f i =>
    simp only [poke]
    split
    · exact peek_write_other hl' (hl.2.2 ▸ hab) v
    · rfl
  | _ => rfl

/-! ## What a write leaves at its own address (R61, R69) -/

/-- `STATUS` bit by bit (R21). -/
theorem State.statusWord_getLsbD (s : State) (i : Nat) :
    s.statusWord.getLsbD i = if i < 8 then decide (i = 0 ∧ 0 < s.nlive) else s.sticky.getLsbD (i - 8) := by
  rw [← BitVec.testBit_toNat, s.statusWord_toNat, Nat.mul_comm, Nat.testBit_two_pow_mul_add _ (by split <;> decide)]
  split
  · rw [Bool.eq_iff_iff]
    split <;> simp [*, Nat.testBit_one_eq_true_iff_self_eq_zero]
  · rfl

theorem ofNat_slice_eq_extract (v : Word) : BitVec.ofNat 5 (slice v 12 8) = v.extractLsb' 8 5 := by
  apply BitVec.eq_of_toNat_eq
  simp [slice, Nat.shiftRight_eq_div_pow]

/-- The mask of R21 covers bits 12:8. -/
theorem statusMask_getLsbD : ∀ i < 32, (0x00001F00#32).getLsbD i = decide (8 ≤ i ∧ i < 13) := by decide

/-- Clearing sticky bits clears those bits of `STATUS` and no others (R21). -/
theorem State.statusWord_clearSticky (s : State) (v : Word) :
    (s.clearSticky v).statusWord = s.statusWord &&& ~~~(v &&& 0x00001F00#32) := by
  apply BitVec.eq_of_getLsbD_eq
  intro i hi
  simp only [BitVec.getLsbD_and, BitVec.getLsbD_not, statusWord_getLsbD, statusMask_getLsbD i hi, hi,
    clearSticky_sticky, clearSticky_nlive, ofNat_slice_eq_extract, BitVec.getLsbD_extractLsb']
  grind

/-- A half word keeps the low half of the written word (R29, R40). -/
theorem setWidth_half (v : Word) : (v.setWidth 16 : Half).setWidth 32 = v &&& 0x0000FFFF#32 := by
  apply BitVec.eq_of_toNat_eq
  rw [BitVec.toNat_and, toNat_setWidth_half, BitVec.toNat_setWidth]
  exact (Nat.and_two_pow_sub_one_eq_mod v.toNat 16).symm

theorem Field.exists_index {n : Nat} (h : n < 11) : ∃ f : Field, f.index = n := by
  interval_cases n
  exacts [⟨.c1, rfl⟩, ⟨.c2, rfl⟩, ⟨.y1, rfl⟩, ⟨.y2, rfl⟩, ⟨.gain, rfl⟩, ⟨.dur, rfl⟩, ⟨.cmul, rfl⟩, ⟨.clim, rfl⟩,
    ⟨.radius, rfl⟩, ⟨.freq, rfl⟩, ⟨.decay, rfl⟩]

/-- The registers from `SIDX` to `XEND` hold the written word (R30 to R34). -/
theorem State.peek_poke_control (s : State) (v : Word) {n : Nat} (hlo : 0x0E ≤ n) (hhi : n ≤ 0x16) :
    (s.poke v (controlMap.getD n .unmapped)).peek (controlMap.getD n .unmapped) = v := by
  interval_cases n <;> rfl

/-- The descriptor words keep the written word, `BASE` and `LEN` its low half (R40). -/
theorem State.peek_poke_descriptor {s : State} (hl : s.params.legal) {a : Addr} (v : Word)
    (h : 0x100 ≤ a.toNat ∧ a.toNat < 0x100 + 4 * s.params.nLut) :
    (s.poke v (locate s.params a)).peek (locate s.params a) =
      if a.toNat % 4 < 2 then v &&& 0x0000FFFF#32 else v := by
  have there {l : Location} (hne : l ≠ .unmapped) (h : l.Stands s.params a.toNat) : locate s.params a = l :=
    locate_eq_of_stands hl hne h
  obtain ⟨-, -, -, hlut⟩ := bounds_of_legal hl
  obtain ⟨t, ht⟩ : ∃ t, (a.toNat - 0x100) / 4 = t := ⟨_, rfl⟩
  have hfits : t < s.params.nLut := by omega
  have hkept : t < 16 := by omega
  have hword : a.toNat = 0x100 + 4 * t ∨ a.toNat = 0x100 + 4 * t + 1 ∨ a.toNat = 0x100 + 4 * t + 2 ∨
      a.toNat = 0x100 + 4 * t + 3 := by omega
  rcases hword with hbase | hlen | hminX | hdx
  · rw [there (l := .lutBase t) nofun ⟨hfits, hkept, hbase⟩, if_pos (by omega)]
    simp only [poke, peek, s.lut_setLut hkept, if_true, setWidth_half]
  · rw [there (l := .lutLen t) nofun ⟨hfits, hkept, hlen⟩, if_pos (by omega)]
    simp only [poke, peek, s.lut_setLut hkept, if_true, setWidth_half]
  · rw [there (l := .lutMinX t) nofun ⟨hfits, hkept, hminX⟩, if_neg (by omega)]
    simp only [poke, peek, s.lut_setLut hkept, if_true]
  · rw [there (l := .lutDx t) nofun ⟨hfits, hkept, hdx⟩, if_neg (by omega)]
    simp only [poke, peek, s.lut_setLut hkept, if_true]

/-- The addresses at which a write other than to `CMD` has an effect: the rows of R61. -/
def State.TakesWrite (s : State) (n : Nat) : Prop :=
  n = 0x05 ∨ n = 0x08 ∨ (0x0C ≤ n ∧ n ≤ 0x16) ∨ (0x20 ≤ n ∧ n ≤ 0x2A) ∨
    (0x100 ≤ n ∧ n < 0x100 + 4 * s.params.nLut) ∨ (0x1000 ≤ n ∧ n < 0x1000 + s.params.lmemWords) ∨
    (0x2000 ≤ n ∧ n < 0x2000 + s.params.maxFrames) ∨ (0x2400 ≤ n ∧ n < 0x2400 + s.params.maxFrames) ∨
    (0x4000 ≤ n ∧ n < 0x6C00 ∧ n % 0x400 < s.params.maxOsc ∧ n % 0x400 < s.nlive)

/-- Every other address ignores the write (R61, R65, R69). -/
theorem State.poke_eq_self {s : State} {l : Location} {n : Nat} (v : Word) (hl : l.Stands s.params n)
    (hn : ¬ s.TakesWrite n) : s.poke v l = s := by
  unfold State.TakesWrite at hn
  cases l with
  | id | param0 | param1 | cmd | lastErr | lastCmd | nlive | active | cap | res | unmapped => rfl
  | staged f =>
    simp only [Location.Stands] at hl
    have := f.index_lt
    omega
  | osc f i =>
    simp only [Location.Stands, oscAddr, oscBase, oscStride] at hl
    have := f.index_lt
    exact if_neg (by omega)
  | _ =>
    simp only [Location.Stands, lmemBase, fbufBase, obufBase] at hl
    omega

/-- A conditional is met branch by branch. -/
theorem eq_ite_of {α : Type} {p : Prop} [Decidable p] {x y z : α} (h : p → x = y) (h' : ¬ p → x = z) :
    x = if p then y else z := by
  split
  · exact h ‹_›
  · exact h' ‹_›

/-- The written address reads as its access kind says, window by window (R61). -/
theorem State.Inv.peek_poke_same {s : State} (hs : s.Inv) (a : Addr) (v : Word) :
    (s.poke v (locate s.params a)).peek (locate s.params a) = s.writtenWord a v := by
  have there {l : Location} (hne : l ≠ .unmapped) (h : l.Stands s.params a.toNat) : locate s.params a = l :=
    locate_eq_of_stands hs.legal hne h
  refine eq_ite_of (fun hstatus => ?_) fun _ => eq_ite_of (fun herrCnt => ?_) fun _ =>
    eq_ite_of (fun hcapMax => ?_) fun _ => eq_ite_of (fun hgrow => ?_) fun _ =>
    eq_ite_of (fun hcontrol => ?_) fun _ => eq_ite_of (fun hstaged => ?_) fun _ =>
    eq_ite_of (fun hlutd => peek_poke_descriptor hs.legal v hlutd) fun _ =>
    eq_ite_of (fun hlmem => ?_) fun _ => eq_ite_of (fun hfbuf => ?_) fun _ =>
    eq_ite_of (fun hobuf => ?_) fun _ => eq_ite_of (fun hosc => ?_) fun _ => ?_
  · rw [hostRead, there (l := .status) nofun hstatus]
    exact s.statusWord_clearSticky v
  · rw [there (l := .errCnt) nofun herrCnt]
    rfl
  · rw [there (l := .capMax) nofun hcapMax]
    rfl
  · rw [there (l := .growStep) nofun hgrow]
    exact setWidth_half v
  · rw [locate_control (by omega)]
    exact s.peek_poke_control v hcontrol.1 hcontrol.2
  · obtain ⟨f, hf⟩ := Field.exists_index (n := a.toNat - 0x20) (by omega)
    rw [locate_staged (f := f) (by omega)]
    exact (s.staged_setStaged f f v).trans (if_pos rfl)
  · rw [locate_lmem (j := a.toNat - 0x1000) (by omega) (by omega)]
    exact peek_write_same hs.canonical rfl v
  · rw [locate_fbuf hs.legal (k := a.toNat - 0x2000) (by omega) (by omega)]
    exact peek_write_same hs.canonical rfl v
  · rw [locate_obuf hs.legal (k := a.toNat - 0x2400) (by omega) (by omega)]
    exact peek_write_same hs.canonical rfl v
  · obtain ⟨hlo, hhi, hslot, hlive⟩ := hosc
    obtain ⟨f, hf⟩ := Field.exists_index (n := (a.toNat - 0x4000) / 0x400) (by omega)
    rw [locate_osc hs.legal (f := f) (i := a.toNat % 0x400) hslot (by omega), State.poke, if_pos hlive]
    exact peek_write_same hs.canonical rfl v
  · rw [poke_eq_self v (locate_stands s.params a) (by unfold State.TakesWrite; omega), hostRead]

/-! ## A write through the port -/

/-- A host write keeps the host's transactions and what it has read, and the epoch of the free words (R12, R222). -/
theorem State.poke_host (s : State) (v : Word) (l : Location) :
    (s.poke v l).pending = s.pending ∧ (s.poke v l).reads = s.reads ∧ (s.poke v l).mem.epoch = s.mem.epoch := by
  cases l with
  | osc f i =>
    simp only [State.poke]
    split <;> exact ⟨rfl, rfl, rfl⟩
  | _ => exact ⟨rfl, rfl, rfl⟩

theorem State.hostWrite_eq_poke (s : State) {a : Addr} (v : Word) (ha : a ≠ cmdAddr) :
    s.hostWrite a v = .next (s.poke v (locate s.params a)) := by
  unfold State.hostWrite
  split
  · exact absurd (eq_cmdAddr_of_locate ‹_›) ha
  · rfl

/-- Settles O11: the written address, the two registers of the log beside `ERRCNT`, and every other address. -/
theorem hostWriteReadsBackAndFrames : Obligations.HostWriteReadsBackAndFrames := by
  intro s a v hs ha
  obtain ⟨hpending, hreads, hepoch⟩ := s.poke_host v (locate s.params a)
  refine ⟨_, s.hostWrite_eq_poke v ha, fun b => ?_, s.poke_params v _, hpending, hreads, hepoch⟩
  rw [State.hostRead, s.poke_params]
  split_ifs with hab hlog
  · subst hab
    exact hs.peek_poke_same _ v
  · obtain ⟨rfl, rfl | rfl⟩ := hlog <;> rfl
  · refine State.peek_poke_other v (locate_stands s.params a) (locate_stands s.params b)
      (fun h => hab (BitVec.eq_of_toNat_eq h)) (fun herr => ?_)
    have hstands := locate_stands s.params a
    rw [herr] at hstands
    have ha8 : a = 0x0008 := BitVec.eq_of_toNat_eq hstands
    have hb := locate_stands s.params b
    constructor <;> intro h <;> rw [h] at hb
    · exact hlog ⟨ha8, .inl (BitVec.eq_of_toNat_eq hb)⟩
    · exact hlog ⟨ha8, .inr (BitVec.eq_of_toNat_eq hb)⟩

end Sys2Proof.Machine
end

section
/-! Proofs for spec/30_encoding.md: encoder and decoder undo each other (R87, R88, R91), the accepted words are the
rows of the opcode table (R88), the examples of R92, and what a reserved word does (R89). -/

namespace Sys2Proof.Machine

open Sys2Proof

/-! ## The decoder undoes the encoder (R88, R91) -/

/-- A word packed from fields within their widths decodes as the case analysis of R91 on those fields says. -/
theorem decode_commandWord_of_fields {op t n : Nat} {fE fC fF fA : Bool} {r : Except Reserved Instr}
    (h : decodeFields op fE fC fF fA t n = r) (ho : op < 256 := by decide) (ht : TableFits t := by decide)
    (hn : CountFits n := by decide) : decode (commandWord op fE fC fF fA t n) = r :=
  (decode_commandWord op fE fC fF fA t n ho ht hn).trans h

theorem decode_encode {i : Instr} (h : WellFormed i = true) : decode (encode i) = .ok i := by
  cases i with
  | nop | reset | alloc | shrm | shrd | ddec | cscl | sscl => exact decode_commandWord_of_fields rfl
  | render | grow => exact decode_commandWord_of_fields rfl (hn := of_decide_eq_true h)
  | lnear | llin | lchk => exact decode_commandWord_of_fields rfl (ht := of_decide_eq_true h)
  | renderEnv | lcyc =>
    obtain ⟨ht, hn⟩ := Bool.and_eq_true_iff.1 h
    exact decode_commandWord_of_fields rfl (ht := of_decide_eq_true ht) (hn := of_decide_eq_true hn)

/-- Settles O12: constructor by constructor, the fields of the packed word select the command's own case. -/
theorem decodeOfEncodeIsTheCommand : Obligations.DecodeOfEncodeIsTheCommand := fun _ => decode_encode

/-- Settles O15: each word is the encoding of its command, which has its operands within their fields. -/
theorem exampleWordsDecode : Obligations.ExampleWordsDecode :=
  ⟨decode_encode (i := .nop) rfl, decode_encode (i := .render false false false 8) rfl,
    decode_encode (i := .render false true true 480) rfl,
    decode_encode (i := .renderEnv false false false 2 64) rfl,
    decode_encode (i := .lcyc false false 1 4) rfl, decode_encode (i := .lcyc true false 0 4) rfl,
    decode_encode (i := .llin 3) rfl, decode_encode (i := .grow 16) rfl⟩

/-! ## The encoder undoes the decoder (R87, R88) -/

/-- The decoder's answer, if it is a command, is one whose encoding is `w`. -/
def DecodesEncoded (w : Word) (r : Except Reserved Instr) : Prop := ∀ i, r = .ok i → encode i = w

theorem DecodesEncoded.ok {i : Instr} : DecodesEncoded (encode i) (.ok i) := by
  intro j hj
  cases hj
  rfl

theorem DecodesEncoded.whenZero {w : Word} {b : Bool} {i : Instr} (h : b = true → encode i = w) :
    DecodesEncoded w (whenZero b i) := by
  intro j hj
  obtain ⟨hb, rfl⟩ := whenZero_eq_ok.1 hj
  exact h hb

/-- One case of R91: where the opcode matches, it is the row's own. -/
theorem DecodesEncoded.opcode {op c t n : Nat} {fE fC fF fA : Bool} {r r' : Except Reserved Instr}
    (h : DecodesEncoded (commandWord c fE fC fF fA t n) r) (h' : DecodesEncoded (commandWord op fE fC fF fA t n) r') :
    DecodesEncoded (commandWord op fE fC fF fA t n) (if op = c then r else r') := by
  split
  · next hop => exact hop ▸ h
  · exact h'

/-- All four flag bits are zero (`fl = 0` in R91). -/
theorem flags_eq_false {fE fC fF fA : Bool} (h : (!fE && !fC && !fF && !fA) = true) :
    fE = false ∧ fC = false ∧ fF = false ∧ fA = false := by
  simpa [and_assoc] using h

section Fields

variable {fE fC fF fA : Bool} {t n : Nat}

/-- The condition of a row that uses `n` alone leaves the opcode and the count. -/
theorem commandWord_of_countOnly (op : Nat) (h : (!fE && !fC && !fF && !fA && t == 0) = true) :
    commandWord op false false false false 0 n = commandWord op fE fC fF fA t n := by
  rw [Bool.and_eq_true_iff, beq_iff_eq] at h
  obtain ⟨hfl, rfl⟩ := h
  obtain ⟨rfl, rfl, rfl, rfl⟩ := flags_eq_false hfl
  rfl

/-- The condition of a row that uses `t` alone leaves the opcode and the table. -/
theorem commandWord_of_tableOnly (op : Nat) (h : (!fE && !fC && !fF && !fA && n == 0) = true) :
    commandWord op false false false false t 0 = commandWord op fE fC fF fA t n := by
  rw [Bool.and_eq_true_iff, beq_iff_eq] at h
  obtain ⟨hfl, rfl⟩ := h
  obtain ⟨rfl, rfl, rfl, rfl⟩ := flags_eq_false hfl
  rfl

/-- The condition of a row that uses neither `t` nor `n` leaves only the opcode in the word. -/
theorem commandWord_of_noOperand (op : Nat) (h : (!fE && !fC && !fF && !fA && t == 0 && n == 0) = true) :
    commandWord op false false false false 0 0 = commandWord op fE fC fF fA t n := by
  rw [Bool.and_eq_true_iff, beq_iff_eq] at h
  obtain ⟨hcount, rfl⟩ := h
  exact commandWord_of_countOnly op hcount

/-- `RENDER`: with `E` every field is an operand; without it `t` must be zero. -/
theorem decodesEncoded_render :
    DecodesEncoded (commandWord 0x10 fE fC fF fA t n)
      (if fE then .ok (.renderEnv fC fF fA t n) else whenZero (t == 0) (.render fC fF fA n)) := by
  cases fE with
  | true => exact .ok
  | false => exact .whenZero fun h => by rw [eq_of_beq h]; rfl

/-- `LCYC`: the two flags it does not use must be zero. -/
theorem decodesEncoded_lcyc :
    DecodesEncoded (commandWord 0x22 fE fC fF fA t n) (whenZero (!fE && !fC) (.lcyc fF fA t n)) := by
  refine .whenZero fun h => ?_
  obtain ⟨rfl, rfl⟩ : fE = false ∧ fC = false := by simpa using h
  rfl

/-- The case analysis of R91 loses no bit of the word, opcode by opcode. -/
theorem decodeFields_encoded (op : Nat) :
    DecodesEncoded (commandWord op fE fC fF fA t n) (decodeFields op fE fC fF fA t n) :=
  .opcode (.whenZero (commandWord_of_noOperand _)) <| .opcode (.whenZero (commandWord_of_noOperand _)) <|
  .opcode decodesEncoded_render <|
  .opcode (.whenZero (commandWord_of_noOperand _)) <| .opcode (.whenZero (commandWord_of_noOperand _)) <|
  .opcode (.whenZero (commandWord_of_noOperand _)) <| .opcode (.whenZero (commandWord_of_noOperand _)) <|
  .opcode (.whenZero (commandWord_of_noOperand _)) <| .opcode (.whenZero (commandWord_of_noOperand _)) <|
  .opcode (.whenZero (commandWord_of_countOnly _)) <|
  .opcode (.whenZero (commandWord_of_tableOnly _)) <| .opcode (.whenZero (commandWord_of_tableOnly _)) <|
  .opcode decodesEncoded_lcyc <|
  .opcode (.whenZero (commandWord_of_tableOnly _)) <| fun _ h => nomatch h

end Fields

theorem encode_of_decode {w : Word} {i : Instr} (h : decode w = .ok i) : encode i = w :=
  (decodeFields_encoded _ i h).trans (commandWord_of_fields w).symm

/-- Settles O13: a word is packed from its own fields, and the decoder's case analysis keeps each of them. -/
theorem encodeOfDecodeIsTheWord : Obligations.EncodeOfDecodeIsTheWord :=
  fun _ _ h => ⟨wellFormed_of_decode h, encode_of_decode h⟩

/-! ## The rows of the opcode table (R88) -/

theorem matchesRow_singleton {w : Word} {hi lo v : Nat} : MatchesRow w [(hi, lo, v)] ↔ slice w hi lo = v := by
  simp [MatchesRow]

theorem matchesRow_pair {w : Word} {hi lo v hi' lo' v' : Nat} :
    MatchesRow w [(hi, lo, v), (hi', lo', v')] ↔ slice w hi lo = v ∧ slice w hi' lo' = v' := by
  simp [MatchesRow]

/-- Which word the fields pack to, read as numbers: the form in which `omega` compares a word with its fields (R85). -/
theorem commandWord_eq_iff {op t n : Nat} {fE fC fF fA : Bool} {w : Word} (ho : op < 256 := by decide)
    (ht : TableFits t := by decide) (hn : CountFits n := by decide) :
    commandWord op fE fC fF fA t n = w ↔
      w.toNat = op * 0x1000000 + fE.toNat * 0x800000 + fC.toNat * 0x400000 + fF.toNat * 0x200000 +
        fA.toNat * 0x100000 + t * 0x10000 + n := by
  rw [← BitVec.toNat_inj, commandWord_toNat op fE fC fF fA t n ho ht hn, eq_comm]

theorem tableFits_slice (w : Word) : TableFits (slice w 19 16) := Nat.mod_lt _ (by decide)

theorem countFits_slice (w : Word) : CountFits (slice w 15 0) := Nat.mod_lt _ (by decide)

section Rows

variable {w : Word}

/-! One equivalence for each shape of row: the words that have its fixed fields are the packed words of its command. -/

/-- The rows that fix the whole word. -/
theorem matchesRow_word_iff {v : Nat} : MatchesRow w [(31, 0, v)] ↔ w.toNat = v := by
  have hlt := w.isLt
  rw [matchesRow_singleton]
  unfold slice
  omega

/-- `GROW`: the count is free. -/
theorem matchesRow_grow_iff :
    MatchesRow w [(31, 16, 0x1700)] ↔ ∃ n, CountFits n ∧ encode (.grow n) = w := by
  have hlt := w.isLt
  rw [matchesRow_singleton]
  constructor
  · intro h
    refine ⟨slice w 15 0, countFits_slice w, (commandWord_eq_iff (hn := countFits_slice w)).2 ?_⟩
    simp only [slice, Bool.toNat_false] at h ⊢
    omega
  · rintro ⟨n, hn, hw⟩
    have hsum := (commandWord_eq_iff (hn := hn)).1 hw
    simp only [slice, Bool.toNat_false] at hsum ⊢
    omega

/-- `LNEAR`, `LLIN`, `LCHK`: the table is free. -/
theorem matchesRow_tableOnly_iff (op : Nat) (ho : op < 256) :
    MatchesRow w [(15, 0, 0x0), (31, 20, op * 0x10)] ↔
      ∃ t, TableFits t ∧ commandWord op false false false false t 0 = w := by
  have hlt := w.isLt
  rw [matchesRow_pair]
  constructor
  · rintro ⟨hcount, hop⟩
    refine ⟨slice w 19 16, tableFits_slice w, (commandWord_eq_iff ho (tableFits_slice w)).2 ?_⟩
    simp only [slice, Bool.toNat_false] at hcount hop ⊢
    omega
  · rintro ⟨t, ht, hw⟩
    have hsum := (commandWord_eq_iff ho ht).1 hw
    simp only [slice, Bool.toNat_false] at hsum ⊢
    omega

/-- `RENDER` without `E`: three flags and the count are free. -/
theorem matchesRow_render_iff :
    MatchesRow w [(19, 16, 0x0), (31, 23, 0x20)] ↔ ∃ c f a n, CountFits n ∧ encode (.render c f a n) = w := by
  have hlt := w.isLt
  rw [matchesRow_pair]
  constructor
  · rintro ⟨htable, hop⟩
    refine ⟨bitOf w 22, bitOf w 21, bitOf w 20, slice w 15 0, countFits_slice w,
      (commandWord_eq_iff (hn := countFits_slice w)).2 ?_⟩
    simp only [bitOf_toNat, slice, Bool.toNat_false] at htable hop ⊢
    omega
  · rintro ⟨c, f, a, n, hn, hw⟩
    have hsum := (commandWord_eq_iff (hn := hn)).1 hw
    have hc := c.toNat_lt
    have hf := f.toNat_lt
    have ha := a.toNat_lt
    simp only [slice, Bool.toNat_false] at hsum ⊢
    omega

/-- `RENDER` with `E`: three flags, the table and the count are free. -/
theorem matchesRow_renderEnv_iff :
    MatchesRow w [(31, 23, 0x21)] ↔
      ∃ c f a t n, TableFits t ∧ CountFits n ∧ encode (.renderEnv c f a t n) = w := by
  have hlt := w.isLt
  rw [matchesRow_singleton]
  constructor
  · intro hop
    refine ⟨bitOf w 22, bitOf w 21, bitOf w 20, slice w 19 16, slice w 15 0, tableFits_slice w, countFits_slice w,
      (commandWord_eq_iff (by decide) (tableFits_slice w) (countFits_slice w)).2 ?_⟩
    simp only [bitOf_toNat, slice, Bool.toNat_true] at hop ⊢
    omega
  · rintro ⟨c, f, a, t, n, ht, hn, hw⟩
    have hsum := (commandWord_eq_iff (by decide) ht hn).1 hw
    have hc := c.toNat_lt
    have hf := f.toNat_lt
    have ha := a.toNat_lt
    simp only [slice, Bool.toNat_true] at hsum ⊢
    omega

/-- `LCYC`: two flags, the table and the count are free. -/
theorem matchesRow_lcyc_iff :
    MatchesRow w [(31, 22, 0x88)] ↔ ∃ k a t n, TableFits t ∧ CountFits n ∧ encode (.lcyc k a t n) = w := by
  have hlt := w.isLt
  rw [matchesRow_singleton]
  constructor
  · intro hop
    refine ⟨bitOf w 21, bitOf w 20, slice w 19 16, slice w 15 0, tableFits_slice w, countFits_slice w,
      (commandWord_eq_iff (by decide) (tableFits_slice w) (countFits_slice w)).2 ?_⟩
    simp only [bitOf_toNat, slice, Bool.toNat_false] at hop ⊢
    omega
  · rintro ⟨k, a, t, n, ht, hn, hw⟩
    have hsum := (commandWord_eq_iff (by decide) ht hn).1 hw
    have hk := k.toNat_lt
    have ha := a.toNat_lt
    simp only [slice, Bool.toNat_false] at hsum ⊢
    omega

end Rows

/-- The encoding of a well-formed command has the fixed fields of the command's row (R88). -/
theorem encode_matchesRow {i : Instr} (h : WellFormed i = true) :
    ∃ row, opcodeRows[Instr.row i]? = some row ∧ MatchesRow (encode i) row := by
  cases i with
  | nop | reset | alloc | shrm | shrd | ddec | cscl | sscl => exact ⟨_, rfl, matchesRow_word_iff.2 rfl⟩
  | render c f a n => exact ⟨_, rfl, matchesRow_render_iff.2 ⟨c, f, a, n, of_decide_eq_true h, rfl⟩⟩
  | grow n => exact ⟨_, rfl, matchesRow_grow_iff.2 ⟨n, of_decide_eq_true h, rfl⟩⟩
  | lnear t => exact ⟨_, rfl, (matchesRow_tableOnly_iff 0x20 (by decide)).2 ⟨t, of_decide_eq_true h, rfl⟩⟩
  | llin t => exact ⟨_, rfl, (matchesRow_tableOnly_iff 0x21 (by decide)).2 ⟨t, of_decide_eq_true h, rfl⟩⟩
  | lchk t => exact ⟨_, rfl, (matchesRow_tableOnly_iff 0x23 (by decide)).2 ⟨t, of_decide_eq_true h, rfl⟩⟩
  | renderEnv c f a t n =>
    obtain ⟨ht, hn⟩ := Bool.and_eq_true_iff.1 h
    exact ⟨_, rfl, matchesRow_renderEnv_iff.2 ⟨c, f, a, t, n, of_decide_eq_true ht, of_decide_eq_true hn, rfl⟩⟩
  | lcyc k a t n =>
    obtain ⟨ht, hn⟩ := Bool.and_eq_true_iff.1 h
    exact ⟨_, rfl, matchesRow_lcyc_iff.2 ⟨k, a, t, n, of_decide_eq_true ht, of_decide_eq_true hn, rfl⟩⟩

theorem encode_eq_of_matchesRow_word {w : Word} {v : Nat} {i : Instr} (h : MatchesRow w [(31, 0, v)])
    (hv : (encode i).toNat = v) : encode i = w :=
  BitVec.eq_of_toNat_eq (hv.trans (matchesRow_word_iff.1 h).symm)

/-- `w` is the encoding of a well-formed command of row `k`. -/
def EncodesRow (w : Word) (k : Nat) : Prop := ∃ i, WellFormed i = true ∧ Instr.row i = k ∧ encode i = w

/-- A word with the fixed fields of a row encodes a command of that row (R88), row by row. -/
theorem encodesRow_of_matchesRow {w : Word} :
    ∀ (k : Nat) (row : List (Nat × Nat × Nat)), opcodeRows[k]? = some row → MatchesRow w row → EncodesRow w k
  | 0, _, rfl, h => ⟨.nop, rfl, rfl, encode_eq_of_matchesRow_word h rfl⟩
  | 1, _, rfl, h => ⟨.reset, rfl, rfl, encode_eq_of_matchesRow_word h rfl⟩
  | 2, _, rfl, h =>
    let ⟨c, f, a, n, hn, hw⟩ := matchesRow_render_iff.1 h
    ⟨.render c f a n, decide_eq_true hn, rfl, hw⟩
  | 3, _, rfl, h =>
    let ⟨c, f, a, t, n, ht, hn, hw⟩ := matchesRow_renderEnv_iff.1 h
    ⟨.renderEnv c f a t n, Bool.and_eq_true_iff.2 ⟨decide_eq_true ht, decide_eq_true hn⟩, rfl, hw⟩
  | 4, _, rfl, h => ⟨.alloc, rfl, rfl, encode_eq_of_matchesRow_word h rfl⟩
  | 5, _, rfl, h => ⟨.shrm, rfl, rfl, encode_eq_of_matchesRow_word h rfl⟩
  | 6, _, rfl, h => ⟨.shrd, rfl, rfl, encode_eq_of_matchesRow_word h rfl⟩
  | 7, _, rfl, h => ⟨.ddec, rfl, rfl, encode_eq_of_matchesRow_word h rfl⟩
  | 8, _, rfl, h => ⟨.cscl, rfl, rfl, encode_eq_of_matchesRow_word h rfl⟩
  | 9, _, rfl, h => ⟨.sscl, rfl, rfl, encode_eq_of_matchesRow_word h rfl⟩
  | 10, _, rfl, h =>
    let ⟨n, hn, hw⟩ := matchesRow_grow_iff.1 h
    ⟨.grow n, decide_eq_true hn, rfl, hw⟩
  | 11, _, rfl, h =>
    let ⟨t, ht, hw⟩ := (matchesRow_tableOnly_iff 0x20 (by decide)).1 h
    ⟨.lnear t, decide_eq_true ht, rfl, hw⟩
  | 12, _, rfl, h =>
    let ⟨t, ht, hw⟩ := (matchesRow_tableOnly_iff 0x21 (by decide)).1 h
    ⟨.llin t, decide_eq_true ht, rfl, hw⟩
  | 13, _, rfl, h =>
    let ⟨k, a, t, n, ht, hn, hw⟩ := matchesRow_lcyc_iff.1 h
    ⟨.lcyc k a t n, Bool.and_eq_true_iff.2 ⟨decide_eq_true ht, decide_eq_true hn⟩, rfl, hw⟩
  | 14, _, rfl, h =>
    let ⟨t, ht, hw⟩ := (matchesRow_tableOnly_iff 0x23 (by decide)).1 h
    ⟨.lchk t, decide_eq_true ht, rfl, hw⟩
  | _ + 15, _, h, _ => nomatch h

/-- Settles O14: an accepted word is the encoding of its command, which has the row's fields; and a word with the
row's fields is the encoding of a command of the row, to which it decodes. -/
theorem decoderAcceptsExactlyTheTable : Obligations.DecoderAcceptsExactlyTheTable := by
  refine fun w => ⟨fun i hd => ?_, fun k row hk hm => ?_⟩
  · rw [← encode_of_decode hd]
    exact encode_matchesRow (wellFormed_of_decode hd)
  · obtain ⟨i, hwf, hrow, rfl⟩ := encodesRow_of_matchesRow k row hk hm
    exact ⟨i, decode_encode hwf, hrow⟩

/-! ## A reserved word (R89, R196, R202) -/

/-- The error count saturates at the greatest word (R24, R119). -/
theorem satAdd32_one (a : Word) : satAdd32 a 1 = if a = 0xFFFFFFFF then 0xFFFFFFFF else a + 1 := by
  have ha := a.isLt
  unfold satAdd32
  split <;> apply BitVec.eq_of_toNat_eq <;> bv_omega

theorem State.accept_reserved (s : State) {w : Word} {r : Reserved} (h : decode w = .error r) :
    s.accept (.write cmdAddr w) = .next (s.fail .badOp w) := by
  simp only [State.accept, State.hostWrite, locate_cmdAddr, State.runWord, h]

/-- Settles O6: the write reaches `CMD`, whose word ends in `fail(1)`, the record of R196 with a saturating count. -/
theorem reservedWordOnlyRecordsBadop : Obligations.ReservedWordOnlyRecordsBadop := by
  intro s w r rest hp hd
  rw [step_of_pending_cons hp, State.accept_reserved _ hd, ← satAdd32_one]
  rfl

end Sys2Proof.Machine
end

section
/-! Proofs for spec/40_numerics.md R106, R107, R117: one rounding of an exact value. A magnitude `num / den` (in units
of 2^-149) is rounded to a significand `q` of at most 24 bits at the spacing `2^s` of its binade; the lemmas below say
that `q · 2^s` is nearest among all multiples of the spacing, hence among all words, since the words that are no
multiples of it lie below the binade. -/

namespace Sys2Proof.Machine

open Sys2Proof

/-! ## Rounding to a multiple of the spacing (R106) -/

/-- The rounded multiple is at most half a spacing away, and exactly half a spacing only if it is even. -/
theorem roundEven_half (num : Nat) {d : Nat} (hd : 0 < d) :
    2 * Nat.dist (roundEven num d * d) num ≤ d ∧
      (2 * Nat.dist (roundEven num d * d) num = d → roundEven num d % 2 = 0) := by
  have hsplit := Nat.div_add_mod' num d
  have hrem := Nat.mod_lt num hd
  simp only [roundEven, Nat.dist]
  generalize num / d = q at hsplit
  generalize num % d = r at hsplit hrem
  have hup : (q + 1) * d = q * d + d := Nat.succ_mul q d
  split_ifs with hbelow habove
  · omega
  · omega
  · rcases Nat.mod_two_eq_zero_or_one q with hq | hq <;> rw [hq]
    · rw [Nat.add_zero]
      omega
    · omega

/-- No multiple of the spacing is nearer than the rounded one, and an equally near one means that it is even. -/
theorem roundEven_nearest (num k : Nat) {d : Nat} (hd : 0 < d) :
    Nat.dist (roundEven num d * d) num ≤ Nat.dist (k * d) num ∧
      (Nat.dist (roundEven num d * d) num = Nat.dist (k * d) num → k ≠ roundEven num d →
        roundEven num d % 2 = 0) := by
  obtain ⟨hhalf, htie⟩ := roundEven_half num hd
  generalize roundEven num d = q at hhalf htie ⊢
  unfold Nat.dist at *
  rcases Nat.lt_trichotomy k q with hlt | rfl | hlt
  · have hgap : (k + 1) * d ≤ q * d := Nat.mul_le_mul_right d hlt
    rw [Nat.succ_mul] at hgap
    omega
  · exact ⟨Nat.le_refl _, fun _ hne => absurd rfl hne⟩
  · have hgap : (q + 1) * d ≤ k * d := Nat.mul_le_mul_right d hlt
    rw [Nat.succ_mul] at hgap
    omega

/-! ## The binade of a magnitude (R105, R107) -/

/-- The exponent `s` of the spacing `2^s` at which `roundMag` rounds. -/
def roundExp (num den : Nat) : Nat := Nat.log2 (num / den) - 23

/-- The significand that `roundMag` rounds to. -/
def roundSig (num den : Nat) : Nat := roundEven num (den * 2 ^ roundExp num den)

theorem roundMag_eq (num den : Nat) :
    roundMag num den = min (roundExp num den * 2 ^ 23 + roundSig num den) infLow := rfl

/-- The magnitude lies below `2^24` spacings, and from `2^23` spacings on unless the spacing is one unit. -/
theorem roundExp_binade (num : Nat) {den : Nat} (hden : 0 < den) :
    num < 2 ^ 24 * (den * 2 ^ roundExp num den) ∧
      (roundExp num den = 0 ∨ 2 ^ 23 * (den * 2 ^ roundExp num den) ≤ num) := by
  have hassoc (k s : Nat) : 2 ^ k * (den * 2 ^ s) = 2 ^ (k + s) * den := by
    rw [Nat.pow_add, Nat.mul_comm den, Nat.mul_assoc]
  rw [hassoc, hassoc]
  refine ⟨?_, or_iff_not_imp_left.2 fun hs => ?_⟩
  · refine (Nat.div_lt_iff_lt_mul hden).1 (Nat.lt_of_lt_of_le Nat.lt_log2_self ?_)
    exact Nat.pow_le_pow_right (by decide) (by unfold roundExp; omega)
  · have hlog : 23 + roundExp num den = Nat.log2 (num / den) := by unfold roundExp at hs ⊢; omega
    rw [hlog]
    refine (Nat.le_div_iff_mul_le hden).1 (Nat.log2_self_le fun h0 => hs ?_)
    rw [roundExp, h0]
    rfl

/-- The rounded significand has at most 24 bits or is `2^24`, and has 24 bits unless the spacing is one unit. -/
theorem roundSig_bounds (num : Nat) {den : Nat} (hden : 0 < den) :
    roundSig num den ≤ 2 ^ 24 ∧ (roundExp num den = 0 ∨ 2 ^ 23 ≤ roundSig num den) := by
  obtain ⟨hhi, hlo⟩ := roundExp_binade num hden
  have hd : 0 < den * 2 ^ roundExp num den := Nat.mul_pos hden (Nat.two_pow_pos _)
  have hhalf := (roundEven_half num hd).1
  rw [← roundSig] at hhalf
  generalize den * 2 ^ roundExp num den = d at hhi hlo hd hhalf
  generalize roundSig num den = q at hhalf ⊢
  unfold Nat.dist at hhalf
  refine ⟨Nat.le_of_not_lt fun h => ?_, hlo.imp_right fun hle => Nat.le_of_not_lt fun h => ?_⟩
  · have hgap : (2 ^ 24 + 1) * d ≤ q * d := Nat.mul_le_mul_right d h
    omega
  · have hgap : (q + 1) * d ≤ 2 ^ 23 * d := Nat.mul_le_mul_right d h
    rw [Nat.succ_mul] at hgap
    omega

/-- Rounding reaches the infinity exactly from half a spacing above the greatest finite magnitude on (R117). -/
theorem infLow_le_round_iff (num : Nat) {den : Nat} (hden : 0 < den) :
    infLow ≤ roundExp num den * 2 ^ 23 + roundSig num den ↔ (2 ^ 25 - 1) * 2 ^ 252 * den ≤ num := by
  obtain ⟨hhi, hlo⟩ := roundExp_binade num hden
  obtain ⟨hsig, hsig'⟩ := roundSig_bounds num hden
  obtain ⟨hhalf, htie⟩ := roundEven_half num (Nat.mul_pos hden (Nat.two_pow_pos (roundExp num den)))
  rw [← roundSig] at hhalf htie
  generalize roundSig num den = q at hsig hsig' hhalf htie ⊢
  generalize roundExp num den = s at hhi hlo hsig' hhalf htie ⊢
  generalize hd : den * 2 ^ s = d at hhi hlo hhalf htie
  unfold Nat.dist at hhalf htie
  unfold infLow
  rcases Nat.lt_trichotomy s 253 with hs | rfl | hs
  · have hsmall : d ≤ den * 2 ^ 252 :=
      hd ▸ Nat.mul_le_mul_left den (Nat.pow_le_pow_right (by decide) (by omega))
    clear hd
    omega
  · constructor <;> intro h
    · have hcarry : 2 ^ 24 * d ≤ q * d := Nat.mul_le_mul_right d (by omega)
      omega
    · by_contra hlt
      rcases Nat.lt_or_eq_of_le (show q ≤ 2 ^ 24 - 1 by omega) with hq | rfl
      · have hbelow : q * d ≤ (2 ^ 24 - 2) * d := Nat.mul_le_mul_right d (by omega)
        omega
      · omega
  · have hlarge : den * 2 ^ 254 ≤ d :=
      hd ▸ Nat.mul_le_mul_left den (Nat.pow_le_pow_right (by decide) hs)
    clear hd
    omega

/-! ## The magnitudes of the words (R105) -/

theorem fVal_natAbs (a : Word) : (fVal a).natAbs = fMag a := by
  unfold fVal
  split <;> omega

theorem fVal_fPack (neg : Bool) {low : Nat} (h : low < 2 ^ 31) :
    fVal (fPack neg low) = if neg then -(fMag (fPack neg low) : Int) else (fMag (fPack neg low) : Int) := by
  rw [fVal, fSign_fPack neg low h]

theorem isFinite_fPack_iff (neg : Bool) {low : Nat} (h : low < 2 ^ 31) :
    isFinite (fPack neg low) = true ↔ low < infLow := by
  rw [isFinite, fExp_fPack neg low h, bne_iff_ne, infLow]
  omega

/-- The word with significand `q` at the spacing `2^s`, where `q` may have carried into the next binade. -/
theorem fMag_fPack_scaled (neg : Bool) {q s : Nat} (hlo : s = 0 ∨ 2 ^ 23 ≤ q) (hhi : q ≤ 2 ^ 24)
    (hfin : s * 2 ^ 23 + q < infLow) : fMag (fPack neg (s * 2 ^ 23 + q)) = q * 2 ^ s := by
  unfold infLow at hfin
  rcases Nat.lt_or_ge q (2 ^ 23) with hsub | hnorm
  · obtain rfl : s = 0 := by omega
    have hlt : 0 * 2 ^ 23 + q < 2 ^ 31 := by omega
    have hexp : fExp (fPack neg (0 * 2 ^ 23 + q)) = 0 := by rw [fExp_fPack neg _ hlt]; omega
    rw [fMag, if_pos hexp, fFrac_fPack neg _ hlt]
    omega
  · rcases Nat.lt_or_eq_of_le hhi with hlt | rfl
    · exact fMag_fPack neg hnorm hlt (by omega)
    · rw [show s * 2 ^ 23 + 2 ^ 24 = (s + 1) * 2 ^ 23 + 2 ^ 23 by omega,
        fMag_fPack neg (Nat.le_refl _) (by decide) (by omega), Nat.pow_succ]
      omega

/-- A word is a multiple of the spacing `2^s` or lies below the binade of that spacing. -/
theorem fMag_multiple_or_lt (c : Word) (s : Nat) : 2 ^ s ∣ fMag c ∨ s ≠ 0 ∧ fMag c < 2 ^ 23 * 2 ^ s := by
  rw [← Nat.pow_add]
  rcases Nat.eq_zero_or_pos s with rfl | hpos
  · exact .inl (one_dvd _)
  have hmono {k : Nat} (h : k ≤ 23 + s) : 2 ^ k ≤ 2 ^ (23 + s) := Nat.pow_le_pow_right (by decide) h
  obtain ⟨hsub, hnorm⟩ := fMag_bounds c
  by_cases h0 : fExp c = 0
  · exact .inr ⟨by omega, Nat.lt_of_lt_of_le (hsub h0) (hmono (by omega))⟩
  rcases Nat.lt_or_ge s (fExp c) with hs | hs
  · rw [fMag, if_neg h0]
    exact .inl (Nat.dvd_mul_left_of_dvd (Nat.pow_dvd_pow 2 (by omega)) _)
  · exact .inr ⟨by omega, Nat.lt_of_lt_of_le (hnorm h0).2 (hmono (by omega))⟩

/-! ## The rounded magnitude is nearest among all words (R106, R107, R117) -/

theorem roundMag_lt_infLow {num den : Nat} (hden : 0 < den) (h : num < (2 ^ 25 - 1) * 2 ^ 252 * den) :
    roundMag num den < infLow := by
  have hno := mt (infLow_le_round_iff num hden).1 (Nat.not_le.2 h)
  rw [roundMag_eq]
  omega

theorem roundMag_eq_infLow {num den : Nat} (hden : 0 < den) (h : (2 ^ 25 - 1) * 2 ^ 252 * den ≤ num) :
    roundMag num den = infLow :=
  Nat.min_eq_right ((infLow_le_round_iff num hden).2 h)

/-- Below the overflow bound the rounded magnitude is `q · 2^s`, and it is even exactly if `q` is. -/
theorem fMag_roundMag (neg : Bool) {num den : Nat} (hden : 0 < den) (h : num < (2 ^ 25 - 1) * 2 ^ 252 * den) :
    fMag (fPack neg (roundMag num den)) = roundSig num den * 2 ^ roundExp num den ∧
      roundMag num den % 2 = roundSig num den % 2 := by
  have hno := mt (infLow_le_round_iff num hden).1 (Nat.not_le.2 h)
  obtain ⟨hhi, hlo⟩ := roundSig_bounds num hden
  rw [roundMag_eq, Nat.min_eq_left (Nat.le_of_not_le hno)]
  exact ⟨fMag_fPack_scaled neg hlo hhi (Nat.lt_of_not_le hno), by omega⟩

/-- No word's magnitude is nearer to `num / den` than the rounded one, and an equally near one means that the rounded
one is even. -/
theorem roundMag_nearest (neg : Bool) {num den : Nat} (hden : 0 < den) (h : num < (2 ^ 25 - 1) * 2 ^ 252 * den)
    (c : Word) :
    Nat.dist (fMag (fPack neg (roundMag num den)) * den) num ≤ Nat.dist (fMag c * den) num ∧
      (Nat.dist (fMag (fPack neg (roundMag num den)) * den) num = Nat.dist (fMag c * den) num →
        fMag c ≠ fMag (fPack neg (roundMag num den)) → roundMag num den % 2 = 0) := by
  obtain ⟨hmag, heven⟩ := fMag_roundMag neg hden h
  obtain ⟨-, hlo⟩ := roundExp_binade num hden
  have hd : 0 < den * 2 ^ roundExp num den := Nat.mul_pos hden (Nat.two_pow_pos _)
  have hscale (k : Nat) : k * 2 ^ roundExp num den * den = k * (den * 2 ^ roundExp num den) := by ring
  rw [heven, hmag, hscale, roundSig]
  rcases fMag_multiple_or_lt c (roundExp num den) with ⟨k, hk⟩ | ⟨hs, hbelow⟩
  · have hnear := roundEven_nearest num k hd
    rw [hk, Nat.mul_comm (2 ^ roundExp num den) k, hscale]
    exact ⟨hnear.1, fun heq hne => hnear.2 heq fun hkq => hne (hkq ▸ rfl)⟩
  · have hbinade : 2 ^ 23 * (den * 2 ^ roundExp num den) ≤ num := hlo.resolve_left hs
    have hnear := (roundEven_nearest num (2 ^ 23) hd).1
    have hfar : fMag c * den < 2 ^ 23 * (den * 2 ^ roundExp num den) :=
      hscale _ ▸ Nat.mul_lt_mul_of_pos_right hbelow hden
    unfold Nat.dist at hnear ⊢
    omega

/-! ## Rounding an exact value with its sign (R106, R115) -/

theorem roundMag_zero (den : Nat) : roundMag 0 den = 0 := by simp [roundMag, roundEven]

theorem fPack_even {low : Nat} (neg : Bool) (hlt : low < 2 ^ 31) (h : low % 2 = 0) : (fPack neg low).toNat % 2 = 0 := by
  rw [fPack_toNat neg low hlt]
  split <;> omega

/-- Distances of signed values are at least those of the magnitudes. -/
theorem dist_natAbs_le (x y : Int) : Nat.dist x.natAbs y.natAbs ≤ (x - y).natAbs := by
  unfold Nat.dist
  omega

/-- Distances of values of the same sign are those of the magnitudes. -/
theorem natAbs_sub_eq_dist {x y : Int} (h : x ≤ 0 ∧ y ≤ 0 ∨ 0 ≤ x ∧ 0 ≤ y) :
    (x - y).natAbs = Nat.dist x.natAbs y.natAbs := by
  unfold Nat.dist
  omega

/-- A packed word whose sign bit is the sign of `num`, unless `num` is zero, has a value of that sign. -/
theorem fVal_fPack_sign {neg : Bool} {low : Nat} (hlow : low < 2 ^ 31) {num : Int}
    (hneg : num ≠ 0 → neg = decide (num < 0)) :
    fVal (fPack neg low) ≤ 0 ∧ num ≤ 0 ∨ 0 ≤ fVal (fPack neg low) ∧ 0 ≤ num := by
  rw [fVal_fPack neg hlow]
  cases neg
  · have hnum : 0 ≤ num := by
      by_contra hlt
      exact absurd (hneg (by omega)) (by simpa using hlt)
    exact .inr ⟨Int.natCast_nonneg _, hnum⟩
  · have hnum : num ≤ 0 := by
      by_contra hlt
      exact absurd (hneg (by omega)) (by simpa using Int.le_of_lt (Int.lt_of_not_ge hlt))
    exact .inl ⟨Int.neg_nonpos_of_nonneg (Int.natCast_nonneg _), hnum⟩

/-- A value and its opposite are equally far only from zero. -/
theorem eq_zero_of_natAbs_sub_eq {x y : Int} (hx : x ≠ 0) (heq : (x - y).natAbs = (-x - y).natAbs) : y = 0 := by
  omega

/-- Rounding the magnitude of an exact value and setting the value's sign rounds the value; an exact zero may have
either sign. -/
theorem roundsTo_fPack {neg : Bool} {num : Int} {den : Nat} (hden : 0 < den)
    (hneg : num ≠ 0 → neg = decide (num < 0)) : RoundsTo (fPack neg (roundMag num.natAbs den)) num den := by
  have hlow := roundMag_lt num.natAbs den
  unfold RoundsTo
  split_ifs with h
  · refine ⟨(isFinite_fPack_iff neg hlow).2 (roundMag_lt_infLow hden h), fun c _ => ?_⟩
    obtain ⟨hle, htie⟩ := roundMag_nearest neg hden h c
    have hsign := fVal_fPack_sign hlow hneg
    have heven := fPack_even neg hlow
    generalize fPack neg (roundMag num.natAbs den) = r at hle htie hsign heven ⊢
    have habs (a : Word) : (fVal a * den).natAbs = fMag a * den := by
      rw [Int.natAbs_mul, fVal_natAbs, Int.natAbs_natCast]
    have hscaled : fVal r * den ≤ 0 ∧ num ≤ 0 ∨ 0 ≤ fVal r * den ∧ 0 ≤ num := hsign.imp
      (And.imp_left fun hv => Int.mul_nonpos_of_nonpos_of_nonneg hv (Int.natCast_nonneg den))
      (And.imp_left fun hv => Int.mul_nonneg hv (Int.natCast_nonneg den))
    have hr := natAbs_sub_eq_dist hscaled
    have hc := dist_natAbs_le (fVal c * den) num
    rw [habs] at hr hc
    refine ⟨hr ▸ Nat.le_trans hle hc, fun heq hne => heven ?_⟩
    by_cases hmag : fMag c = fMag r
    · have hopposite : fVal c = -fVal r :=
        (Int.natAbs_eq_natAbs_iff.1 (by rw [fVal_natAbs, fVal_natAbs, hmag])).resolve_left hne
      have hnonzero : fVal r * den ≠ 0 := Int.mul_ne_zero (by omega) (by omega)
      rw [hopposite, Int.neg_mul] at heq
      rw [eq_zero_of_natAbs_sub_eq hnonzero heq]
      exact congrArg (· % 2) (roundMag_zero den)
    · exact htie (Nat.le_antisymm hle (hr ▸ heq ▸ hc)) hmag
  · have hne : num ≠ 0 := by
      rintro rfl
      exact h (by simpa using hden)
    rw [roundMag_eq_infLow hden (Nat.le_of_not_lt h), hneg hne]

/-! ## The primitives on finite operands (R106) -/

theorem isInf_of_isFinite {a : Word} (h : isFinite a = true) : isInf a = false := by
  cases hi : isInf a with
  | false => rfl
  | true => exact absurd h (by rw [isFinite_of_isInf hi]; decide)

/-- The sign that `fadd` gives an exact sum: the operands' common sign if it is zero, its own sign else (R115). -/
def sumSign (a b : Word) : Bool :=
  if fVal a + fVal b = 0 then fSign a && fSign b else decide (fVal a + fVal b < 0)

theorem fadd_of_isFinite {a b : Word} (ha : isFinite a = true) (hb : isFinite b = true) :
    fadd a b = fPack (sumSign a b) (roundMag (fVal a + fVal b).natAbs 1) := by
  simp only [fadd, sumSign, isNaN_of_isFinite ha, isNaN_of_isFinite hb, isInf_of_isFinite ha, isInf_of_isFinite hb,
    Bool.or_self, Bool.false_eq_true, if_false]
  split_ifs with hzero
  · rw [hzero, Int.natAbs_zero, roundMag_zero]
  · rfl

theorem fmul_of_isFinite {a b : Word} (ha : isFinite a = true) (hb : isFinite b = true) :
    fmul a b = fPack (fSign a ^^ fSign b) (roundMag (fMag a * fMag b) (2 ^ 149)) := by
  simp only [fmul, isNaN_of_isFinite ha, isNaN_of_isFinite hb, isInf_of_isFinite ha, isInf_of_isFinite hb,
    Bool.or_self, Bool.false_eq_true, if_false]

theorem fdiv_of_isFinite {a b : Word} (ha : isFinite a = true) (hb : isFinite b = true) (hne : fMag b ≠ 0) :
    fdiv a b = fPack (fSign a ^^ fSign b) (roundMag (fMag a * 2 ^ 149) (fMag b)) := by
  simp only [fdiv, isNaN_of_isFinite ha, isNaN_of_isFinite hb, isInf_of_isFinite ha, isInf_of_isFinite hb, hne,
    Bool.or_self, Bool.false_eq_true, if_false]

theorem fadd_roundsTo {a b : Word} (ha : isFinite a = true) (hb : isFinite b = true) :
    RoundsTo (fadd a b) (fVal a + fVal b) 1 := by
  rw [fadd_of_isFinite ha hb]
  exact roundsTo_fPack Nat.one_pos fun hne => if_neg hne

/-- Settles O47: a difference is the sum with the opposite of the second operand, and the flipped sign is bit 31
flipped. -/
theorem faddRoundsTheExactSumOnce : Obligations.FaddRoundsTheExactSumOnce := by
  refine ⟨fun a b ha hb => ⟨fadd_roundsTo ha hb, ?_⟩, fun a b => by rw [fsub, fneg_eq_xor]⟩
  have hdiff := fadd_roundsTo ha (b := fneg b) (by rwa [isFinite_fneg])
  rwa [fVal_fneg, ← Int.sub_eq_add_neg] at hdiff

/-- The sign bit of a word that is no zero is the sign of its value (R105). -/
theorem fSign_eq_decide {a : Word} (h : fVal a ≠ 0) : fSign a = decide (fVal a < 0) := by
  unfold fVal at h ⊢
  cases hs : fSign a <;> simp only [hs, if_true, Bool.false_eq_true, if_false] at h ⊢ <;> symm
  · exact decide_eq_false (by omega)
  · exact decide_eq_true (by omega)

/-- A product of non-zero values is negative exactly if one factor is. -/
theorem decide_mul_neg {x y : Int} (hx : x ≠ 0) (hy : y ≠ 0) :
    decide (x * y < 0) = (decide (x < 0) ^^ decide (y < 0)) := by
  rw [Bool.eq_iff_iff, Bool.xor_iff_ne, decide_eq_true_eq, mul_neg_iff, ne_eq, decide_eq_decide]
  omega

/-- Settles O48: the sign of a product that is no zero is the exclusive-or of the factors' signs. -/
theorem fmulRoundsTheExactProductOnce : Obligations.FmulRoundsTheExactProductOnce := by
  intro a b ha hb
  rw [fmul_of_isFinite ha hb, ← fVal_natAbs, ← fVal_natAbs, ← Int.natAbs_mul]
  refine roundsTo_fPack (Nat.two_pow_pos 149) fun hne => ?_
  obtain ⟨hva, hvb⟩ := Int.mul_ne_zero_iff.1 hne
  rw [fSign_eq_decide hva, fSign_eq_decide hvb, decide_mul_neg hva hvb]

/-- Settles O49: the divisor's sign moves to the dividend, and the quotient of the magnitudes is rounded. -/
theorem fdivRoundsTheExactQuotientOnce : Obligations.FdivRoundsTheExactQuotientOnce := by
  intro a b ha hb hne
  have hden : fMag b ≠ 0 := by rwa [← fVal_natAbs, Int.natAbs_ne_zero]
  have hnum : (fVal a * (fVal b).sign * 2 ^ 149).natAbs = fMag a * 2 ^ 149 := by
    rw [Int.natAbs_mul, Int.natAbs_mul, Int.natAbs_sign_of_ne_zero hne, Nat.mul_one, fVal_natAbs, Int.natAbs_pow]
    rfl
  rw [fdiv_of_isFinite ha hb hden, ← hnum, fVal_natAbs]
  refine roundsTo_fPack (Nat.pos_of_ne_zero hden) fun hquot => ?_
  have hsign : decide (fVal b < 0) = decide ((fVal b).sign * 2 ^ 149 < 0) := by
    rw [decide_eq_decide]
    rcases Int.lt_or_gt_of_ne hne with hlt | hgt
    · rw [Int.sign_eq_neg_one_of_neg hlt]
      omega
    · rw [Int.sign_eq_one_of_pos hgt]
      omega
  rw [Int.mul_assoc] at hquot ⊢
  obtain ⟨hva, hvb⟩ := Int.mul_ne_zero_iff.1 hquot
  rw [fSign_eq_decide hva, fSign_eq_decide hne, hsign, decide_mul_neg hva hvb]

end Sys2Proof.Machine
end

section
/-! Proofs for spec/40_numerics.md R108, R115, R117: the operands on which a primitive gives a NaN, an infinity or a zero
by rule, and the sign of what it gives. -/

namespace Sys2Proof.Machine

open Sys2Proof

/-! ## Infinite operands and zero divisors (R106, R117) -/

theorem isNaN_of_isInf {a : Word} (h : isInf a = true) : isNaN a = false := by
  rcases finite_or_inf_or_nan a with ⟨_, hi, _⟩ | ⟨_, _, hn⟩ | ⟨_, hi, _⟩
  · exact absurd h (by rw [hi]; decide)
  · exact hn
  · exact absurd h (by rw [hi]; decide)

/-- What is no NaN is finite or an infinity (R105). -/
theorem isFinite_or_isInf {a : Word} (h : isNaN a = false) : isFinite a = true ∨ isInf a = true := by
  rcases finite_or_inf_or_nan a with ⟨hf, _, _⟩ | ⟨_, hi, _⟩ | ⟨_, _, hn⟩
  · exact .inl hf
  · exact .inr hi
  · exact absurd h (by rw [hn]; decide)

theorem isZero_iff {a : Word} : isZero a = true ↔ isFinite a = true ∧ fMag a = 0 := by
  simp only [isZero, Bool.and_eq_true, beq_iff_eq]

theorem isFinite_of_isZero {a : Word} (h : isZero a = true) : isFinite a = true := (isZero_iff.1 h).1

theorem isZero_of_isInf {a : Word} (h : isInf a = true) : isZero a = false := by
  rw [isZero, isFinite_of_isInf h, Bool.false_and]

theorem signedInf_eq (neg : Bool) : signedInf neg = fPack neg infLow := by cases neg <;> rfl

theorem signedZero_eq (neg : Bool) : signedZero neg = fPack neg 0 := by cases neg <;> rfl

theorem fadd_inf_left {a b : Word} (ha : isInf a = true)
    (hb : isFinite b = true ∨ isInf b = true ∧ fSign b = fSign a) : fadd a b = signedInf (fSign a) := by
  have hn : isNaN b = false := hb.elim isNaN_of_isFinite fun h => isNaN_of_isInf h.1
  have hopposite : (isInf b && (fSign a != fSign b)) = false := by
    rcases hb with hf | ⟨_, hs⟩
    · rw [isInf_of_isFinite hf, Bool.false_and]
    · rw [hs, bne_self_eq_false, Bool.and_false]
  simp only [fadd, isNaN_of_isInf ha, hn, ha, hopposite, Bool.or_self, Bool.false_eq_true, if_false, if_true]
  rw [signedInf_eq, ← isInf_eq ha]

theorem fadd_inf_right {a b : Word} (ha : isFinite a = true) (hb : isInf b = true) :
    fadd a b = signedInf (fSign b) := by
  simp only [fadd, isNaN_of_isFinite ha, isNaN_of_isInf hb, isInf_of_isFinite ha, hb, Bool.or_self, Bool.false_eq_true,
    if_false, if_true]
  rw [signedInf_eq, ← isInf_eq hb]

theorem fadd_inf_opposite {a b : Word} (ha : isInf a = true) (hb : isInf b = true) (hs : fSign a ≠ fSign b) :
    fadd a b = freeNaN .add a b := by
  simp only [fadd, isNaN_of_isInf ha, isNaN_of_isInf hb, ha, hb, bne_iff_ne.2 hs, Bool.or_self, Bool.and_self,
    Bool.false_eq_true, if_false, if_true]

theorem fmul_inf {a b : Word} (hab : isInf a = true ∨ isInf b = true) (ha : isNaN a = false) (hb : isNaN b = false) :
    fmul a b = if isZero a || isZero b then freeNaN .mul a b else signedInf (fSign a ^^ fSign b) := by
  have hinf : (isInf a || isInf b) = true := by simpa using hab
  simp only [fmul, ha, hb, hinf, Bool.or_self, Bool.false_eq_true, if_false, if_true, signedInf_eq]
  rfl

theorem fdiv_inf_inf {a b : Word} (ha : isInf a = true) (hb : isInf b = true) : fdiv a b = freeNaN .div a b := by
  simp only [fdiv, isNaN_of_isInf ha, isNaN_of_isInf hb, ha, hb, Bool.or_self, Bool.false_eq_true, if_false, if_true]

theorem fdiv_inf_left {a b : Word} (ha : isInf a = true) (hb : isFinite b = true) :
    fdiv a b = signedInf (fSign a ^^ fSign b) := by
  simp only [fdiv, isNaN_of_isInf ha, isNaN_of_isFinite hb, ha, isInf_of_isFinite hb, Bool.or_self, Bool.false_eq_true,
    if_false, if_true, signedInf_eq]

theorem fdiv_inf_right {a b : Word} (ha : isFinite a = true) (hb : isInf b = true) :
    fdiv a b = signedZero (fSign a ^^ fSign b) := by
  simp only [fdiv, isNaN_of_isFinite ha, isNaN_of_isInf hb, isInf_of_isFinite ha, hb, Bool.or_self, Bool.false_eq_true,
    if_false, if_true, signedZero_eq]

theorem fdiv_zero {a b : Word} (ha : isFinite a = true) (hb : isZero b = true) :
    fdiv a b = if isZero a then freeNaN .div a b else signedInf (fSign a ^^ fSign b) := by
  obtain ⟨hfin, hmag⟩ := isZero_iff.1 hb
  simp only [fdiv, isNaN_of_isFinite ha, isNaN_of_isFinite hfin, isInf_of_isFinite ha, isInf_of_isFinite hfin, hmag,
    isZero, ha, Bool.or_self, Bool.true_and, beq_iff_eq, Bool.false_eq_true, if_false, if_true, signedInf_eq]

/-- Settles O59: each clause is one branch of a primitive; a difference is the sum with the flipped operand. -/
theorem infinitiesAndZeroDivisors : Obligations.InfinitiesAndZeroDivisors := by
  refine fun a b => ⟨fadd_inf_left, fadd_inf_right, fun ha hb => fadd_inf_left ha ?_, fun ha hb => ?_,
    fun ha hb hz => ?_, fun ha hz hb => ?_, fdiv_inf_left, fdiv_inf_right, fun ha hz hb => ?_⟩
  · rw [isFinite_fneg, isInf_fneg, fSign_fneg]
    exact hb.imp_right (And.imp_right fun hs => Bool.not_eq.2 hs)
  · rw [fsub, fadd_inf_right ha (by rwa [isInf_fneg]), fSign_fneg]
  · rw [fmul_inf (.inl ha) (isNaN_of_isInf ha) hb, isZero_of_isInf ha, hz]
    rfl
  · rw [fmul_inf (.inr hb) ha (isNaN_of_isInf hb), isZero_of_isInf hb, hz]
    rfl
  · rw [fdiv_zero ha hb, hz]
    rfl

/-! ## Invalid operations and the sign of a result (R108, R115) -/

/-- The result is a generated NaN if the operation is invalid, and else a word of this sign that is no NaN. -/
def NaNOrSigned (invalid : Prop) (neg : Bool) (r : Word) : Prop :=
  invalid ∧ (∃ p, r = quietNaN p) ∨ ¬ invalid ∧ ∃ low, low ≤ infLow ∧ r = fPack neg low

section Results

variable {invalid : Prop} {neg : Bool} {r : Word}

theorem NaNOrSigned.generated (h : invalid) (o : FloatOp) (a b : Word) : NaNOrSigned invalid neg (freeNaN o a b) :=
  .inl ⟨h, _, rfl⟩

theorem NaNOrSigned.packed (h : ¬ invalid) {low : Nat} (hlow : low ≤ infLow) :
    NaNOrSigned invalid neg (fPack neg low) :=
  .inr ⟨h, low, hlow, rfl⟩

theorem NaNOrSigned.inf (h : ¬ invalid) : NaNOrSigned invalid neg (signedInf neg) :=
  signedInf_eq neg ▸ .packed h (Nat.le_refl _)

theorem NaNOrSigned.zero (h : ¬ invalid) : NaNOrSigned invalid neg (signedZero neg) :=
  signedZero_eq neg ▸ .packed h (Nat.zero_le _)

theorem NaNOrSigned.invalid_iff (h : NaNOrSigned invalid neg r) : invalid ↔ isNaN r = true := by
  rcases h with ⟨hp, p, rfl⟩ | ⟨hp, low, hlow, rfl⟩
  · exact iff_of_true hp (isNaN_quietNaN p)
  · exact iff_of_false hp (by rw [isNaN_fPack neg low hlow]; decide)

theorem NaNOrSigned.quiet (h : NaNOrSigned invalid neg r) (hr : isNaN r = true) : isQuietNaN r = true := by
  rcases h with ⟨_, p, rfl⟩ | ⟨_, low, hlow, rfl⟩
  · rw [isQuietNaN, hr, quietNaN_bit22]
    rfl
  · exact absurd hr (by rw [isNaN_fPack neg low hlow]; decide)

theorem NaNOrSigned.sign (h : NaNOrSigned invalid neg r) (hr : isNaN r = false) : fSign r = neg := by
  rcases h with ⟨_, p, rfl⟩ | ⟨_, low, hlow, rfl⟩
  · exact absurd hr (by rw [isNaN_quietNaN]; decide)
  · exact fSign_fPack neg low (Nat.lt_of_le_of_lt hlow infLow_lt)

end Results

section Operands

variable (a b : Word)

/-- A NaN operand, or infinities of opposite signs. -/
def SumInvalid : Prop := isNaN a = true ∨ isNaN b = true ∨ (isInf a = true ∧ isInf b = true ∧ fSign a ≠ fSign b)

/-- A NaN operand, or an infinity and a zero. -/
def ProductInvalid : Prop :=
  isNaN a = true ∨ isNaN b = true ∨ (isInf a = true ∧ isZero b = true) ∨ (isZero a = true ∧ isInf b = true)

/-- A NaN operand, two infinities or two zeros. -/
def QuotientInvalid : Prop :=
  isNaN a = true ∨ isNaN b = true ∨ (isInf a = true ∧ isInf b = true) ∨ (isZero a = true ∧ isZero b = true)

/-- A sum that is not of two finite words is a generated NaN or an infinity. -/
theorem fadd_cases :
    (isFinite a = true ∧ isFinite b = true) ∨ (SumInvalid a b ∧ fadd a b = freeNaN .add a b) ∨
      (¬ SumInvalid a b ∧ ∃ neg, fadd a b = signedInf neg) := by
  by_cases hn : isNaN a = true ∨ isNaN b = true
  · exact .inr (.inl ⟨by unfold SumInvalid; tauto, fadd_nan hn⟩)
  obtain ⟨hna, hnb⟩ : isNaN a = false ∧ isNaN b = false := by simpa using hn
  rcases isFinite_or_isInf hna with hfa | hia <;> rcases isFinite_or_isInf hnb with hfb | hib
  · exact .inl ⟨hfa, hfb⟩
  · exact .inr (.inr ⟨by simp [SumInvalid, hna, hnb, isInf_of_isFinite hfa], _, fadd_inf_right hfa hib⟩)
  · exact .inr (.inr ⟨by simp [SumInvalid, hna, hnb, isInf_of_isFinite hfb], _, fadd_inf_left hia (.inl hfb)⟩)
  · by_cases hs : fSign a = fSign b
    · exact .inr (.inr ⟨by simp [SumInvalid, hna, hnb, hs], _, fadd_inf_left hia (.inr ⟨hib, hs.symm⟩)⟩)
    · exact .inr (.inl ⟨.inr (.inr ⟨hia, hib, hs⟩), fadd_inf_opposite hia hib hs⟩)

theorem fadd_result : ∃ neg, NaNOrSigned (SumInvalid a b) neg (fadd a b) := by
  rcases fadd_cases a b with ⟨ha, hb⟩ | ⟨hinvalid, hsum⟩ | ⟨hvalid, neg, hsum⟩
  · have hvalid : ¬ SumInvalid a b := by
      simp [SumInvalid, isNaN_of_isFinite ha, isNaN_of_isFinite hb, isInf_of_isFinite ha]
    rw [fadd_of_isFinite ha hb]
    exact ⟨_, .packed hvalid (roundMag_le ..)⟩
  · exact ⟨true, hsum ▸ .generated hinvalid ..⟩
  · rw [hsum]
    exact ⟨_, .inf hvalid⟩

theorem fmul_result : NaNOrSigned (ProductInvalid a b) (fSign a ^^ fSign b) (fmul a b) := by
  by_cases hn : isNaN a = true ∨ isNaN b = true
  · exact fmul_nan hn ▸ .generated (by unfold ProductInvalid; tauto) ..
  obtain ⟨hna, hnb⟩ : isNaN a = false ∧ isNaN b = false := by simpa using hn
  by_cases hinf : isInf a = true ∨ isInf b = true
  · have hzeros : (isZero a || isZero b) = true ↔ ProductInvalid a b := by
      simp only [ProductInvalid, hna, hnb, Bool.or_eq_true, Bool.false_eq_true, false_or]
      refine ⟨fun hz => ?_, fun h => h.elim (fun h => .inr h.2) (fun h => .inl h.1)⟩
      rcases hinf with hi | hi
      · exact .inl ⟨hi, hz.resolve_left (by rw [isZero_of_isInf hi]; decide)⟩
      · exact .inr ⟨hz.resolve_right (by rw [isZero_of_isInf hi]; decide), hi⟩
    rw [fmul_inf hinf hna hnb]
    split_ifs with hz
    · exact .generated (hzeros.1 hz) ..
    · exact .inf (mt hzeros.2 hz)
  · have hvalid : ¬ ProductInvalid a b := by unfold ProductInvalid; tauto
    rw [not_or] at hinf
    rw [fmul_of_isFinite ((isFinite_or_isInf hna).resolve_right hinf.1) ((isFinite_or_isInf hnb).resolve_right hinf.2)]
    exact .packed hvalid (roundMag_le ..)

theorem fdiv_result : NaNOrSigned (QuotientInvalid a b) (fSign a ^^ fSign b) (fdiv a b) := by
  by_cases hn : isNaN a = true ∨ isNaN b = true
  · exact fdiv_nan hn ▸ .generated (by unfold QuotientInvalid; tauto) ..
  obtain ⟨hna, hnb⟩ : isNaN a = false ∧ isNaN b = false := by simpa using hn
  rcases isFinite_or_isInf hna with hfa | hia <;> rcases isFinite_or_isInf hnb with hfb | hib
  · by_cases hzb : isZero b = true
    · rw [fdiv_zero hfa hzb]
      split_ifs with hza
      · exact .generated (.inr (.inr (.inr ⟨hza, hzb⟩))) ..
      · exact .inf (by simp [QuotientInvalid, hna, hnb, isInf_of_isFinite hfa, hza])
    · have hvalid : ¬ QuotientInvalid a b := by simp [QuotientInvalid, hna, hnb, isInf_of_isFinite hfa, hzb]
      rw [fdiv_of_isFinite hfa hfb fun hmag => hzb (isZero_iff.2 ⟨hfb, hmag⟩)]
      exact .packed hvalid (roundMag_le ..)
  · exact fdiv_inf_right hfa hib ▸
      .zero (by simp [QuotientInvalid, hna, hnb, isInf_of_isFinite hfa, isZero_of_isInf hib])
  · exact fdiv_inf_left hia hfb ▸
      .inf (by simp [QuotientInvalid, hna, hnb, isInf_of_isFinite hfb, isZero_of_isInf hia])
  · exact fdiv_inf_inf hia hib ▸ .generated (.inr (.inr (.inl ⟨hia, hib⟩))) ..

end Operands

theorem sumInvalid_fneg (a b : Word) :
    SumInvalid a (fneg b) ↔
      isNaN a = true ∨ isNaN b = true ∨ (isInf a = true ∧ isInf b = true ∧ fSign a = fSign b) := by
  simp only [SumInvalid, isNaN_fneg, isInf_fneg, fSign_fneg, ne_eq, Bool.not_eq_not]

/-- Settles O50: each primitive's result is a generated NaN on its invalid operands and a packed number else. -/
theorem nanArisesExactlyFromInvalidOperations : Obligations.NaNArisesExactlyFromInvalidOperations := by
  intro a b
  obtain ⟨_, hadd⟩ := fadd_result a b
  obtain ⟨_, hsub⟩ := fadd_result a (fneg b)
  have hmul := fmul_result a b
  have hdiv := fdiv_result a b
  refine ⟨hadd.invalid_iff, (sumInvalid_fneg a b).symm.trans hsub.invalid_iff, hmul.invalid_iff, hdiv.invalid_iff, ?_⟩
  simp only [List.forall_mem_cons, List.not_mem_nil, false_imp_iff, implies_true, and_true]
  exact ⟨hadd.quiet, hsub.quiet, hmul.quiet, hdiv.quiet⟩

/-! ## Signed zeros (R115) -/

theorem fVal_eq_zero_iff {a : Word} : fVal a = 0 ↔ slice a 30 0 = 0 := by
  rw [← fMag_eq_zero_iff, ← fVal_natAbs, Int.natAbs_eq_zero]

/-- Only zero rounds to zero among the integral magnitudes: a sum never underflows. -/
theorem eq_zero_of_roundMag_one {n : Nat} (h : roundMag n 1 = 0) : n = 0 := by
  rw [roundMag_eq] at h
  unfold infLow at h
  have hexp : roundExp n 1 = 0 := by omega
  have hsig : roundSig n 1 = 0 := by omega
  rw [roundSig, hexp] at hsig
  simpa [roundEven, Nat.mod_one] using hsig

/-- An exact zero sum is negative only if both operands have their sign bit set. -/
theorem fadd_exact_zero {x y : Word} (hx : isFinite x = true) (hy : isFinite y = true) (h : fVal x + fVal y = 0) :
    fadd x y = signedZero (fSign x && fSign y) := by
  rw [fadd_of_isFinite hx hy, sumSign, if_pos h, h, Int.natAbs_zero, roundMag_zero, signedZero_eq]

theorem fsub_self {x : Word} (hx : isFinite x = true) : fsub x x = 0x00000000 := by
  rw [fsub, fadd_exact_zero hx (by rwa [isFinite_fneg]) (by rw [fVal_fneg, Int.add_right_neg]), fSign_fneg,
    Bool.and_not_self]
  rfl

theorem fadd_cancel {x y : Word} (hx : isFinite x = true) (hy : isFinite y = true) (h : fVal x + fVal y = 0)
    (hne : fVal x ≠ 0) : fadd x y = 0x00000000 := by
  have hsigns : (fSign x && fSign y) = false := by
    rw [fSign_eq_decide hne, fSign_eq_decide (show fVal y ≠ 0 by omega), ← Bool.decide_and]
    exact decide_eq_false (by omega)
  rw [fadd_exact_zero hx hy h, hsigns]
  rfl

theorem isFinite_signedInf (neg : Bool) : isFinite (signedInf neg) = false := by cases neg <;> rfl

/-- A sum with a NaN or an infinity is not finite. -/
theorem isFinite_of_isFinite_fadd {x y : Word} (h : isFinite (fadd x y) = true) :
    isFinite x = true ∧ isFinite y = true := by
  rcases fadd_cases x y with hfin | ⟨_, hsum⟩ | ⟨_, neg, hsum⟩
  · exact hfin
  · rw [hsum, isFinite_of_isNaN (isNaN_freeNaN ..)] at h
    exact absurd h (by decide)
  · rw [hsum, isFinite_signedInf] at h
    exact absurd h (by decide)

theorem fVal_nonpos {a : Word} (h : fSign a = true) : fVal a ≤ 0 := by
  rw [fVal, if_pos h]
  omega

/-- A sum is `-0` only if its first operand is: an accumulator that starts at `+0` never becomes `-0` (R115). -/
theorem eq_negZero_of_fadd {x y : Word} (h : fadd x y = 0x80000000) : x = 0x80000000 := by
  obtain ⟨hx, hy⟩ := isFinite_of_isFinite_fadd (x := x) (y := y) (by rw [h]; decide)
  have hlow := roundMag_lt (fVal x + fVal y).natAbs 1
  rw [fadd_of_isFinite hx hy] at h
  have hround : roundMag (fVal x + fVal y).natAbs 1 = 0 := by
    rw [← low_fPack (sumSign x y) _ hlow, h]
    rfl
  have hsum : fVal x + fVal y = 0 := Int.natAbs_eq_zero.1 (eq_zero_of_roundMag_one hround)
  have hsign : sumSign x y = true := by
    rw [← fSign_fPack (sumSign x y) _ hlow, h]
    rfl
  rw [sumSign, if_pos hsum, Bool.and_eq_true] at hsign
  obtain ⟨hsx, hsy⟩ := hsign
  have hzero : fVal x = 0 := by
    have := fVal_nonpos hsx
    have := fVal_nonpos hsy
    omega
  rw [eq_fPack x, hsx, fVal_eq_zero_iff.1 hzero]
  rfl

/-- Settles O51: exact zero sums, the accumulator, and the signs of products and quotients. -/
theorem signedZerosFollowTheRules : Obligations.SignedZerosFollowTheRules :=
  ⟨by decide, by decide, by decide, fun _ => fsub_self, fun _ _ => fadd_cancel, fun _ _ => mt eq_negZero_of_fadd,
    fun x y => (fmul_result x y).sign, fun x y => (fdiv_result x y).sign⟩

end Sys2Proof.Machine
end

section
/-! Proofs for spec/40_numerics.md R109 to R114 and R118 to R120: comparisons, `fabs`, `fmaxc`, the conversions between
words and integers, and the integer laws. -/

namespace Sys2Proof.Machine

open Sys2Proof

/-! ## Comparisons and copied words (R109 to R111) -/

theorem fMag_of_isInf {a : Word} (h : isInf a = true) : fMag a = 2 ^ 277 := by
  obtain ⟨hexp, hfrac⟩ : fExp a = 255 ∧ fFrac a = 0 := by simpa [isInf] using h
  rw [fMag, hexp, hfrac, if_neg (by decide), Nat.add_zero, show 277 = 23 + (255 - 1) from rfl, Nat.pow_add]

/-- The formula of a finite value gives an infinity the place that `fExt` gives it, above every finite one. -/
theorem fExt_eq_fVal (a : Word) : fExt a = fVal a := by
  unfold fExt
  split_ifs with hinf hs
  · rw [fVal, if_pos hs, fMag_of_isInf hinf, Nat.cast_pow, Nat.cast_ofNat]
  · rw [fVal, if_neg hs, fMag_of_isInf hinf, Nat.cast_pow, Nat.cast_ofNat]
  · rfl

theorem fKey_eq_iff {a b : Word} : fKey a = fKey b ↔ fVal a = fVal b := by
  have hlt := @fVal_lt_iff a b
  have hgt := @fVal_lt_iff b a
  omega

/-- Settles O52: the places in the order of the words compare as the values do. -/
theorem comparisonsCompareValues : Obligations.ComparisonsCompareValues := by
  intro a b
  simp only [fgt, fge, feq, fExt_eq_fVal, Bool.and_eq_true, Bool.not_eq_true', decide_eq_true_eq, and_assoc]
  refine ⟨?_, ?_, ?_⟩
  · rw [fVal_lt_iff]
  · rw [← not_lt, ← not_lt, fVal_lt_iff]
  · rw [fKey_eq_iff]

/-- Settles O53: a comparison with a NaN is false, so that `fmaxc` returns its second operand. -/
theorem fmaxcReturnsAnOperandUnchanged : Obligations.FmaxcReturnsAnOperandUnchanged := by
  refine ⟨fun _ _ => rfl, fun a b ha => ?_, fun a b hb => ?_, by decide, by decide⟩
  · rw [fmaxc, fge_nan (.inl ha)]
    rfl
  · rw [fmaxc, fge_nan (.inr hb)]
    rfl

theorem fFrac_fabs (a : Word) : fFrac (fabs a) = fFrac a := by
  rw [fabs, fFrac_fPack false _ (low_lt a), low_parts]
  have := fFrac_lt a
  omega

theorem fExp_fabs (a : Word) : fExp (fabs a) = fExp a := by
  rw [fabs, fExp_fPack false _ (low_lt a), low_parts]
  have := fFrac_lt a
  omega

/-- Settles O54: the word is packed again from its own low bits with a clear sign. -/
theorem fabsClearsTheSignBitOnly : Obligations.FabsClearsTheSignBitOnly := by
  refine fun a => ⟨fSign_fPack _ _ (low_lt a), low_fPack _ _ (low_lt a), fun hn => ⟨?_, fFrac_fabs a⟩⟩
  rwa [isNaN, fExp_fabs, fFrac_fabs]

/-! ## Integers and words (R113, R114) -/

/-- Settles O55: `floorZ` divides the value, an integer number of units of 2^-149, by the units of one. -/
theorem floorIsTheGreatestIntegerBelow : Obligations.FloorIsTheGreatestIntegerBelow :=
  ⟨fun _ _ _ => Int.le_ediv_iff_mul_le (by decide), by decide, by decide, by decide⟩

/-- An integer that is the magnitude of some word converts exactly: the nearest word is then at distance zero (R114). -/
theorem i2f_exact {k : Int} {c : Word} (hc : fMag c = k.natAbs * 2 ^ 149)
    (hk : k.natAbs * 2 ^ 149 < (2 ^ 25 - 1) * 2 ^ 252) : isFinite (i2f k) = true ∧ fVal (i2f k) = k * 2 ^ 149 := by
  have hlow := roundMag_lt (k.natAbs * 2 ^ 149) 1
  rw [← Nat.mul_one ((2 ^ 25 - 1) * 2 ^ 252)] at hk
  have hnear := (roundMag_nearest (decide (k < 0)) Nat.one_pos hk c).1
  rw [hc, Nat.mul_one, Nat.mul_one, Nat.dist_self, Nat.le_zero] at hnear
  have hmag := Nat.eq_of_dist_eq_zero hnear
  refine ⟨(isFinite_fPack_iff _ hlow).2 (roundMag_lt_infLow Nat.one_pos hk), ?_⟩
  rw [i2f, fVal_fPack _ hlow, hmag]
  by_cases hneg : k < 0
  · rw [if_pos (decide_eq_true hneg)]
    omega
  · rw [if_neg (by simpa using hneg)]
    omega

/-- Integers of at most 24 bits convert exactly (R114). -/
theorem i2f_exact_of_lt {k : Int} (hk : k.natAbs < 2 ^ 24) : isFinite (i2f k) = true ∧ fVal (i2f k) = k * 2 ^ 149 := by
  refine i2f_exact (c := i2f k.natAbs) ?_ (by omega)
  rw [← fVal_natAbs, fVal_i2f hk]
  norm_cast

/-- The greatest finite magnitude (R117). -/
theorem fMag_le_of_isFinite {a : Word} (h : isFinite a = true) : fMag a ≤ (2 ^ 24 - 1) * 2 ^ 253 := by
  have hexp : fExp a ≠ 255 := bne_iff_ne.1 h
  have hlt := fExp_lt a
  have hfrac := fFrac_lt a
  unfold fMag
  split_ifs
  · omega
  · exact Nat.mul_le_mul (by omega) (Nat.pow_le_pow_right (by decide) (by omega))

/-- A finite value is an integer, or its greatest integer has at most 24 bits (R113, R114). -/
theorem floorZ_cases (a : Word) : fVal a = floorZ a * 2 ^ 149 ∨ (floorZ a).natAbs < 2 ^ 24 := by
  unfold floorZ
  rcases fMag_multiple_or_lt a 149 with ⟨q, hq⟩ | ⟨-, hlt⟩
  · refine .inl (Int.ediv_mul_cancel (Int.dvd_natAbs.1 ?_)).symm
    rw [fVal_natAbs, hq]
    exact ⟨q, by push_cast; rfl⟩
  · rw [← fVal_natAbs] at hlt
    omega

/-- Settles O56: a greatest integer of more than 24 bits is the word's own value. -/
theorem integerConversionsAreExact : Obligations.IntegerConversionsAreExact := by
  refine ⟨fun k hk => i2f_exact_of_lt (by omega), fun a ha => ?_, by decide⟩
  rcases floorZ_cases a with hint | hsmall
  · have hmag : fMag a = (floorZ a).natAbs * 2 ^ 149 := by
      rw [← fVal_natAbs, congrArg Int.natAbs hint, Int.natAbs_mul]
      rfl
    have hmax := fMag_le_of_isFinite ha
    exact i2f_exact hmag (by omega)
  · exact i2f_exact_of_lt hsmall

/-! ## Integer laws (R118 to R120) -/

theorem lt_roundDown_add {w : Nat} (hw : 0 < w) (n : Nat) : n < roundDown w n + w := Nat.lt_mul_div_succ n hw

theorem satAdd32_toNat (a : Word) (n : Nat) : (satAdd32 a n).toNat = min (a.toNat + n) (2 ^ 32 - 1) := by
  rw [satAdd32, BitVec.toNat_ofNat]
  omega

/-- The Euclidean remainder as an integer (R120). -/
theorem emod_cast (i : Int) {m : Nat} (hm : 1 ≤ m) : (emod i m : Int) = i % m :=
  Int.toNat_of_nonneg (Int.emod_nonneg i (by omega))

theorem dvd_sub_emod (i : Int) {m : Nat} (hm : 1 ≤ m) : (m : Int) ∣ i - emod i m := by
  rw [emod_cast i hm]
  exact Int.dvd_self_sub_emod

theorem eq_emod_of_dvd {i : Int} {m r : Nat} (hm : 1 ≤ m) (hr : r < m) (h : (m : Int) ∣ i - r) : r = emod i m := by
  have hmod : (r : Int) % m = i % m := Int.modEq_iff_dvd.2 h
  rw [Int.emod_eq_of_lt (by omega) (by omega), ← emod_cast i hm] at hmod
  omega

/-- Settles O58: the laws of the divisions with remainder behind the four functions. -/
theorem integerLaws : Obligations.IntegerLaws := by
  refine ⟨fun w n hw => ?_, by decide, by decide, by decide, by decide, by decide, fun a b => satAdd32_toNat a b.toNat,
    fun i m hm => ⟨emod_lt i hm, dvd_sub_emod i hm, fun _ => eq_emod_of_dvd hm⟩, by decide, by decide, fun i => ?_⟩
  · obtain ⟨hle, hlt⟩ := roundUp_spec hw n
    exact ⟨Nat.dvd_of_mod_eq_zero (roundUp_mod w n), hle, hlt, Nat.dvd_of_mod_eq_zero (roundDown_mod w n),
      roundDown_le w n, lt_roundDown_add hw n⟩
  · exact Nat.lt_one_iff.1 (emod_lt i (Nat.le_refl 1))

end Sys2Proof.Machine
end

section
/-! Proofs for spec/41_oscillator_bank.md: `RENDER` slot by slot and frame by frame (R125 to R131), and the commands
that rescale or age every live slot (R132 to R134). -/

namespace Sys2Proof.Machine

open Sys2Proof

theorem State.Inv.nlive_le {s : State} (hs : s.Inv) : s.nlive ≤ oscStride := by
  obtain ⟨-, hno, hosc, -⟩ := hs.bounds
  exact Nat.le_trans hno hosc

/-! ## CSCL, SSCL, DDEC (R132 to R134) -/

/-- Rewrite the fields `fs` of slot `i`, each from its own word before the first write. -/
def Memory.rewriteSlot (fs : List Field) (u : Field → Word → Word) (m : Memory) (i : Nat) : Memory :=
  fs.foldl (fun m' f => m'.setOsc f i (u f (m.osc f i))) m

/-- A loop that rewrites the fields `fs` of every slot below `n` does this and nothing else. -/
theorem Memory.forEach_rewriteSlot {m : Memory} (hm : m.wf) {n : Nat} (hn : n ≤ oscStride) (fs : List Field)
    (u : Field → Word → Word) :
    (∀ i, i < n → ∀ f ∈ fs, (forEach n (rewriteSlot fs u) m).osc f i = u f (m.osc f i)) ∧
      (forEach n (rewriteSlot fs u) m).SameOutside m (SlotWord fs n) := by
  obtain ⟨hwrote, hosc⟩ := forEach_slots hm hn fs (fun f i => u f (m.osc f i)) (op := rewriteSlot fs u)
    (fun i _ m' => wrote_foldl fs m' fun f hf m'' => wrote_setOsc m'' f i _ ⟨f, hf, rfl⟩)
    (fun i hi m' hm' hslot f hf => by
      obtain ⟨-, -, -, hword⟩ := foldl_setOsc (v := fun g => u g (m'.osc g i)) i (by omega) fs m' hm'
      rw [← hslot f]
      exact hword f hf)
  exact ⟨hosc, hwrote.sameOutside⟩

/-- Settles O22: the loop rewrites `C1` and `C2` of every live slot. -/
theorem csclScalesEveryLiveCoefficient : Obligations.CsclScalesEveryLiveCoefficient := by
  intro s hs
  obtain ⟨hosc, hsame⟩ := Memory.forEach_rewriteSlot hs.canonical hs.nlive_le [.c1, .c2]
    fun f x => fmul x (if f = .c1 then s.kc1 else s.kc2)
  exact ⟨_, rfl, rfl, fun i hi => ⟨hosc i hi .c1 (by decide), hosc i hi .c2 (by decide)⟩, hsame⟩

/-- Settles O23: the loop rewrites `Y1` and `Y2` of every live slot. -/
theorem ssclScalesEveryLiveState : Obligations.SsclScalesEveryLiveState := by
  intro s hs
  obtain ⟨hosc, hsame⟩ := Memory.forEach_rewriteSlot hs.canonical hs.nlive_le [.y1, .y2] fun _ x => fmul x s.ks
  exact ⟨_, rfl, rfl, fun i hi => ⟨hosc i hi .y1 (by decide), hosc i hi .y2 (by decide)⟩, hsame⟩

/-- Settles O24: the loop rewrites `DUR` of every live slot. -/
theorem ddecAgesEveryLiveSlot : Obligations.DdecAgesEveryLiveSlot := by
  intro s hs
  obtain ⟨hosc, hsame⟩ := Memory.forEach_rewriteSlot hs.canonical hs.nlive_le [.dur] fun _ x => fsub x s.dt
  exact ⟨_, rfl, rfl, fun i hi => hosc i hi .dur (by decide), hsame⟩

/-! ## RENDER: one pass over the groups -/

/-- The words of slot `i` when it stands at `x` and its other fields are as in `m`. -/
def Memory.oscAt (m : Memory) (i : Nat) (x : Course) : Field → Word
  | .c1 => x.c1
  | .y1 => x.y1
  | .y2 => x.y2
  | g => m.osc g i

/-- The horizontal sum by lane number (R127). -/
theorem laneSum_eq {acc : List Word} {total : Nat → Word} (hpos : 0 < acc.length)
    (h : ∀ l, l < acc.length → acc.getD l 0 = total l) :
    laneSum acc = ((List.range (acc.length - 1)).map (· + 1)).foldl (fun v l => fadd v (total l)) (total 0) := by
  have hacc : acc = (List.range acc.length).map total := by
    refine List.ext_getElem (by simp) fun l hl _ => ?_
    simpa [List.getD_eq_getElem?_getD, hl] using h l hl
  obtain ⟨n, hn⟩ : ∃ n, acc.length = n + 1 := ⟨_, (Nat.succ_pred_eq_of_pos hpos).symm⟩
  rw [hn, List.range_succ_eq_map, List.map_cons] at hacc
  rw [hn, hacc, laneSum, List.foldl_map, List.foldl_map, Nat.add_sub_cancel, List.foldl_map]

/-- A pass over the groups writes slot words alone. -/
theorem LanesDone.read_eq {j : RenderJob} {k c : Nat} {m : Memory} {st : Memory × List Word}
    (h : LanesDone j k m c st) {b : Nat} (hb : b < oscBase) : st.1.read b = m.read b := by
  refine h.wrote.read_eq ?_
  rintro ⟨g, -, i, -, rfl⟩
  exact absurd (oscBase_le_oscAddr g i) (Nat.not_le_of_lt hb)

/-! ## RENDER: frame after frame

The memory is followed through the frames by what `State.Rendered` says of its end: every live slot stands where its
own course has brought it, and the frames so far have their outputs. -/

section Render

variable {s : State} {c f a : Bool} {e : Option Nat}

/-- The job of a `RENDER` (R127). -/
def State.renderJob (s : State) (c f a : Bool) (e : Option Nat) : RenderJob where
  chirp := c
  forcing := f
  additive := a
  envelope := e.map s.lut
  width := s.params.w
  nlive := s.nlive
  sidx := s.sidx.toNat

theorem State.renderFrames_eq (s : State) (c f a : Bool) (e : Option Nat) (n : Nat) :
    s.renderFrames c f a (e.map s.lut) n =
      (s.setMem (Memory.forEach n (renderFrame (s.renderJob c f a e)) s.mem)).setSidx (satAdd32 s.sidx n) := rfl

/-- What holds after the frames below `k`. -/
structure FramesDone (s : State) (c f a : Bool) (e : Option Nat) (k : Nat) (m : Memory) : Prop where
  wrote : Memory.Wrote (fun b => SlotWord (renderFields c) s.nlive b ∨ OutputWord k b) s.mem m
  slot : ∀ i, i < s.nlive → ∀ g, m.osc g i = s.mem.oscAt i (s.course c f i k) g
  output : ∀ k', k' < k → m.obuf k' =
    if a then fadd (s.mem.obuf k') (s.frameOutput c f e k') else s.frameOutput c f e k'

theorem framesDone_zero : FramesDone s c f a e 0 s.mem where
  wrote := .refl
  slot i _ g := by cases g <;> rfl
  output _ hk := absurd hk (Nat.not_lt_zero _)

namespace FramesDone

variable {k : Nat} {m : Memory}

theorem read_eq (h : FramesDone s c f a e k m) {b : Nat} (hb : b < oscBase) (hout : ¬ OutputWord k b) :
    m.read b = s.mem.read b := by
  refine h.wrote.read_eq ?_
  rintro (⟨g, -, i, -, rfl⟩ | hb')
  · exact absurd (oscBase_le_oscAddr g i) (Nat.not_le_of_lt hb)
  · exact hout hb'

/-- The words below `OBUF` are as before the command. -/
theorem read_eq_of_lt (h : FramesDone s c f a e k m) {b : Nat} (hb : b < obufBase) : m.read b = s.mem.read b := by
  refine h.read_eq (Nat.lt_trans hb (by decide)) ?_
  rintro ⟨k', -, rfl⟩
  exact absurd hb (Nat.not_lt_of_le (Nat.le_add_right _ _))

theorem fbuf_eq (h : FramesDone s c f a e k m) (hk : k < oscStride) : m.fbuf k = s.mem.fbuf k :=
  h.read_eq_of_lt (by unfold fbufBase obufBase; unfold oscStride at hk; omega)

/-- The output words of the frames to come are as before the command. -/
theorem obuf_eq (h : FramesDone s c f a e k m) (hk : k < oscStride) : m.obuf k = s.mem.obuf k := by
  refine h.read_eq (by unfold obufBase oscBase; unfold oscStride at hk; omega) ?_
  rintro ⟨k', hk', he⟩
  omega

/-- A slot's output in the frame is the one of its course (R125, R128). -/
theorem slotOutput_eq (h : FramesDone s c f a e k m) (hk : k < oscStride) {i : Nat} (hi : i < s.nlive) :
    slotOutput f (m.fbuf k) m i = s.slotSample c f k i := by
  simp only [slotOutput, h.slot i hi, h.fbuf_eq hk]
  rfl

/-- The frame takes a slot to the next point of its course (R127 to R129). -/
theorem frameWord_eq (h : FramesDone s c f a e k m) (hk : k < oscStride) {i : Nat} (hi : i < s.nlive) (g : Field) :
    frameWord (s.renderJob c f a e) k m i g = s.mem.oscAt i (s.course c f i (k + 1)) g := by
  cases g with
  | y1 => exact h.slotOutput_eq hk hi
  | c1 =>
    simp only [frameWord, chirpedC1, h.slot i hi]
    rfl
  | _ => exact h.slot i hi _

theorem laneAcc_eq (h : FramesDone s c f a e k m) (hk : k < oscStride) (l : Nat) :
    laneAcc (s.renderJob c f a e) k m s.nlive l = s.laneTotal c f k l := by
  unfold laneAcc State.laneTotal
  rw [show min s.nlive (s.renderJob c f a e).nlive = s.nlive from Nat.min_self _]
  refine List.foldl_ext _ _ _ fun v i hi => ?_
  have hlive : i < s.nlive := List.mem_range.1 (List.mem_of_mem_filter hi)
  exact congrArg (fadd v) (h.slotOutput_eq hk hlive)

variable {st : Memory × List Word}

/-- The sum of the accumulators after a pass over the groups (R126, R127). -/
theorem laneSum_eq_frameSum (h : FramesDone s c f a e k m) (hs : s.Inv) (hk : k < oscStride)
    (hst : LanesDone (s.renderJob c f a e) k m s.nlive st) : laneSum st.2 = s.frameSum c f k := by
  obtain ⟨hw, -⟩ := hs.bounds
  have hlen : st.2.length = s.params.w := hst.len
  rw [laneSum_eq (total := s.laneTotal c f k) (by omega)
    fun l hl => (hst.acc l (hst.len ▸ hl)).trans (h.laneAcc_eq hk l), hlen]
  rfl

/-- The envelope's samples lie in `LMEM`, which no frame writes (R130). -/
theorem shaped_eq (h : FramesDone s c f a e k m) (hs : s.Inv) (he : ∀ t, e = some t → s.storageOk t = true)
    (hst : LanesDone (s.renderJob c f a e) k m s.nlive st) :
    shaped (s.renderJob c f a e) k st.1 (s.frameSum c f k) = s.frameOutput c f e k := by
  cases e with
  | none => rfl
  | some t =>
    obtain ⟨-, hfit⟩ := hs.storage_bounds (he t rfl)
    have hsample (hin : s.sidx.toNat + k < (s.lut t).len.toNat) :
        st.1.sample (s.lut t) (s.sidx.toNat + k) = s.mem.lmem ((s.lut t).base.toNat + s.sidx.toNat + k) := by
      rw [Nat.add_assoc]
      have hlt : lmemBase + ((s.lut t).base.toNat + (s.sidx.toNat + k)) < obufBase := by
        unfold lmemBase obufBase
        omega
      exact (hst.read_eq (Nat.lt_trans hlt (by decide))).trans (h.read_eq_of_lt hlt)
    exact ite_congr rfl (fun hin => congrArg (fmul _) (hsample hin)) fun _ => rfl

/-- One frame more (R127). -/
theorem step (h : FramesDone s c f a e k m) (hs : s.Inv) (he : ∀ t, e = some t → s.storageOk t = true)
    (hk : k < oscStride) : FramesDone s c f a e (k + 1) (renderFrame (s.renderJob c f a e) m k) := by
  obtain ⟨hw, -⟩ := hs.bounds
  have hst := renderGroups_spec (j := s.renderJob c f a e) (h.wrote.wf hs.canonical) hw hs.nlive_le hk
  unfold renderFrame
  simp only [h.laneSum_eq_frameSum hs hk hst, h.shaped_eq hs he hst]
  refine ⟨((h.wrote.mono ?_).trans (hst.wrote.mono ?_)).trans
    (Memory.wrote_output _ _ _ _ (.inr ⟨k, Nat.lt_succ_self k, rfl⟩)), fun i hi g => ?_, fun k' hk' => ?_⟩
  · exact fun b hb => hb.imp_right fun ⟨k', hk', hb'⟩ => ⟨k', Nat.lt_succ_of_lt hk', hb'⟩
  · rintro b ⟨g, hg, i, hi, rfl⟩
    exact .inl ⟨g, hg, i, Nat.lt_of_lt_of_le hi (Nat.min_le_left _ _), rfl⟩
  · rw [osc_output _ _ _ _ _ _ hk, hst.slot i (Nat.lt_min.2 ⟨hi, hi⟩), h.frameWord_eq hk hi]
  · have hbelow {b : Nat} (hb : b < oscStride) : (renderGroups (s.renderJob c f a e) k m).1.obuf b = m.obuf b :=
      hst.read_eq (by unfold obufBase oscBase; unfold oscStride at hb; omega)
    rw [obuf_output hst.wf, hbelow hk, hbelow (by omega), h.obuf_eq hk]
    split
    · subst k'
      rfl
    · exact h.output k' (by omega)

end FramesDone

/-- All the frames of a `RENDER` (R127). -/
theorem State.Inv.framesDone (hs : s.Inv) (c f a : Bool) (he : ∀ t, e = some t → s.storageOk t = true) {n : Nat}
    (hn : n ≤ s.params.maxFrames) : FramesDone s c f a e n (s.renderFrames c f a (e.map s.lut) n).mem := by
  obtain ⟨-, -, -, hframes⟩ := hs.bounds
  rw [State.renderFrames_eq]
  exact Memory.forEach_induct (FramesDone s c f a e) framesDone_zero
    fun k m hk h => h.step hs he (by omega)

theorem State.Inv.rendered (hs : s.Inv) (c f a : Bool) (he : ∀ t, e = some t → s.storageOk t = true) {n : Nat}
    (hn : n ≤ s.params.maxFrames) : s.Rendered (s.renderFrames c f a (e.map s.lut) n) c f a e n := by
  have h := hs.framesDone c f a he hn
  exact ⟨fun i hi => ⟨h.slot i hi .c1, h.slot i hi .y1, h.slot i hi .y2⟩, h.output, rfl, h.wrote.sameOutside⟩

/-- Without an envelope there is no table to check. -/
theorem State.storageOk_of_none (s : State) (t : Nat) (h : none = some t) : s.storageOk t = true := nomatch h

/-- The frame count is within its range, so `RENDER` renders (R127, R199). -/
theorem exec_render (c f a : Bool) {n : Nat} (h1 : 1 ≤ n) (hn : n ≤ s.params.maxFrames) :
    exec (.render c f a n) s = .next (s.renderFrames c f a none n) :=
  (if_neg (Nat.one_le_iff_ne_zero.1 h1)).trans (if_neg (Nat.not_lt_of_le hn))

theorem exec_renderEnv (c f a : Bool) {t n : Nat} (h1 : 1 ≤ n) (hn : n ≤ s.params.maxFrames)
    (ht : s.storageOk t = true) :
    exec (.renderEnv c f a t n) s = .next (s.renderFrames c f a (some (s.lut t)) n) :=
  (if_neg (Nat.one_le_iff_ne_zero.1 h1)).trans ((if_neg (Nat.not_lt_of_le hn)).trans (if_neg (by simp [ht])))

end Render

/-! ## The statements about RENDER -/

/-- Settles O18, frame by frame. -/
theorem renderRunsEverySlotOnItsOwnCourse : Obligations.RenderRunsEverySlotOnItsOwnCourse :=
  fun s c f a _ hs h1 hn => ⟨_, exec_render c f a h1 hn, hs.rendered c f a s.storageOk_of_none hn⟩

/-- Settles O19: the same frames, each shaped by a table that lies in `LMEM`. -/
theorem renderWithEnvelopeShapesTheSum : Obligations.RenderWithEnvelopeShapesTheSum :=
  fun _ c f a t _ hs h1 hn ht =>
    ⟨_, exec_renderEnv c f a h1 hn ht, hs.rendered c f a (e := some t) (fun _ h => Option.some.inj h ▸ ht) hn⟩

/-- Without a live slot every lane total is `+0.0`, and so is their sum (R128 case (a)). -/
theorem State.frameSum_of_empty {s : State} (h : s.nlive = 0) (c f : Bool) (k : Nat) : s.frameSum c f k = 0 := by
  have hlane (l : Nat) : s.laneTotal c f k l = 0 := by simp [State.laneTotal, h]
  have hzero : fadd 0 0 = 0 := by decide
  simp only [State.frameSum, hlane]
  exact List.foldlRecOn (motive := (· = 0)) _ _ rfl fun v hv _ _ => by rw [hv, hzero]

/-- Settles O20: the frames' sums of an empty bank, and a frame without slot words. -/
theorem emptyBankRendersZero : Obligations.EmptyBankRendersZero := by
  intro s c f a n hs hempty h1 hn
  obtain ⟨t, ht, -, hout, hstate, hsame⟩ := renderRunsEverySlotOnItsOwnCourse s c f a n hs h1 hn
  refine ⟨t, ht, ?_, fun k hk => ?_, hsame.1, fun b hb => hsame.2 b ?_⟩
  · rw [hstate]
  · rw [hout k hk, State.frameOutput, State.frameSum_of_empty hempty]
  · rintro (⟨g, -, i, hi, -⟩ | hb')
    · omega
    · exact hb hb'

/-! ## Rendering in two parts (R94, R127) -/

/-- Without forcing a course goes on where a first `RENDER` has left the slot. -/
theorem FramesDone.course_add {s t : State} {c a : Bool} {e : Option Nat} {n i : Nat}
    (h : FramesDone s c false a e n t.mem) (hi : i < s.nlive) (m : Nat) :
    t.course c false i m = s.course c false i (n + m) := by
  induction m with
  | zero => simp only [State.course, h.slot i hi, Memory.oscAt, Nat.add_zero]
  | succ m ih =>
    rw [← Nat.add_assoc]
    simp [State.course, ih, State.outputFrom, h.slot i hi, Memory.oscAt]

theorem satAdd32_satAdd32 (v : Word) (n m : Nat) : satAdd32 (satAdd32 v n) m = satAdd32 v (n + m) := by
  apply BitVec.eq_of_toNat_eq
  simp only [satAdd32_toNat]
  omega

/-- Settles O21: the second part takes every slot along the rest of its course. -/
theorem splitRenderReachesTheSameBank : Obligations.SplitRenderReachesTheSameBank := by
  intro s c n m hs hn hm hnm
  have hns : n ≤ s.params.maxFrames := by omega
  have hms : m ≤ s.params.maxFrames := by omega
  have hs1 := hs.keepsPool (State.keepsPool_renderFrames c false false none hns)
  have hfirst := hs.framesDone c false false s.storageOk_of_none hns
  have hsecond := hs1.framesDone c false false (State.storageOk_of_none _) hms
  have hwhole := hs.framesDone c false false s.storageOk_of_none hnm
  refine ⟨_, _, _, exec_render c false false hn hns, exec_render c false false hm hms,
    exec_render c false false (by omega) hnm, List.map_congr_left fun i hi => List.map_congr_left fun g _ => ?_,
    satAdd32_satAdd32 s.sidx n m⟩
  have hlive : i < s.nlive := List.mem_range.1 hi
  refine (hsecond.slot i hlive g).trans (.trans ?_ (hwhole.slot i hlive g).symm)
  rw [hfirst.course_add (t := s.renderFrames c false false none n) hlive]
  cases g with
  | c1 | y1 | y2 => rfl
  | _ => exact hfirst.slot i hlive _

end Sys2Proof.Machine
end

section
/-! Proofs for spec/42_voice_pool.md: the capacity (R146), the append (R147), and the two compactions (R149, R151). -/

namespace Sys2Proof.Machine

open Sys2Proof

/-! ## GROW and ALLOC (R146, R147) -/

/-- Settles O25: without growth the capacity is already a multiple of the lane width. -/
theorem growRaisesCapacityToTheCap : Obligations.GrowRaisesCapacityToTheCap := by
  intro s n hs
  obtain ⟨hle, -, -⟩ := hs.grownCap_spec n
  refine ⟨rfl, hle, fun hn => ?_⟩
  subst hn
  obtain ⟨-, -, hcap, -, -, hmod, -⟩ := hs.sized
  have hround : roundUp s.params.w (s.cap + 0) = s.cap :=
    Nat.le_antisymm (roundUp_le hs.bounds.1 (Nat.le_refl _) hmod) (roundUp_spec hs.bounds.1 _).1
  rw [hround, Nat.min_eq_left hcap]

/-- The capacity after `ALLOC`: grown once where the rounded count does not fit (R147). -/
def State.allocCap (s : State) : Nat :=
  if roundUp s.params.w (s.nlive + 1) ≤ s.cap then s.cap else s.grownCap s.growStep.toNat

/-- `ALLOC` in one choice: with the capacity it ends with, there is room or there is not (R147). -/
theorem exec_alloc (s : State) :
    exec .alloc s = .next (if roundUp s.params.w (s.nlive + 1) ≤ s.allocCap
      then (s.setCap s.allocCap).appendStaged else (s.setCap s.allocCap).setCapped) := by
  show execAlloc s = _
  simp only [execAlloc, State.allocCap, State.setCap_cap]
  by_cases hfits : roundUp s.params.w (s.nlive + 1) ≤ s.cap
  · simp only [if_pos hfits]
    rfl
  · simp only [if_neg hfits]
    exact (apply_ite Host.Outcome.next _ _ _).symm

theorem State.Inv.allocCap_le {s : State} (hs : s.Inv) : s.allocCap ≤ s.capMax := by
  obtain ⟨-, -, hcap, -⟩ := hs.sized
  obtain ⟨-, hgrown, -⟩ := hs.grownCap_spec s.growStep.toNat
  unfold State.allocCap
  split
  · exact hcap
  · exact hgrown

/-- Settles O26: the two ends of `ALLOC`, and what the append does to memory. -/
theorem allocAppendsOrSetsCapped : Obligations.AllocAppendsOrSetsCapped := by
  intro s hs need cap'
  refine ⟨_, exec_alloc s, fun hfits => ?_, fun hfull => ?_⟩
  · have hcap : need ≤ s.allocCap := hfits
    rw [if_pos hcap]
    have hnlive : s.nlive < oscStride := by
      have hneed : s.nlive + 1 ≤ need := (roundUp_spec hs.bounds.1 _).1
      have hmax := hs.allocCap_le
      obtain ⟨-, -, -, hmo, -⟩ := hs.sized
      obtain ⟨-, -, hosc, -⟩ := hs.bounds
      omega
    obtain ⟨hwrote, hosc⟩ := State.appendStaged_mem (s := s.setCap s.allocCap) hs.canonical hnlive
    exact ⟨rfl, hosc, hwrote.sameOutside⟩
  · have hcap : ¬ need ≤ s.allocCap := hfull
    rw [if_neg hcap]
    rfl

/-- Settles O27: a step of at least one slot brings the rounded capacity up to the rounded count. -/
theorem oneGrowthStepSufficesForAlloc : Obligations.OneGrowthStepSufficesForAlloc := by
  intro s hs hstep hmax
  have hfits : roundUp s.params.w (s.nlive + 1) ≤ s.allocCap := by
    obtain ⟨hactive, hcap, -⟩ := hs.sized
    unfold State.allocCap
    split
    · assumption
    · exact Nat.le_min.2 ⟨roundUp_mono (by omega), hmax⟩
  refine ⟨_, exec_alloc s, ?_⟩
  rw [if_pos hfits]
  exact ⟨State.appendStaged_nlive _, State.appendStaged_sticky _⟩

/-! ## SHRM (R149) -/

/-- Settles O28: the scan finds the highest loud slot, and the loop clears those above it. -/
theorem shrmTrimsExactlyTheQuietTail : Obligations.ShrmTrimsExactlyTheQuietTail := by
  intro s hs
  obtain ⟨hle, hloud, hquiet⟩ := Memory.loudCount_spec s.mem s.thr s.nlive
  obtain ⟨hwrote, hzero⟩ :=
    Memory.clearFrom_spec (kept := s.mem.loudCount s.thr s.nlive) hs.canonical hs.nlive_le
  exact ⟨_, rfl, rfl, hle, hloud, fun i hi hi' => ⟨hquiet i hi hi', hzero i hi hi'⟩, hwrote.sameOutside⟩

/-! ## SHRD (R151) -/

theorem Memory.slot_eq_iff {m m' : Memory} {i j : Nat} :
    m'.slot j = m.slot i ↔ ∀ f : Field, m'.osc f j = m.osc f i :=
  List.map_inj_left.trans ⟨fun h f => h f f.mem_all, fun h f _ => h f⟩

/-- The test of `SHRD` reads only the slot. -/
theorem Memory.alive_eq_of_slot {m m' : Memory} {i j : Nat} (h : m'.slot j = m.slot i) : m'.alive j = m.alive i := by
  unfold Memory.alive
  rw [Memory.slot_eq_iff.1 h .dur]

/-- A word of another slot than those written is as before. -/
theorem Memory.Wrote.slot_eq {S : Nat → Prop} {m m' : Memory} (h : Memory.Wrote S m m') {j : Nat}
    (hj : ∀ f : Field, ¬ S (oscAddr f j)) : m'.slot j = m.slot j :=
  slot_eq_iff.2 fun f => h.read_eq (hj f)

/-- Writes to one slot leave every other as it was. -/
theorem Memory.slot_of_wrote_slot {m m' : Memory} {i j : Nat} (h : Memory.Wrote (fun a => ∃ f, a = oscAddr f i) m m')
    (hi : i < oscStride) (hj : j < oscStride) (hne : j ≠ i) : m'.slot j = m.slot j :=
  h.slot_eq fun _ ⟨_, he⟩ => hne (oscAddr_inj hj hi he).2

/-- One move of `SHRD`: the last live slot takes the place of the dead slot `i`, and is cleared (R151). -/
def Memory.moveLast (m : Memory) (last i : Nat) : Memory :=
  (if i ≠ last then m.copySlot last i else m).clearSlot last

theorem Memory.dropDead_of_alive {m : Memory} {i : Nat} (rest : Nat) (h : m.alive i = true) :
    Memory.dropDead (rest + 1) i m = Memory.dropDead rest (i + 1) m := by
  rw [Memory.dropDead, if_pos h]

theorem Memory.dropDead_of_dead {m : Memory} {i : Nat} (rest : Nat) (h : m.alive i = false) :
    Memory.dropDead (rest + 1) i m = Memory.dropDead rest i (m.moveLast (i + rest) i) := by
  rw [Memory.dropDead, if_neg (by simp [h])]
  rfl

/-- The loop passes a slot that lives on. -/
theorem Memory.lt_dropDead_of_alive {m : Memory} (hm : m.wf) {rest i : Nat} (hle : i + rest ≤ oscStride)
    (hrest : 0 < rest) (h : m.alive i = true) : i < (Memory.dropDead rest i m).1 := by
  obtain ⟨k, rfl⟩ := Nat.exists_eq_add_one_of_ne_zero (Nat.ne_of_gt hrest)
  rw [Memory.dropDead_of_alive k h]
  exact (Memory.dropDead_spec k (i + 1) m hm (by omega)).1

theorem Memory.dropDead_slot_of_lt (rest : Nat) {i j : Nat} (m : Memory) (hj : j < i) (hi : i ≤ oscStride)
    (hle : i + rest ≤ oscStride) : (Memory.dropDead rest i m).2.slot j = m.slot j :=
  (wrote_dropDead rest i m).slot_eq fun f ⟨_, k, hk, hk', he⟩ => by
    obtain ⟨-, rfl⟩ := oscAddr_inj (by omega) (by omega) he
    omega

theorem Memory.moveLast_wf {m : Memory} (hm : m.wf) (last i : Nat) : (m.moveLast last i).wf := by
  refine (Memory.wrote_clearSlot (S := fun _ => True) _ last fun _ => trivial).wf ?_
  split
  · exact (Memory.wrote_copySlot (S := fun _ => True) m last i fun _ => trivial).wf hm
  · exact hm

/-- The dead slots from `i` up to `n`: the holes below the new count. -/
def Memory.holes (m : Memory) (i n : Nat) : List Nat := (List.range' i (n - i)).filter fun j => !m.alive j

/-- The living ones of the `rest` slots from `i` on that stand at or above `n`: those that move. -/
def Memory.movers (m : Memory) (n i rest : Nat) : List Nat :=
  (List.range' i rest).filter fun j => decide (n ≤ j) && m.alive j

theorem Memory.holes_cons (m : Memory) {i n : Nat} (h : i < n) :
    m.holes i n = if m.alive i then m.holes (i + 1) n else i :: m.holes (i + 1) n := by
  obtain ⟨k, hk⟩ : ∃ k, n - i = k + 1 := ⟨n - i - 1, by omega⟩
  have hk' : n - (i + 1) = k := by omega
  unfold Memory.holes
  rw [hk, hk', List.range'_succ]
  cases hi : m.alive i <;> simp [hi]

theorem Memory.holes_congr {m m' : Memory} {i n : Nat} (h : ∀ j, i ≤ j → j < n → m'.alive j = m.alive j) :
    m'.holes i n = m.holes i n :=
  List.filter_congr fun j hj => by
    obtain ⟨hij, hjn⟩ := List.mem_range'_1.1 hj
    rw [h j hij (by omega)]

theorem Memory.movers_cons (m : Memory) {n i : Nat} (rest : Nat) (h : i < n) :
    m.movers n i (rest + 1) = m.movers n (i + 1) rest := by
  have : ¬ n ≤ i := by omega
  simp [Memory.movers, List.range'_succ, this]

theorem Memory.movers_append (m : Memory) {n i rest : Nat} (h : n ≤ i + rest) :
    m.movers n i (rest + 1) = m.movers n i rest ++ if m.alive (i + rest) then [i + rest] else [] := by
  cases hl : m.alive (i + rest) <;> simp [Memory.movers, List.range'_concat, h, hl]

/-- What the loop of `SHRD` makes of the `rest` slots from `i` on (R151, R152): the living below the new count stay,
and the holes among them, ascending, take the living from above it, descending. -/
structure Memory.Compacted (m : Memory) (i rest : Nat) (r : Nat × Memory) : Prop where
  stays : ∀ j, i ≤ j → j < r.1 → m.alive j = true → r.2.slot j = m.slot j
  filled : (m.holes i r.1).map r.2.slot = (m.movers r.1 i rest).reverse.map m.slot

/-- `m'` is `m` after the dead slot `i` got what the last slot `i + rest` held, as far as the slots below that one
go. -/
structure Memory.Moved (m m' : Memory) (i rest : Nat) : Prop where
  dead : m.alive i = false
  slot_self : 0 < rest → m'.slot i = m.slot (i + rest)
  slot_other : ∀ j, j < i + rest → j ≠ i → m'.slot j = m.slot j

theorem Memory.moved_moveLast {m : Memory} (hm : m.wf) {i rest : Nat} (hlast : i + rest < oscStride)
    (hdead : m.alive i = false) : m.Moved (m.moveLast (i + rest) i) i rest := by
  have hclear (m' : Memory) {j : Nat} (hj : j < i + rest) : (m'.clearSlot (i + rest)).slot j = m'.slot j :=
    slot_of_wrote_slot (wrote_clearSlot m' _ fun f => ⟨f, rfl⟩) hlast (by omega) (by omega)
  refine ⟨hdead, fun hrest => ?_, fun j hj hne => ?_⟩
  · obtain ⟨-, -, -, hcopy⟩ := copySlot_spec hm hlast (i := i) (by omega) (by omega)
    rw [moveLast, hclear _ (by omega), if_pos (by omega)]
    exact slot_eq_iff.2 hcopy
  · rw [moveLast, hclear _ hj]
    split
    · exact slot_of_wrote_slot (wrote_copySlot m _ i fun f => ⟨f, rfl⟩) (by omega) (by omega) hne
    · rfl

namespace Memory.Moved

variable {m m' : Memory} {i rest n : Nat}

theorem alive_other (h : m.Moved m' i rest) {j : Nat} (hj : j < i + rest) (hne : j ≠ i) : m'.alive j = m.alive j :=
  alive_eq_of_slot (h.slot_other j hj hne)

theorem ne_of_alive (h : m.Moved m' i rest) {j : Nat} (hj : m.alive j = true) : j ≠ i := by
  rintro rfl
  exact Bool.false_ne_true (h.dead.symm.trans hj)

/-- Those that move from below the last slot are the same, and they have not moved yet. -/
theorem movers_map (h : m.Moved m' i rest) (hpass : m'.alive i = true → 0 < rest → i < n) :
    (m'.movers n i rest).reverse.map m'.slot = (m.movers n i rest).reverse.map m.slot := by
  have hlist : m'.movers n i rest = m.movers n i rest := List.filter_congr fun j hj => by
    obtain ⟨hij, hjl⟩ := List.mem_range'_1.1 hj
    by_cases hji : j = i
    · subst hji
      rw [h.dead, Bool.and_false, Bool.and_eq_false_imp]
      intro hnj
      have hnot := mt (hpass · (by omega)) (Nat.not_lt.2 (of_decide_eq_true hnj))
      exact Bool.eq_false_iff.2 hnot
    · rw [h.alive_other hjl hji]
  rw [hlist]
  refine List.map_congr_left fun j hj => ?_
  obtain ⟨hrange, hkeep⟩ := List.mem_filter.1 (List.mem_reverse.1 hj)
  exact h.slot_other j (List.mem_range'_1.1 hrange).2 (h.ne_of_alive (Bool.and_eq_true_iff.1 hkeep).2)

/-- If the last slot is dead too, the move changes no hole. -/
theorem holes_of_dead (h : m.Moved m' i rest) (hn : n ≤ i + rest) (hlast : m.alive (i + rest) = false) :
    m'.holes i n = m.holes i n :=
  Memory.holes_congr fun j hij hjn => by
    by_cases hji : j = i
    · subst hji
      rw [alive_eq_of_slot (h.slot_self (by omega)), hlast, h.dead]
    · exact h.alive_other (by omega) hji

/-- If the last slot lives on, the hole at `i` is filled and the others are as before. -/
theorem holes_of_alive (h : m.Moved m' i rest) (hn : n ≤ i + rest) (hin : i < n) (halive : m'.alive i = true) :
    m.holes i n = i :: m'.holes i n := by
  rw [m.holes_cons hin, h.dead, m'.holes_cons hin, if_pos halive, if_neg Bool.false_ne_true]
  rw [Memory.holes_congr fun j hij hjn => h.alive_other (by omega) (by omega)]

end Memory.Moved

namespace Memory.Compacted

variable {m m' : Memory} {i rest : Nat} {r : Nat × Memory}

/-- A slot that lives on is passed. -/
theorem pass (h : m.Compacted (i + 1) rest r) (halive : m.alive i = true) (hr : i < r.1)
    (hslot : r.2.slot i = m.slot i) : m.Compacted i (rest + 1) r where
  stays j hij hjr hj := by
    rcases Nat.eq_or_lt_of_le hij with rfl | hlt
    · exact hslot
    · exact h.stays j hlt hjr hj
  filled := by
    rw [m.holes_cons hr, if_pos halive, m.movers_cons rest hr]
    exact h.filled

/-- A dead slot is replaced by the last one: a living last one fills the first hole, ahead of those below it. -/
theorem move (h : m'.Compacted i rest r) (hmove : m.Moved m' i rest) (hr : r.1 ≤ i + rest)
    (hpass : m'.alive i = true → 0 < rest → i < r.1) : m.Compacted i (rest + 1) r where
  stays j hij hjr hj := by
    have hne := hmove.ne_of_alive hj
    rw [h.stays j hij hjr ((hmove.alive_other (by omega) hne).trans hj), hmove.slot_other j (by omega) hne]
  filled := by
    rw [m.movers_append hr, List.reverse_append, List.map_append, ← hmove.movers_map hpass, ← h.filled]
    cases hlast : m.alive (i + rest) with
    | false =>
      rw [hmove.holes_of_dead hr hlast]
      rfl
    | true =>
      have hrest : 0 < rest := Nat.pos_of_ne_zero fun h0 => hmove.ne_of_alive hlast (by omega)
      have hself := hmove.slot_self hrest
      have halive : m'.alive i = true := (alive_eq_of_slot hself).trans hlast
      have hin := hpass halive hrest
      have hfirst : r.2.slot i = m.slot (i + rest) := (h.stays i (Nat.le_refl i) hin halive).trans hself
      rw [hmove.holes_of_alive hr hin halive, List.map_cons, hfirst]
      rfl

end Memory.Compacted

/-- The loop of `SHRD` compacts the slots it visits, whatever the memory (R151). -/
theorem Memory.dropDead_compacted : ∀ (rest i : Nat) (m : Memory), m.wf → i + rest ≤ oscStride →
    m.Compacted i rest (Memory.dropDead rest i m)
  | 0, i, m, _, _ =>
    { stays := fun j hij hji _ => absurd hji (Nat.not_lt.2 hij)
      filled := by simp [Memory.dropDead, Memory.holes, Memory.movers] }
  | rest + 1, i, m, hm, hle => by
    cases hi : m.alive i with
    | true =>
      rw [dropDead_of_alive rest hi]
      exact (dropDead_compacted rest (i + 1) m hm (by omega)).pass hi
        (dropDead_spec rest (i + 1) m hm (by omega)).1
        (dropDead_slot_of_lt rest m (Nat.lt_succ_self i) (by omega) (by omega))
    | false =>
      rw [dropDead_of_dead rest hi]
      have hm' := moveLast_wf hm (i + rest) i
      exact (dropDead_compacted rest i _ hm' (by omega)).move (moved_moveLast hm (by omega) hi)
        (dropDead_le rest i _) fun halive hrest => lt_dropDead_of_alive hm' (by omega) hrest halive

/-- The living slots are those below a count and those at or above it. -/
theorem Memory.filter_alive_eq {m : Memory} {n k : Nat} (h : k ≤ n) :
    (List.range n).filter m.alive = (List.range k).filter m.alive ++ m.movers k 0 n := by
  have hsplit : List.range' 0 n = List.range' 0 k ++ List.range' k (n - k) := by
    have happend := List.range'_append_1 (s := 0) (m := k) (n := n - k)
    rw [Nat.zero_add, Nat.add_sub_cancel' h] at happend
    exact happend.symm
  have hlow : (List.range' 0 k).filter (fun j => decide (k ≤ j) && m.alive j) = [] :=
    List.filter_eq_nil_iff.2 fun j hj => by
      have := (List.mem_range'_1.1 hj).2
      simp [show ¬ k ≤ j by omega]
  have hhigh : (List.range' k (n - k)).filter (fun j => decide (k ≤ j) && m.alive j) =
      (List.range' k (n - k)).filter m.alive :=
    List.filter_congr fun j hj => by simp [(List.mem_range'_1.1 hj).1]
  rw [List.range_eq_range', List.range_eq_range', Memory.movers, hsplit, List.filter_append, List.filter_append, hlow,
    hhigh, List.nil_append]

/-- From index 0 on the stayers and the filled holes together are the living slots (R152 (a)). -/
theorem Memory.Compacted.perm {m : Memory} {n : Nat} {r : Nat × Memory} (h : m.Compacted 0 n r) (hr : r.1 ≤ n) :
    ((List.range r.1).map r.2.slot).Perm (((List.range n).filter m.alive).map m.slot) := by
  have hstays : ((List.range r.1).filter m.alive).map r.2.slot = ((List.range r.1).filter m.alive).map m.slot :=
    List.map_congr_left fun j hj => by
      obtain ⟨hjr, hj⟩ := List.mem_filter.1 hj
      exact h.stays j (Nat.zero_le j) (List.mem_range.1 hjr) hj
  have hholes : m.holes 0 r.1 = (List.range r.1).filter fun j => !m.alive j := by
    rw [Memory.holes, Nat.sub_zero, List.range_eq_range']
  calc
    List.Perm ((List.range r.1).map r.2.slot)
        (((List.range r.1).filter m.alive ++ (List.range r.1).filter fun j => !m.alive j).map r.2.slot) :=
      (List.filter_append_perm m.alive _).symm.map _
    _ = ((List.range r.1).filter m.alive).map m.slot ++ (m.movers r.1 0 n).reverse.map m.slot := by
      rw [List.map_append, hstays, ← hholes, h.filled]
    List.Perm _ (((List.range r.1).filter m.alive).map m.slot ++ (m.movers r.1 0 n).map m.slot) :=
      ((List.reverse_perm _).map _).append_left _
    _ = ((List.range n).filter m.alive).map m.slot := by
      rw [Memory.filter_alive_eq hr, List.map_append]

/-- Settles O29: the loop compacts the live slots, and the slots above the new count are left empty. -/
theorem shrdKeepsExactlyTheLiving : Obligations.ShrdKeepsExactlyTheLiving := by
  intro s hs
  have hle : 0 + s.nlive ≤ oscStride := (Nat.zero_add _).symm ▸ hs.nlive_le
  have hcompact := Memory.dropDead_compacted s.nlive 0 s.mem hs.canonical hle
  obtain ⟨-, hcount, hzero⟩ := Memory.dropDead_spec s.nlive 0 s.mem hs.canonical hle
  rw [Nat.zero_add] at hcount hzero
  refine ⟨_, rfl, rfl, hcompact.perm hcount, fun i => hcompact.stays i (Nat.zero_le i), ?_,
    fun f i hi hi' => hzero i hi hi' f, ((wrote_dropDead s.nlive 0 s.mem).mono ?_).sameOutside⟩
  · have hfilled := hcompact.filled
    rw [Memory.holes, Memory.movers, Nat.sub_zero, ← List.range_eq_range', ← List.range_eq_range'] at hfilled
    exact hfilled
  · rintro a ⟨f, j, -, hj, rfl⟩
    exact ⟨f, f.mem_all, j, by omega, rfl⟩

end Sys2Proof.Machine
end

section
/-! Proofs for spec/43_lut.md: the position of an abscissa (R166, R167), the clamped lookups `LNEAR` and `LLIN` (R167,
R168, R171), the cyclic sampling of `LCYC` (R169) and the test of the domain `LCHK` (R170). -/

namespace Sys2Proof.Machine

open Sys2Proof

/-! ## The position of an abscissa (R166) -/

/-- Settles O37: a finite subtrahend and a finite divisor greater than zero make no operation invalid. -/
theorem positionIsNaNOnlyForNaN : Obligations.PositionIsNaNOnlyForNaN := by
  intro s t x hcurve
  obtain ⟨hmin, hdx, hpos⟩ := (s.axisOk_iff t).1 ((s.curveOk_iff t).1 hcurve).2
  have hnonzero : isZero (s.lut t).dx = false := by
    rw [isZero, hdx, Bool.true_and, beq_eq_false_iff_ne, ← fVal_natAbs, Int.natAbs_ne_zero]
    omega
  obtain ⟨-, hsub, -⟩ := nanArisesExactlyFromInvalidOperations x (s.lut t).minX
  obtain ⟨-, -, -, hdiv, -⟩ := nanArisesExactlyFromInvalidOperations (fsub x (s.lut t).minX) (s.lut t).dx
  rw [isNaN_of_isFinite hmin, isInf_of_isFinite hmin] at hsub
  rw [isNaN_of_isFinite hdx, isInf_of_isFinite hdx, hnonzero] at hdiv
  rw [Bool.eq_iff_iff, ← hdiv, ← hsub]
  simp only [Bool.false_eq_true, false_and, and_false, or_false]

/-! ## The fraction of a position (R167) -/

/-- Where the spacing of the binade of `n` divides `n`, rounding changes nothing (R106). -/
theorem fMag_roundMag_of_dvd {n : Nat} (hn : n < (2 ^ 25 - 1) * 2 ^ 252) (h : 2 ^ roundExp n 1 ∣ n) :
    fMag (fPack false (roundMag n 1)) = n := by
  obtain ⟨q, hq⟩ := h
  have hnear := (roundEven_nearest n q (Nat.mul_pos Nat.one_pos (Nat.two_pow_pos (roundExp n 1)))).1
  rw [← roundSig, Nat.one_mul, Nat.mul_comm q, ← hq, Nat.dist_self, Nat.le_zero] at hnear
  rw [(fMag_roundMag false Nat.one_pos (by rwa [Nat.mul_one])).1]
  exact Nat.eq_of_dist_eq_zero hnear

/-- The part of a magnitude below the binary point is the value of a word: its binade is no higher than that of the
whole, so its spacing divides the whole and the integral part. -/
theorem exists_word_of_fraction (p : Word) : ∃ c, isFinite c = true ∧ fVal c = (fMag p % 2 ^ 149 : Nat) := by
  have hle : fMag p % 2 ^ 149 ≤ fMag p := Nat.mod_le _ _
  have hlt : fMag p % 2 ^ 149 < 2 ^ 149 := Nat.mod_lt _ (by decide)
  have hdvd : 2 ^ roundExp (fMag p % 2 ^ 149) 1 ∣ fMag p % 2 ^ 149 := by
    obtain ⟨-, hbinade⟩ := roundExp_binade (fMag p % 2 ^ 149) Nat.one_pos
    rw [Nat.one_mul] at hbinade
    rcases fMag_multiple_or_lt p (roundExp (fMag p % 2 ^ 149) 1) with hdvd | ⟨hne, hbelow⟩
    · refine (Nat.dvd_mod_iff (Nat.pow_dvd_pow 2 (Nat.le_of_not_lt fun hexp => ?_))).2 hdvd
      have hlarge : 2 ^ 149 < 2 ^ roundExp (fMag p % 2 ^ 149) 1 := Nat.pow_lt_pow_right (by decide) hexp
      omega
    · omega
  generalize fMag p % 2 ^ 149 = n at hlt hdvd
  have hlow := roundMag_lt n 1
  have hmax : n < (2 ^ 25 - 1) * 2 ^ 252 := by omega
  exact ⟨_, (isFinite_fPack_iff false hlow).2 (roundMag_lt_infLow Nat.one_pos (by rwa [Nat.mul_one])),
    (fVal_fPack false hlow).trans (congrArg Nat.cast (fMag_roundMag_of_dvd hmax hdvd))⟩

/-- A difference that is the value of a word is not rounded (R106). -/
theorem fsub_exact {a b c : Word} (ha : isFinite a = true) (hb : isFinite b = true) (hc : isFinite c = true)
    (h : fVal c = fVal a - fVal b) : isFinite (fsub a b) = true ∧ fVal (fsub a b) = fVal a - fVal b := by
  have hround := (faddRoundsTheExactSumOnce.1 a b ha hb).2
  have hmax := fMag_le_of_isFinite hc
  rw [← h] at hround ⊢
  rw [RoundsTo, if_pos (by rw [fVal_natAbs]; omega)] at hround
  obtain ⟨hfin, hnear⟩ := hround
  have hle := (hnear c hc).1
  exact ⟨hfin, by omega⟩

/-- Settles O57: the difference is the part of the magnitude below the binary point, which is a word's value. -/
theorem fractionOfAPositionIsExact : Obligations.FractionOfAPositionIsExact := by
  intro p hp hnonneg
  obtain ⟨hfin, hval⟩ := integerConversionsAreExact.2.1 p hp
  obtain ⟨c, hc, hfrac⟩ := exists_word_of_fraction p
  have hmag := fVal_natAbs p
  have hfloor : floorZ p = fVal p / 2 ^ 149 := rfl
  obtain ⟨hfin', hexact⟩ := fsub_exact hp hfin hc (by rw [hfrac, hval]; omega)
  rw [hval] at hexact
  exact ⟨hfin', hexact, by omega, by omega⟩

/-! ## The check of the table (R198) -/

section Commands

variable {s : State} {t : Nat}

/-- The check that `LNEAR`, `LLIN` and `LCHK` begin with. -/
theorem ite_not_curveOk (s : State) (t : Nat) (failed o : Host.Outcome State Fault Refusal) :
    (s.curveOk t = true → (if !s.curveOk t then failed else o) = o) ∧
      (s.curveOk t = false → (if !s.curveOk t then failed else o) = failed) :=
  ⟨fun h => if_neg (by simp [h]), fun h => if_pos (by simp [h])⟩

theorem exec_lnear (ht : s.curveOk t = true) :
    exec (.lnear t) s = .next (s.setRes (s.mem.lookup (s.lut t) s.xin nearer)) := (ite_not_curveOk s t _ _).1 ht

theorem exec_llin (ht : s.curveOk t = true) :
    exec (.llin t) s = .next (s.setRes (s.mem.lookup (s.lut t) s.xin interpolate)) := (ite_not_curveOk s t _ _).1 ht

theorem exec_lchk (ht : s.curveOk t = true) :
    exec (.lchk t) s =
      .next (s.setRes (if feq s.xin (s.lut t).minX && feq s.xend (s.lut t).maxX then 1 else 0)) :=
  (ite_not_curveOk s t _ _).1 ht

theorem State.one_le_len (ht : s.curveOk t = true) : 1 ≤ (s.lut t).len.toNat :=
  ((s.storageOk_iff t).1 ((s.curveOk_iff t).1 ht).1).2.1

end Commands

/-! ## LNEAR and LLIN (R167, R168) -/

/-- The branches of a lookup in the order of R167. -/
theorem Memory.lookup_eq (m : Memory) (d : Descriptor) (x : Word) (between : Word → Word → Word → Word) :
    m.lookup d x between =
      if fgt (d.pos x) 0 = false then m.sample d 0
      else if fge (d.pos x) (i2f ((d.len.toNat : Int) - 1)) = true then m.sample d (d.len.toNat - 1)
      else between (m.sample d (floorZ (d.pos x)).toNat) (m.sample d ((floorZ (d.pos x)).toNat + 1))
        (fsub (d.pos x) (i2f (floorZ (d.pos x)))) := by
  simp only [Memory.lookup, Bool.not_eq_true']

/-- A lookup gives the first sample, the last one, or what stands between two neighbours inside the table. -/
theorem Memory.lookup_cases (m : Memory) {d : Descriptor} (hlen : 1 ≤ d.len.toNat) (x : Word)
    (between : Word → Word → Word → Word) :
    m.lookup d x between = m.sample d 0 ∨ m.lookup d x between = m.sample d (d.len.toNat - 1) ∨
      ∃ i fr, i + 1 < d.len.toNat ∧ m.lookup d x between = between (m.sample d i) (m.sample d (i + 1)) fr := by
  have hlast : (d.len.toNat : Int) - 1 = ((d.len.toNat - 1 : Nat) : Int) := by omega
  have hfit := d.len.isLt
  rw [Memory.lookup_eq, hlast]
  split_ifs with hfirst hend
  · exact .inl rfl
  · exact .inr (.inl rfl)
  · have hi := floorZ_between (n := d.len.toNat - 1) (by omega) (by simpa using hfirst) (by simpa using hend)
    exact .inr (.inr ⟨_, _, by omega, rfl⟩)

/-- Settles O31: the nearer of two neighbours is one of them. -/
theorem lnearStaysInsideItsTable : Obligations.LnearStaysInsideItsTable := by
  intro s t ht
  have hlen := State.one_le_len ht
  refine ⟨_, exec_lnear ht, ?_⟩
  rcases s.mem.lookup_cases hlen s.xin nearer with hfirst | hlast | ⟨i, fr, hi, hbetween⟩
  · exact ⟨0, hlen, hfirst⟩
  · exact ⟨_, Nat.sub_one_lt_of_le hlen (Nat.le_refl _), hlast⟩
  · unfold nearer at hbetween
    split at hbetween
    · exact ⟨i + 1, hi, hbetween⟩
    · exact ⟨i, Nat.lt_of_succ_lt hi, hbetween⟩

/-- A table of one sample has no two neighbours, and its first sample is its last (R171). -/
theorem Memory.lookup_of_len_one (m : Memory) {d : Descriptor} (hlen : d.len = 1) (x : Word)
    (between : Word → Word → Word → Word) : m.lookup d x between = m.lmem d.base.toNat := by
  have hone : d.len.toNat = 1 := congrArg BitVec.toNat hlen
  rcases m.lookup_cases (Nat.le_of_eq hone.symm) x between with hfirst | hlast | ⟨i, fr, hi, -⟩
  · exact hfirst
  · rwa [hone] at hlast
  · omega

/-- Settles O33 for both lookups. -/
theorem singleSampleTableIsConstant : Obligations.SingleSampleTableIsConstant := by
  intro s t ht hlen
  rw [exec_lnear ht, exec_llin ht, Memory.lookup_of_len_one _ hlen, Memory.lookup_of_len_one _ hlen]
  exact ⟨rfl, rfl⟩

/-- Settles O30: the branches of the lookup, with the nearer neighbour between two samples. -/
theorem lnearCopiesTheNearestSample : Obligations.LnearCopiesTheNearestSample := by
  refine fun s t => ⟨fun ht => ?_, (ite_not_curveOk s t _ _).2⟩
  rw [exec_lnear ht, Memory.lookup_eq]
  rfl

/-- Settles O32: the branches of the lookup, with the interpolation between two samples. -/
theorem llinInterpolatesBetweenNeighbours : Obligations.LlinInterpolatesBetweenNeighbours := by
  refine fun s t => ⟨fun ht => ?_, (ite_not_curveOk s t _ _).2⟩
  rw [exec_llin ht, Memory.lookup_eq]
  rfl

/-! ## LCHK (R170) -/

/-- Settles O36: `LCHK` joins the two comparisons of the domain into one test. -/
theorem lchkTestsTheDomain : Obligations.LchkTestsTheDomain := by
  refine fun s t => ⟨fun ht => ?_, (ite_not_curveOk s t _ _).2⟩
  rw [exec_lchk ht]
  simp only [Bool.and_eq_true]
  rfl

/-! ## LCYC (R169) -/

theorem Descriptor.period_eq (d : Descriptor) (k : Bool) :
    d.period k = if k then d.len.toNat else d.len.toNat - 1 := by
  cases k <;> rfl

theorem Memory.cyclic_eq (m : Memory) (d : Descriptor) (period : Nat) (p : Word) :
    m.cyclic d period p =
      if isFinite p = true then
        interpolate (m.sample d (emod (floorZ p) period)) (m.sample d (emod (floorZ p + 1) period))
          (fsub p (i2f (floorZ p)))
      else m.sample d 0 := by
  cases h : isFinite p <;> simp [Memory.cyclic, h]

/-- A loop whose turn `j` outputs a value at `OBUF[j]`, one that reads no word from `OBUF` on, outputs for every turn
the value that the memory before the loop gives (R131, R169). -/
theorem Memory.forEach_output {m : Memory} (hm : m.wf) (n : Nat) (add : Bool) {value : Memory → Nat → Word}
    (hvalue : ∀ m' : Memory, (∀ b, b < obufBase → m'.read b = m.read b) → ∀ j, value m' j = value m j) :
    Memory.Wrote (OutputWord n) m (forEach n (fun m' j => m'.output add j (value m' j)) m) ∧
      ∀ j, j < n → (forEach n (fun m' j => m'.output add j (value m' j)) m).obuf j =
        if add then fadd (m.obuf j) (value m j) else value m j := by
  refine forEach_induct (fun k m' => Wrote (OutputWord k) m m' ∧
      ∀ j, j < k → m'.obuf j = if add then fadd (m.obuf j) (value m j) else value m j)
    ⟨.refl, fun _ hj => absurd hj (Nat.not_lt_zero _)⟩ ?_
  rintro k m' - ⟨hwrote, hout⟩
  have hbelow (b : Nat) (hb : b < obufBase) : m'.read b = m.read b :=
    hwrote.read_eq fun ⟨i, _, hi⟩ => by omega
  have hnext : m'.obuf k = m.obuf k := hwrote.read_eq fun ⟨i, hi, he⟩ => by omega
  refine ⟨(hwrote.mono ?_).trans (wrote_output add m' k _ ⟨k, Nat.lt_succ_self k, rfl⟩), fun j hj => ?_⟩
  · exact fun b ⟨i, hi, hb⟩ => ⟨i, Nat.lt_succ_of_lt hi, hb⟩
  · rw [obuf_output (hwrote.wf hm), hnext, hvalue m' hbelow]
    split
    · subst j
      rfl
    · exact hout j (by omega)

section Commands

variable {s : State} {t : Nat}

/-- What `LCYC` computes for frame `j` (R169). -/
def State.cyclicSample (s : State) (t : Nat) (k : Bool) (j : Nat) : Word :=
  s.mem.cyclic (s.lut t) ((s.lut t).period k) ((s.lut t).pos (cyclicAbscissa s.xin s.xinc j))

/-- The memory that `LCYC` leaves (R169). -/
def State.cyclicMem (s : State) (t : Nat) (k a : Bool) (n : Nat) : Memory :=
  Memory.forEach n (fun m j => m.output a j ((s.setMem m).cyclicSample t k j)) s.mem

/-- The checks of `LCYC` (R169, R199). -/
theorem exec_lcyc (k a : Bool) {n : Nat} (h1 : 1 ≤ n) (hn : n ≤ s.params.maxFrames) (ht : s.curveOk t = true)
    (hperiod : 1 ≤ (s.lut t).period k) : exec (.lcyc k a t n) s = .next (s.setMem (s.cyclicMem t k a n)) :=
  (if_neg (Nat.one_le_iff_ne_zero.1 h1)).trans
    ((if_neg (Nat.not_lt_of_le hn)).trans (if_neg (by simp [ht, Nat.one_le_iff_ne_zero.1 hperiod])))

/-- Every frame's output is that of the table before the command: `OBUF` lies above `LMEM`, where the samples of a
table stand. -/
theorem State.cyclicMem_spec (hm : s.mem.wf) (hfit : (s.lut t).base.toNat + (s.lut t).len.toNat ≤ 4096) {k : Bool}
    (hperiod : 1 ≤ (s.lut t).period k) (a : Bool) (n : Nat) :
    Memory.Wrote (OutputWord n) s.mem (s.cyclicMem t k a n) ∧
      ∀ j, j < n → (s.cyclicMem t k a n).obuf j =
        if a then fadd (s.mem.obuf j) (s.cyclicSample t k j) else s.cyclicSample t k j := by
  have hle : (s.lut t).period k ≤ (s.lut t).len.toNat := Nat.sub_le _ _
  refine Memory.forEach_output hm n a (value := fun m => (s.setMem m).cyclicSample t k) fun m' hsame j => ?_
  refine Memory.cyclic_congr hperiod (fun i hi => hsame _ ?_) _
  rw [State.lut_setMem]
  unfold lmemBase obufBase
  omega

end Commands

/-- Settles O34: the frames of the loop, each with the branches of the cyclic sampling. -/
theorem lcycFillsTheOutputBuffer : Obligations.LcycFillsTheOutputBuffer := by
  intro s k a t n hs h1 hn ht d period smp p fr i0 i1 v hperiod
  obtain ⟨-, hfit⟩ := hs.storage_bounds ((s.curveOk_iff t).1 ht).1
  have hperiod' : (s.lut t).period k = period := Descriptor.period_eq _ k
  have hsample (j : Nat) : s.cyclicSample t k j = v j := by
    rw [State.cyclicSample, Memory.cyclic_eq, hperiod']
    rfl
  rw [← hperiod'] at hperiod
  obtain ⟨hwrote, hout⟩ := State.cyclicMem_spec hs.canonical hfit hperiod a n
  exact ⟨_, exec_lcyc k a h1 hn ht hperiod, rfl, fun j hj => hsample j ▸ hout j hj, hwrote.sameOutside⟩

/-- Settles O35: without `K` the period ends before the last sample, and no output word stands in `LMEM`. -/
theorem lcycWithoutKNeverReadsTheLastSample : Obligations.LcycWithoutKNeverReadsTheLastSample := by
  intro s a t n v hs h1 hn ht hlen last
  obtain ⟨-, hfit⟩ := hs.storage_bounds ((s.curveOk_iff t).1 ht).1
  have hperiod' : (s.lut t).period false = (s.lut t).len.toNat - 1 := rfl
  have hperiod : 1 ≤ (s.lut t).period false := by omega
  obtain ⟨-, hout⟩ := State.cyclicMem_spec hs.canonical hfit hperiod a n
  obtain ⟨-, hout'⟩ := State.cyclicMem_spec (s := s.setMem (s.mem.write last v)) (t := t)
    (Memory.write_wf hs.canonical last v) hfit hperiod a n
  refine ⟨_, _, exec_lcyc false a h1 hn ht hperiod,
    exec_lcyc (s := s.setMem (s.mem.write last v)) false a h1 hn ht hperiod, fun j hj => ?_⟩
  have hlast : last < obufBase := by
    unfold last lmemBase obufBase
    omega
  have hobuf : (s.mem.write last v).obuf j = s.mem.obuf j := Memory.read_write_other _ _ _ _ (by omega)
  have hsample : (s.setMem (s.mem.write last v)).cyclicSample t false j = s.cyclicSample t false j := by
    refine Memory.cyclic_congr hperiod (fun i hi => Memory.read_write_other _ _ _ _ ?_) _
    rw [State.lut_setMem]
    unfold last
    omega
  rw [State.setMem_mem, State.setMem_mem, hout j hj, hout' j hj, State.setMem_mem, hobuf, hsample]

end Sys2Proof.Machine
end

section
/-! Proofs for spec/44_control.md: what `NOP` and `RESET` do, and all that they leave as it was (R185 to R187). -/

namespace Sys2Proof.Machine

open Sys2Proof

/-- `RESET` sets its two registers after the loop over the slots, and has no other end (R186). -/
theorem exec_reset (s : State) :
    exec .reset s =
      .next (((s.setMem (Memory.forEach s.params.maxOsc Memory.clearSlot s.mem)).setNlive 0).setSidx 0) := rfl

/-- Settles O16: the command's meaning is the state it is given. -/
theorem nopChangesNothing : Obligations.NopChangesNothing := fun _ => rfl

/-- Settles O17: the registers are those of the named updates, and the loop clears every slot and writes nothing
else. -/
theorem resetCommandSilencesTheBank : Obligations.ResetCommandSilencesTheBank := by
  intro s hs
  obtain ⟨-, -, hosc, -⟩ := hs.bounds
  obtain ⟨hwrote, hzero⟩ := Memory.clearAll_spec hs.canonical hosc
  exact ⟨_, exec_reset s, rfl, fun f i hi => hzero i hi f f.mem_all, hwrote.sameOutside⟩

end Sys2Proof.Machine
end

section
/-! Proofs for spec/60_exceptions.md: the error record that `fail(code)` makes (R196, R197), when and in which order the
commands make it (R198, R199), and that no command reads it (R203). -/

namespace Sys2Proof.Machine

open Sys2Proof

/-! ## The error record (R196, R197) -/

/-- The mask of a code is its one bit of `STATUS` (R197). -/
theorem ErrCode.getLsbD_stickyBit (c : ErrCode) {b : Nat} (hb : b < 5) :
    c.stickyBit.getLsbD b = decide (b + 1 = c.number) := by
  cases c with
  | badOp | zeroLen | badLen | badLut =>
    revert b
    decide

/-- The 8 bits of `LASTERR` hold every code (R22, R197). -/
theorem ErrCode.toNat_ofNat_number (c : ErrCode) : (BitVec.ofNat 8 c.number).toNat = c.number := by
  cases c with
  | badOp | zeroLen | badLen | badLut => rfl

/-- Settles O38, field by field. -/
theorem failChangesOnlyTheErrorRecord : Obligations.FailChangesOnlyTheErrorRecord := by
  intro s c w t
  refine ⟨rfl, fun b hb => ?_, c.toNat_ofNat_number, satAdd32_toNat s.errCnt 1⟩
  rw [State.fail_sticky, BitVec.getLsbD_or, c.getLsbD_stickyBit hb]

/-! ## The order of the checks (R198, R199) -/

section Count

variable {n max : Nat} {zeroLen badLen o : Host.Outcome State Fault Refusal}

/-- The checks of the frame count with which `RENDER` and `LCYC` begin, for too many frames. -/
theorem ite_count_of_lt (h0 : n ≠ 0) (h : max < n) :
    (if n = 0 then zeroLen else if max < n then badLen else o) = badLen := (if_neg h0).trans (if_pos h)

/-- A count within its range passes both checks. -/
theorem ite_count_of_le (h0 : n ≠ 0) (h : n ≤ max) :
    (if n = 0 then zeroLen else if max < n then badLen else o) = o :=
  (if_neg h0).trans (if_neg (Nat.not_lt_of_le h))

end Count

/-- A table that `LCYC` refuses: its curve is not valid, or its one sample is the removed one (R169). -/
theorem lcyc_refuses {s : State} {t : Nat} {k : Bool}
    (h : s.curveOk t = false ∨ ((s.lut t).len.toNat = 1 ∧ k = false)) :
    (!s.curveOk t || decide ((s.lut t).period k < 1)) = true := by
  rcases h with hcurve | ⟨hlen, rfl⟩
  · simp [hcurve]
  · simp [Descriptor.period_eq, hlen]

/-- Settles O39: the three commands share the checks of the count, and the table is looked at only after them. -/
theorem countErrorsOutrankTableErrors : Obligations.CountErrorsOutrankTableErrors := by
  intro s c f a t n
  refine ⟨fun h0 => ⟨if_pos h0, if_pos h0, if_pos h0⟩,
    fun h0 hlong => ⟨ite_count_of_lt h0 hlong, ite_count_of_lt h0 hlong, ite_count_of_lt h0 hlong⟩,
    fun h0 hn => ⟨fun hstorage => ?_, fun htable => ?_⟩⟩
  · exact (ite_count_of_le h0 hn).trans (if_pos (by simp [hstorage]))
  · exact (ite_count_of_le h0 hn).trans (if_pos (lcyc_refuses htable))

/-! ## The commands that always succeed (R198, second row) -/

/-- `t` has the error log and the error bits of `s`; `CAPPED`, bit 12 of `STATUS`, is no error bit (R21, R200). -/
def State.KeepsErrors (s t : State) : Prop :=
  t.lastErr = s.lastErr ∧ t.lastCmd = s.lastCmd ∧ t.errCnt = s.errCnt ∧
    ∀ b, b < 4 → t.sticky.getLsbD b = s.sticky.getLsbD b

theorem State.KeepsErrors.of_sticky_eq {s t : State} (herr : t.lastErr = s.lastErr) (hcmd : t.lastCmd = s.lastCmd)
    (hcnt : t.errCnt = s.errCnt) (hsticky : t.sticky = s.sticky) : s.KeepsErrors t :=
  ⟨herr, hcmd, hcnt, fun b _ => congrArg (·.getLsbD b) hsticky⟩

theorem getLsbD_cappedBit {b : Nat} (hb : b < 4) : cappedBit.getLsbD b = false := by
  revert b
  decide

theorem State.keepsErrors_setCapped (s : State) : s.KeepsErrors s.setCapped := by
  refine ⟨rfl, rfl, rfl, fun b hb => ?_⟩
  rw [State.setCapped_sticky, BitVec.getLsbD_or, getLsbD_cappedBit hb, Bool.or_false]

/-- Whether `ALLOC` finds room or not, it is no error (R147, R200). -/
theorem exec_alloc_keepsErrors (s : State) : ∃ t, exec .alloc s = .next t ∧ s.KeepsErrors t := by
  refine ⟨_, exec_alloc s, ?_⟩
  split
  · exact .of_sticky_eq rfl rfl rfl rfl
  · exact (s.setCap s.allocCap).keepsErrors_setCapped

/-- Settles O41: `ALLOC` may set `CAPPED`, and the others make named updates that do not touch the record at all. -/
theorem poolAndBankCommandsNeverFail : Obligations.PoolAndBankCommandsNeverFail := by
  intro s i h
  cases i with
  | alloc => exact exec_alloc_keepsErrors s
  | nop | reset | shrm | shrd | ddec | cscl | sscl | grow =>
    exact ⟨_, rfl, State.KeepsErrors.of_sticky_eq rfl rfl rfl rfl⟩
  | render | renderEnv | lnear | llin | lcyc | lchk => simp at h

/-! ## No command reads the error record (R203) -/

/-- Two runs answer next states that agree in everything but the error record. -/
def NextAgree (o o' : Host.Outcome State Fault Refusal) : Prop :=
  ∃ t t' : State, o = .next t ∧ o' = .next t' ∧ t.withRecord 0 0 0 0 = t'.withRecord 0 0 0 0

section Record

variable {s : State} {sticky : BitVec 5} {lastErr : BitVec 8} {lastCmd errCnt : Word}

/-- What is done beside the record leaves the record as it was in either run. -/
theorem NextAgree.beside (t : State) :
    NextAgree (.next t) (.next (t.withRecord sticky lastErr lastCmd errCnt)) := ⟨_, _, rfl, rfl, rfl⟩

/-- Setting `CAPPED` changes the record in either run, and nothing else. -/
theorem NextAgree.setCapped (t : State) :
    NextAgree (.next t.setCapped) (.next (t.withRecord sticky lastErr lastCmd errCnt).setCapped) :=
  ⟨_, _, rfl, rfl, rfl⟩

/-- `fail` counts on from either record, and changes nothing else (R196). -/
theorem NextAgree.fail (c : ErrCode) (v : Word) :
    NextAgree (.next (s.fail c v)) (.next ((s.withRecord sticky lastErr lastCmd errCnt).fail c v)) :=
  ⟨_, _, rfl, rfl, rfl⟩

/-- A branch taken alike in both runs. -/
theorem NextAgree.ite {x x' y y' : Host.Outcome State Fault Refusal} {p : Prop} [Decidable p] (hx : NextAgree x x')
    (hy : NextAgree y y') : NextAgree (if p then x else y) (if p then x' else y') := by
  split
  · exact hx
  · exact hy

/-- A check made alike in both runs, whose failure is `fail` (R196). -/
theorem NextAgree.check {o o' : Host.Outcome State Fault Refusal} {p : Prop} [Decidable p] (c : ErrCode) (v : Word)
    (h : NextAgree o o') :
    NextAgree (if p then .next (s.fail c v) else o)
      (if p then .next ((s.withRecord sticky lastErr lastCmd errCnt).fail c v) else o') :=
  .ite (.fail c v) h

/-- The three ends of `ALLOC` (R147) are chosen by the sizes alone. -/
theorem execAlloc_agree : NextAgree (execAlloc s) (execAlloc (s.withRecord sticky lastErr lastCmd errCnt)) :=
  .ite (.beside s.appendStaged)
    (.ite (.beside (s.setCap (s.grownCap s.growStep.toNat)).appendStaged)
      (.setCapped (s.setCap (s.grownCap s.growStep.toNat))))

/-- Every command, run from two states that differ only in the record, ends in two such states. -/
theorem exec_agree (i : Instr) : NextAgree (exec i s) (exec i (s.withRecord sticky lastErr lastCmd errCnt)) := by
  cases i with
  | nop | reset | shrm | shrd | ddec | cscl | sscl | grow => exact .beside _
  | alloc => exact execAlloc_agree
  | render c f a n => exact .check _ _ (.check _ _ (.beside (s.renderFrames c f a none n)))
  | renderEnv c f a t n =>
    exact .check _ _ (.check _ _ (.check _ _ (.beside (s.renderFrames c f a (some (s.lut t)) n))))
  | lnear | llin | lchk => exact .check _ _ (.beside (s.setRes _))
  | lcyc k a t n => exact .check _ _ (.check _ _ (.check _ _ (.beside (s.setMem (s.cyclicMem t k a n)))))

end Record

/-- Settles O42: the record is written in either run, never looked at. -/
theorem commandsNeverReadTheErrorRecord : Obligations.CommandsNeverReadTheErrorRecord :=
  fun _ i _ _ _ _ => exec_agree i

end Sys2Proof.Machine
end

section
/-! Proofs for spec/70_reset_and_hazards.md: the state after hardware reset (R220 to R223). -/

namespace Sys2Proof.Machine

open Sys2Proof

/-- The default column of R5 meets the constraints of R5. -/
theorem Params.default_legal : Params.default.legal := by decide

/-- The state of a machine just switched on is that of a hardware reset but for the free contents of `LMEM`, `FBUF`
and `OBUF` (log entry 2), which no slot word reads: a slot word that is not listed is zero in every epoch (R36). -/
theorem State.padded_reset : State.reset.Padded :=
  fun _ _ _ _ => Memory.osc_unlisted _ _ _ rfl

/-- Settles O2: the sizes and the listed words are those that hardware reset leaves, and only the padding has to be
looked at in the first epoch. -/
theorem resetSatisfiesInvariant : Obligations.ResetSatisfiesInvariant := by
  obtain ⟨legal, canonical, inMap, sized, -⟩ := State.inv_hardReset (s := State.reset) Params.default_legal
  exact ⟨legal, canonical, inMap, sized, State.padded_reset⟩

/-- Hardware reset is accepted like any transaction, between two others (R223). -/
theorem accept_hardReset (s : State) : s.accept .hardReset = .next s.hardReset := rfl

/-- Settles O8: the unit accepts the pending reset, and `State.hardReset` keeps of the state only the parameters and
what is the host's (log entry 9). -/
theorem hardResetGivesResetState : Obligations.HardResetGivesResetState := by
  intro s rest hp
  calc step s = State.accept { s with pending := rest } .hardReset := step_of_pending_cons hp
    _ = .next (State.hardReset { s with pending := rest }) := accept_hardReset _

end Sys2Proof.Machine
end
